-- ==== Sys2Proof/Word.lean ====
section
/-! DEFINITION. The word types of the block: 64-bit registers, bytes of the bus, and the complex cell. -/

namespace Sys2Proof

/-- A 64-bit register value or command word (30_encoding.md R90). -/
abbrev Word := BitVec 64

/-- The bit pattern of an IEEE-754 binary64 value (00_scope.md R12). -/
abbrev F64 := BitVec 64

/-- One byte of a host bus access (20_memory.md R73). -/
abbrev Byte := BitVec 8

/-- One cell of a grid: a complex value as a pair of binary64 patterns (10_state.md R43). -/
structure Cx where
  re : F64
  im : F64
  deriving DecidableEq, Repr, Inhabited

/-- The cell `(+0, +0)` (00_scope.md R24). -/
abbrev Cx.zero : Cx := ⟨0, 0⟩

end Sys2Proof
end

