-- ==== Sys2Proof/Syntax.lean ====
section
/-! DEFINITION. The twelve commands of the opcode map (30_encoding.md R98), as syntax. -/

namespace Sys2Proof

/-- A command. Bank fields `d`, `s` and coordinates `x`, `y` are the zero-extended fields of 30_encoding.md R92. -/
inductive Instr where
  /-- GET (R110): format C. -/
  | get (d x y : Nat)
  /-- SET (R111): format C. -/
  | set (d x y : Nat)
  /-- MAG2 (R112): format C. -/
  | mag2 (d x y : Nat)
  /-- MAG (R113): format C. -/
  | mag (d x y : Nat)
  /-- PHASE (R114): format C. -/
  | phase (d x y : Nat)
  /-- ZERO_CELL (R115): format C. -/
  | zeroCell (d x y : Nat)
  /-- SCALE (R130): format G. -/
  | scale (d : Nat)
  /-- COPY (R132): format K, destination first (R101). -/
  | copy (d s : Nat)
  /-- SUMSQ (R135): format G. -/
  | sumsq (d : Nat)
  /-- RENORM (R138): format G. -/
  | renorm (d : Nat)
  /-- FFT_FWD (R160): format G. -/
  | fftFwd (d : Nat)
  /-- FFT_INV (R161): format G. -/
  | fftInv (d : Nat)
  deriving DecidableEq, Repr

end Sys2Proof
end

