-- ==== Sys2Proof/WellFormed.lean ====
section
/-! DEFINITION. Which commands have a command word: each field fits its place (30_encoding.md R91). A bank at or above
NBANKS, or a coordinate at or above N, is well formed: it is encodable, and performing it is an error (R92). -/

namespace Sys2Proof

/-- The fields of a format C command fit: bank in 4 bits, coordinates in 16 (30_encoding.md R91, R93). -/
def wfCell (d x y : Nat) : Bool := d < 16 && x < 65536 && y < 65536

/-- The field of a format G command fits (30_encoding.md R94). -/
def wfGrid (d : Nat) : Bool := d < 16

/-- The fields of a format K command fit (30_encoding.md R95). -/
def wfCopy (d s : Nat) : Bool := d < 16 && s < 16

/-- The command is encodable. -/
def Instr.wf : Instr → Bool
  | .get d x y => wfCell d x y
  | .set d x y => wfCell d x y
  | .mag2 d x y => wfCell d x y
  | .mag d x y => wfCell d x y
  | .phase d x y => wfCell d x y
  | .zeroCell d x y => wfCell d x y
  | .scale d => wfGrid d
  | .copy d s => wfCopy d s
  | .sumsq d => wfGrid d
  | .renorm d => wfGrid d
  | .fftFwd d => wfGrid d
  | .fftInv d => wfGrid d

end Sys2Proof
end

