-- ==== Sys2Proof/Decode.lean ====
section
/-! DEFINITION. The decoder of command words, total and rejecting by name, and the encoder, both written from
30_encoding.md R91-R99. -/

namespace Sys2Proof

/-- Why a word, or a string of bytes, is no command (30_encoding.md R97, R99). -/
inductive DecodeError where
  /-- The opcode is outside the map (60_exceptions.md R183). -/
  | badOp
  /-- The opcode is legal and a reserved field of its format is not zero (60_exceptions.md R184). -/
  | rsvd
  /-- Not exactly one 8-byte word (30_encoding.md R90); no word of CMD gives this. -/
  | badLength
  deriving DecidableEq, Repr

/-- `op = w[7:0]` (30_encoding.md R92). -/
def fieldOp (w : Word) : Nat := w.toNat % 2 ^ 8

/-- `d = w[11:8]` (30_encoding.md R92). -/
def fieldD (w : Word) : Nat := w.toNat / 2 ^ 8 % 2 ^ 4

/-- `s = w[15:12]` (30_encoding.md R92). -/
def fieldS (w : Word) : Nat := w.toNat / 2 ^ 12 % 2 ^ 4

/-- `x = w[31:16]` (30_encoding.md R92). -/
def fieldX (w : Word) : Nat := w.toNat / 2 ^ 16 % 2 ^ 16

/-- `y = w[47:32]` (30_encoding.md R92). -/
def fieldY (w : Word) : Nat := w.toNat / 2 ^ 32 % 2 ^ 16

/-- `rsv = w[63:48]` (30_encoding.md R91). -/
def fieldRsv (w : Word) : Nat := w.toNat / 2 ^ 48

/-- Format C (30_encoding.md R93): `s` and `rsv` must be 0. -/
def decodeC (make : Nat → Nat → Nat → Instr) (w : Word) : Except DecodeError Instr :=
  if fieldS w = 0 ∧ fieldRsv w = 0 then .ok (make (fieldD w) (fieldX w) (fieldY w)) else .error .rsvd

/-- Format G (30_encoding.md R94): `s`, `x`, `y` and `rsv` must be 0. -/
def decodeG (make : Nat → Instr) (w : Word) : Except DecodeError Instr :=
  if fieldS w = 0 ∧ fieldX w = 0 ∧ fieldY w = 0 ∧ fieldRsv w = 0 then .ok (make (fieldD w)) else .error .rsvd

/-- Format K (30_encoding.md R95): `x`, `y` and `rsv` must be 0. -/
def decodeK (make : Nat → Nat → Instr) (w : Word) : Except DecodeError Instr :=
  if fieldX w = 0 ∧ fieldY w = 0 ∧ fieldRsv w = 0 then .ok (make (fieldD w) (fieldS w)) else .error .rsvd

/-- The opcode map and the reserved-field checks (30_encoding.md R97-R99): every 64-bit word is a command or is
rejected as `badOp` or `rsvd`. -/
def decode (w : Word) : Except DecodeError Instr :=
  match fieldOp w with
  | 0x01 => decodeC .get w
  | 0x02 => decodeC .set w
  | 0x03 => decodeC .mag2 w
  | 0x04 => decodeC .mag w
  | 0x05 => decodeC .phase w
  | 0x06 => decodeC .zeroCell w
  | 0x10 => decodeG .scale w
  | 0x11 => decodeK .copy w
  | 0x12 => decodeG .sumsq w
  | 0x13 => decodeG .renorm w
  | 0x20 => decodeG .fftFwd w
  | 0x21 => decodeG .fftInv w
  | _ => .error .badOp

/-- The number of a little-endian byte string (20_memory.md R73): the first byte is the least significant. -/
def natOfBytes : List Byte → Nat
  | [] => 0
  | b :: bs => b.toNat + 2 ^ 8 * natOfBytes bs

/-- The `k` bytes of a number, least significant first (20_memory.md R73). -/
def bytesOfNat : Nat → Nat → List Byte
  | 0, _ => []
  | k + 1, v => BitVec.ofNat 8 v :: bytesOfNat k (v / 2 ^ 8)

/-- Decoding a byte string as it lies on the bus: one 8-byte word (30_encoding.md R90), little-endian (20_memory.md R73). -/
def decodeBytes (bs : List Byte) : Except DecodeError Instr :=
  if bs.length = 8 then decode (BitVec.ofNat 64 (natOfBytes bs)) else .error .badLength

/-- What the decoder reads from the instruction whose bits are `w`, the bits at and above `nbits` being 0. -/
def decodeTableWord (nbits w : Nat) : Option Instr :=
  (decodeBytes (bytesOfNat 8 (w % 2 ^ nbits))).toOption

/-- A command word from its fields (30_encoding.md R91), `rsv` being 0. -/
def packWord (op d s x y : Nat) : Word :=
  BitVec.ofNat 64 (op + d * 2 ^ 8 + s * 2 ^ 12 + x * 2 ^ 16 + y * 2 ^ 32)

/-- The command word of a command (30_encoding.md R91-R98). -/
def encode : Instr → Word
  | .get d x y => packWord 0x01 d 0 x y
  | .set d x y => packWord 0x02 d 0 x y
  | .mag2 d x y => packWord 0x03 d 0 x y
  | .mag d x y => packWord 0x04 d 0 x y
  | .phase d x y => packWord 0x05 d 0 x y
  | .zeroCell d x y => packWord 0x06 d 0 x y
  | .scale d => packWord 0x10 d 0 0 0
  | .copy d s => packWord 0x11 d s 0 0
  | .sumsq d => packWord 0x12 d 0 0 0
  | .renorm d => packWord 0x13 d 0 0 0
  | .fftFwd d => packWord 0x20 d 0 0 0
  | .fftInv d => packWord 0x21 d 0 0 0

end Sys2Proof
end

