-- ==== Sys2Proof/Config.lean ====
section
/-! DEFINITION. What an implementation of the block fixes (00_scope.md R5) and the values the spec leaves open. -/

namespace Sys2Proof

/-- The build parameters of a block (00_scope.md R5, 20_memory.md R77): fixed when it is built. They stand in the
state as plain data that no step changes, so that a statement over all states is one over all builds. -/
structure Build where
  /-- LOG2N: the grid side is `2^LOG2N`. -/
  log2n : Nat
  /-- NBANKS: how many grid banks. -/
  nbanks : Nat
  /-- BASE: the bus address of register offset 0. -/
  base : BitVec 64
  deriving DecidableEq, Repr

/-- The grid side N (00_scope.md R5). -/
def Build.n (b : Build) : Nat := 2 ^ b.log2n

/-- Cells in one bank: N*N (10_state.md R43). -/
def Build.cells (b : Build) : Nat := b.n * b.n

/-- A legal configuration (00_scope.md R6 and R7, 20_memory.md R77). -/
def Build.wf (b : Build) : Bool :=
  b.log2n ≤ 15 && 2 ≤ b.nbanks && b.nbanks ≤ 16 && b.base.toNat % 256 == 0

/-- The build of `State.reset`. DESIGN CHOICE (log entry 4): the size and bank count of the spec's register and
error vectors (95_test_vectors.md sections 2.8 and 2.9), at address 0. -/
def Build.default : Build := { log2n := 2, nbanks := 4, base := 0 }

namespace Config

/-- The hardwired ID register (10_state.md R36). -/
def idValue : Word := 0x0000000132544646

/-- EPS_RESET, the reset value of RENORM_EPS (00_scope.md R5, 10_state.md R46). -/
def epsReset : F64 := 0x3DDB7CDFD9D7BDBB

/-- TOL_NORM as a fraction (92_eei_decisions.md D35): a tolerance of a law to check, not behaviour. -/
def tolNorm : Nat × Nat := (1, 1000000)

/-- TOL_FFT as a fraction (92_eei_decisions.md D35): a tolerance of a law to check, not behaviour. -/
def tolFft : Nat × Nat := (1, 1000000000)

/-- FREE VALUE (10_state.md R45, log entry 2): the bits hardware returns for an unwritten cell. The first argument is
the state's free-value counter, the second the slot `2 * address + part` of the grid store (10_state.md R44). -/
opaque freeSlot : Nat → Nat → F64

/-- FREE VALUE (10_state.md R52, log entry 6): what the scratch storage holds after a transform or an abort, by the
free-value counter and the slot of the line. -/
opaque freeScratch : Nat → Nat → F64

/-- FREE VALUE (log entry 12): the upper of two neighbouring results is taken where the widest computed enclosure of
`atan2 y x` does not decide the rounding. No operands are known for which that happens. -/
opaque atan2Upper : F64 → F64 → Bool

/-- FREE VALUE (log entry 13): the same for a twiddle constant, by LOG2N and ROM index. -/
opaque twiddleUpper : Nat → Nat → Bool

end Config

end Sys2Proof
end

