-- ==== Sys2Proof/Machine/State.lean ====
section
/-! DEFINITION. The state of the block as plain data, the reasons a step can stop, and the state after reset
(10_state.md R55). -/

namespace Sys2Proof.Machine

/-- Error codes of a command word (60_exceptions.md R180). -/
inductive ErrCode where
  /-- E_BADOP, 0x01. -/
  | badOp
  /-- E_RSVD, 0x02. -/
  | rsvd
  /-- E_BANK, 0x03. -/
  | bank
  /-- E_RANGE, 0x04. -/
  | range
  deriving DecidableEq, Repr

/-- An entry of the fault log (10_state.md R53): an error code raised, or a model fault. -/
inductive LogEntry where
  /-- An error code, appended by 60_exceptions.md R181. -/
  | error (c : ErrCode)
  /-- UNINIT_READ (10_state.md R45). -/
  | uninitRead
  /-- BUS_ERROR (20_memory.md R72). -/
  | busError
  deriving DecidableEq, Repr

/-- STATUS as its fields (10_state.md R38); reserved bits have no storage. -/
structure Status where
  busy : Bool
  done : Bool
  err : Bool
  warn : Bool
  ovr : Bool
  errCode : BitVec 8
  warnCode : BitVec 8
  deriving DecidableEq, Repr

/-- STATUS = 0 (10_state.md R55). -/
abbrev Status.zero : Status :=
  { busy := false, done := false, err := false, warn := false, ovr := false, errCode := 0, warnCode := 0 }

/-- What the outside world does next, or the engine's turn (10_state.md R30). Bus addresses are absolute; a write
carries its bytes, lowest address first (20_memory.md R73). -/
inductive Event where
  /-- A host read of `width` bytes at `addr`. -/
  | hostRead (addr : BitVec 64) (width : Nat)
  /-- A host write of the bytes `data` at `addr`. -/
  | hostWrite (addr : BitVec 64) (data : List Byte)
  /-- The engine takes its step if it is enabled. -/
  | engine
  /-- The reset input is asserted (70_reset_and_hazards.md R210). -/
  | resetAssert
  /-- The reset input is deasserted (70_reset_and_hazards.md R210). -/
  | resetDeassert
  deriving DecidableEq, Repr

/-- The block's answer to the last host access. -/
inductive BusResp where
  /-- No access has been made since power-on. -/
  | idle
  /-- The access was not in the register space: the block does not answer (20_memory.md R77). -/
  | notSelected
  /-- A read returned these bytes, lowest address first. -/
  | data (bytes : List Byte)
  /-- A write completed. -/
  | done
  /-- The bus error response of 20_memory.md R72. -/
  | busError
  deriving DecidableEq, Repr

/-- The grid store: the written cells, by strictly rising address. A cell not listed is unwritten (10_state.md R45), so
no entry repeats what an unlisted address reads as. -/
abbrev Memory := List (Nat × Cx)

/-- The state of the block. -/
structure State where
  /-- The build parameters (00_scope.md R5), which CONFIG shows (10_state.md R37). -/
  build : Build
  /-- STATUS (10_state.md R38). -/
  status : Status
  /-- CMD (10_state.md R40); with `status.busy` and the latches, the command slot (10_state.md R51). -/
  cmd : Word
  /-- OPA (10_state.md R34). -/
  opa : F64
  /-- OPB (10_state.md R35). -/
  opb : F64
  /-- RES0 (10_state.md R41). -/
  res0 : F64
  /-- RES1 (10_state.md R41). -/
  res1 : F64
  /-- RENORM_EPS (10_state.md R46). -/
  renormEps : F64
  /-- IRQ_EN, its four defined bits (10_state.md R47). -/
  irqEn : BitVec 4
  /-- lat[OPA] (10_state.md R50). -/
  latOpa : F64
  /-- lat[OPB] (10_state.md R50). -/
  latOpb : F64
  /-- lat[EPS] (10_state.md R50). -/
  latEps : F64
  /-- The grid store with its written flags (10_state.md R43, R45). -/
  grid : Memory
  /-- The scratch storage for one line (10_state.md R52). -/
  scratch : List Cx
  /-- The fault log, oldest entry first (10_state.md R53). -/
  faultlog : List LogEntry
  /-- The reset input is asserted (70_reset_and_hazards.md R210). -/
  resetPin : Bool
  /-- THE MODEL'S OWN: what happens next, oldest first (log entry 7). -/
  events : List Event
  /-- THE MODEL'S OWN: the response to the last host access (log entry 8). -/
  resp : BusResp
  /-- THE MODEL'S OWN: the free-value counter (log entry 2). -/
  freeCtr : Nat
  deriving DecidableEq, Repr

/-- Reasons the machine stops with a fault: there are none. The spec's model faults UNINIT_READ and BUS_ERROR are entries of
the fault log (`LogEntry`), after which the block goes on (93_implementation_defined.md, the treatment `fault`). -/
inductive Fault where
  deriving DecidableEq, Repr

/-- Reasons the model gives no step. -/
inductive Refusal where
  /-- Raised by `exec` for a command without a meaning. Safe. No command is left without one. -/
  | notModelled (mnemonic : String)
  /-- Raised by `step` for a configuration that is not legal: "there is no run of a block of that size"
  (00_scope.md R6, R7). Safe. -/
  | illFormedConfig
  deriving DecidableEq, Repr

/-- The state of a block of build `b` after power-on and hard reset (10_state.md R55): CMD, OPA, OPB, RES0, RES1, STATUS
and IRQ_EN are 0, no cell is written, the fault log is empty. DESIGN CHOICE: latches 0 (log entry 5), scratch zero
(log entry 6), the model's own fields empty (log entries 2, 7, 8). -/
def State.resetOf (b : Build) : State where
  build := b
  status := Status.zero
  cmd := 0
  opa := 0
  opb := 0
  res0 := 0
  res1 := 0
  renormEps := Config.epsReset
  irqEn := 0
  latOpa := 0
  latOpb := 0
  latEps := 0
  grid := []
  scratch := List.replicate b.n Cx.zero
  faultlog := []
  resetPin := false
  events := []
  resp := .idle
  freeCtr := 0

/-- The state right after reset, of the build `Build.default` (log entry 4). -/
def State.reset : State := State.resetOf Build.default

end Sys2Proof.Machine
end

