-- ==== Sys2Proof/Machine/Flags.lean ====
section
/-! DEFINITION. STATUS as a word and every way it changes (10_state.md R38-R40, R54), and the interrupt output (R49). -/

namespace Sys2Proof.Machine

/-- The value of ERRCODE for an error (60_exceptions.md R180). -/
def ErrCode.code : ErrCode → BitVec 8
  | .badOp => 0x01
  | .rsvd => 0x02
  | .bank => 0x03
  | .range => 0x04

/-- W_NEARZERO (60_exceptions.md R185). -/
def wNearZero : BitVec 8 := 0x01

/-- STATUS as the host reads it (10_state.md R38): reserved bits read 0. -/
def Status.toWord (t : Status) : Word :=
  BitVec.ofNat 64 (t.busy.toNat + t.done.toNat * 2 ^ 1 + t.err.toNat * 2 ^ 2 + t.warn.toNat * 2 ^ 3
    + t.ovr.toNat * 2 ^ 4 + t.errCode.toNat * 2 ^ 8 + t.warnCode.toNat * 2 ^ 16)

/-- A host write of `v` to STATUS (10_state.md R39); its bit 2 is the return from an error (60_exceptions.md R189). -/
def Status.writeOneToClear (v : Word) (t : Status) : Status where
  busy := t.busy
  done := t.done && !v.getLsbD 1
  err := t.err && !v.getLsbD 2
  errCode := if v.getLsbD 2 then 0 else t.errCode
  warn := t.warn && !v.getLsbD 3
  warnCode := if v.getLsbD 3 then 0 else t.warnCode
  ovr := t.ovr && !v.getLsbD 4

/-- A command is accepted (10_state.md R40). -/
def Status.accept (t : Status) : Status := { t with busy := true, done := false }

/-- A CMD write is dropped (10_state.md R40). -/
def Status.drop (t : Status) : Status := { t with ovr := true }

/-- The engine completes a command (30_encoding.md R97). -/
def Status.complete (t : Status) : Status := { t with busy := false, done := true }

/-- The engine completes with an error (60_exceptions.md R181). -/
def Status.raise (c : ErrCode) (t : Status) : Status := { t.complete with err := true, errCode := c.code }

/-- RENORM's diagnostic (41_grid_reduction.md R138). -/
def Status.nearZero (t : Status) : Status := { t with warn := true, warnCode := wNearZero }

/-- The interrupt output (10_state.md R49). IRQ_EN's bits: DONE_IE 0, ERR_IE 1, WARN_IE 2, OVR_IE 3 (R47). -/
def irq (s : State) : Bool :=
  (s.status.done && s.irqEn.getLsbD 0) || (s.status.err && s.irqEn.getLsbD 1)
    || (s.status.warn && s.irqEn.getLsbD 2) || (s.status.ovr && s.irqEn.getLsbD 3)

end Sys2Proof.Machine
end

