-- ==== Sys2Proof/Machine/Operands.lean ====
section
/-! DEFINITION. The operands of a command: cells and banks (10_state.md R42, 30_encoding.md R96), and the range checks
(60_exceptions.md R182, R186). Floating-point operands are the latches `latOpa`, `latOpb` and `latEps` (10_state.md R50). -/

namespace Sys2Proof.Machine

/-- The flat index `y*N + x` of a cell (10_state.md R42), exact in integers (00_scope.md R23). -/
def flatIdx (b : Build) (x y : Nat) : Nat := y * b.n + x

/-- Where the banks lie in the grid store: a bank has fewer than 2^30 cells or just as many (00_scope.md R23; log entry 1). -/
abbrev bankStride : Nat := 1073741824

/-- The address in the grid store of the cell with flat index `i` of bank `d` (log entry 1). -/
def cellAddr (d i : Nat) : Nat := d * bankStride + i

/-- The address of the cell operand of a format C command (30_encoding.md R96). -/
def cellOperand (b : Build) (d x y : Nat) : Nat := cellAddr d (flatIdx b x y)

/-- The checks of a format C command that decoded: E_BANK, then E_RANGE (60_exceptions.md R182, R186). -/
def cellError (b : Build) (d x y : Nat) : Option ErrCode :=
  if b.nbanks ≤ d then some .bank
  else if b.n ≤ x ∨ b.n ≤ y then some .range
  else none

/-- The check of a format G command that decoded (60_exceptions.md R182). -/
def gridError (b : Build) (d : Nat) : Option ErrCode :=
  if b.nbanks ≤ d then some .bank else none

/-- The check of COPY (60_exceptions.md R182): either bank field out of range. -/
def copyError (b : Build) (d s : Nat) : Option ErrCode :=
  if b.nbanks ≤ d ∨ b.nbanks ≤ s then some .bank else none

/-- The cells a command would write if it were performed (70_reset_and_hazards.md R212): one cell for SET and ZERO_CELL, the
whole destination bank for SCALE, COPY, RENORM and the transforms; none for a command that only reads, or that the
checks reject. -/
def writesCell (b : Build) (i : Instr) (a : Nat) : Bool :=
  match i with
  | .get _ _ _ => false
  | .set d x y => (cellError b d x y).isNone && a == cellOperand b d x y
  | .mag2 _ _ _ => false
  | .mag _ _ _ => false
  | .phase _ _ _ => false
  | .zeroCell d x y => (cellError b d x y).isNone && a == cellOperand b d x y
  | .scale d => (gridError b d).isNone && a / bankStride == d
  | .copy d s => (copyError b d s).isNone && a / bankStride == d
  | .sumsq _ => false
  | .renorm d => (gridError b d).isNone && a / bankStride == d
  | .fftFwd d => (gridError b d).isNone && a / bankStride == d
  | .fftInv d => (gridError b d).isNone && a / bankStride == d

end Sys2Proof.Machine
end

