-- ==== Sys2Proof/Machine/Ops.lean ====
section
/-! DEFINITION. The operations every command is made of: reading and writing the grid store (00_scope.md R10), completing,
taking an error (60_exceptions.md R181) and returning from it (R189), and the model fault of an unwritten cell
(10_state.md R45). -/

namespace Sys2Proof.Machine

/-- The cell at an address of the grid store, if it is written. -/
def gridRead : Memory → Nat → Option Cx
  | [], _ => none
  | (k, v) :: g, a => if a = k then some v else gridRead g a

/-- Storing a cell; the list keeps its strictly rising addresses. -/
def gridWrite : Memory → Nat → Cx → Memory
  | [], a, v => [(a, v)]
  | (k, w) :: g, a, v =>
    if a < k then (a, v) :: (k, w) :: g
    else if a = k then (a, v) :: g
    else (k, w) :: gridWrite g a v

/-- Storing consecutive cells from an address on. -/
def gridWriteFrom (g : Memory) (a : Nat) : List Cx → Memory
  | [] => g
  | v :: vs => gridWriteFrom (gridWrite g a v) (a + 1) vs

/-- Clearing the written flag of every cell whose address `p` marks (70_reset_and_hazards.md R212). -/
def gridUnwrite (g : Memory) (p : Nat → Bool) : Memory := g.filter fun e => !p e.1

/-- The canonical form of the grid store: addresses strictly rise. -/
def Memory.wf : Memory → Bool
  | [] => true
  | [_] => true
  | (a, _) :: (b, w) :: g => decide (a < b) && Memory.wf ((b, w) :: g)

/-- What hardware returns for an unwritten cell: free bits (10_state.md R45, log entry 2). -/
def freeCell (ctr a : Nat) : Cx := ⟨Config.freeSlot ctr (2 * a), Config.freeSlot ctr (2 * a + 1)⟩

/-- The bits a read of the cell at an address returns: the stored ones, or free ones. -/
def cellBits (s : State) (a : Nat) : Cx := (gridRead s.grid a).getD (freeCell s.freeCtr a)

/-- The cell at an address is written (10_state.md R45). -/
def cellWritten (s : State) (a : Nat) : Bool := (gridRead s.grid a).isSome

/-- The bits of the cells of bank `d`, in ascending flat index. -/
def bankBits (s : State) (d : Nat) : List Cx :=
  (List.range s.build.cells).map fun i => cellBits s (cellAddr d i)

/-- Every cell of bank `d` is written. -/
def bankWritten (s : State) (d : Nat) : Bool :=
  (List.range s.build.cells).all fun i => cellWritten s (cellAddr d i)

/-- `CellWrite` at an address, with its written flag (00_scope.md R10, 10_state.md R45). -/
def writeCell (s : State) (a : Nat) (v : Cx) : State := { s with grid := gridWrite s.grid a v }

/-- `CellWrite` of every cell of bank `d`, in ascending flat index. -/
def writeBank (s : State) (d : Nat) (vs : List Cx) : State :=
  { s with grid := gridWriteFrom s.grid (cellAddr d 0) vs }

/-- The model fault UNINIT_READ (10_state.md R45): an entry of the fault log, and the free values are used up. -/
def uninitRead (s : State) : State :=
  { s with faultlog := s.faultlog ++ [.uninitRead], freeCtr := s.freeCtr + 1 }

/-- UNINIT_READ unless what the command read was written. -/
def noteRead (written : Bool) (s : State) : State := if written then s else uninitRead s

/-- The scratch storage after a transform or an abort: one line of free values (10_state.md R52, log entry 6). -/
def spoilScratch (s : State) : State :=
  { s with
    scratch := (List.range s.build.n).map fun j =>
      ⟨Config.freeScratch s.freeCtr (2 * j), Config.freeScratch s.freeCtr (2 * j + 1)⟩
    freeCtr := s.freeCtr + 1 }

/-- Completion without an error (30_encoding.md R97). -/
def complete (s : State) : State := { s with status := s.status.complete }

/-- TAKING AN ERROR (60_exceptions.md R181, R188): the whole effect of an error code. -/
def raiseError (c : ErrCode) (s : State) : State :=
  { s with status := s.status.raise c, faultlog := s.faultlog ++ [.error c] }

/-- RETURNING FROM AN ERROR (60_exceptions.md R189): the host's write of `v` to STATUS. -/
def writeStatus (v : Word) (s : State) : State := { s with status := s.status.writeOneToClear v }

/-- A command word's checks, then its rule and completion, or its error (30_encoding.md R97, 60_exceptions.md R186). -/
def perform (check : Option ErrCode) (body : State → State) (s : State) : Host.Outcome State Fault Refusal :=
  match check with
  | some c => .next (raiseError c s)
  | none => .next (complete (body s))

/-- The rule of a command that reads one cell: the result registers get what `result` makes of its bits. -/
def readCellInto (a : Nat) (result : Cx → State → State) (s : State) : State :=
  noteRead (cellWritten s a) (result (cellBits s a) s)

/-- A result in RES0 alone (10_state.md R41). -/
def setRes0 (v : F64) (s : State) : State := { s with res0 := v }

/-- A result in RES0 and RES1 (10_state.md R41). -/
def setRes (v : Cx) (s : State) : State := { s with res0 := v.re, res1 := v.im }

/-- The rule of a command that rewrites bank `d` from the cells of bank `src`: every cell is read before any is written
(00_scope.md R10), and none is written where one read was not (41_grid_reduction.md R130, R132, 42_fft.md R160). -/
def rewriteBank (d src : Nat) (f : List Cx → List Cx) (s : State) : State :=
  if bankWritten s src then writeBank s d (f (bankBits s src)) else uninitRead s

end Sys2Proof.Machine
end

