-- ==== Sys2Proof/Machine/Bus.lean ====
section
/-! DEFINITION. The host's side of the block: the register map (10_state.md R33-R48), the bus (20_memory.md R70-R77), and the
two resets with the abort of a pending command (70_reset_and_hazards.md R210-R212). -/

namespace Sys2Proof.Machine

/-- The registers of the map (10_state.md R33). -/
inductive Reg where
  | id
  | config
  | ctrl
  | status
  | cmd
  | opa
  | opb
  | res0
  | res1
  | renormEps
  | irqEn
  deriving DecidableEq, Repr

/-- The byte offset of a register (10_state.md R33). -/
def Reg.offset : Reg → Nat
  | .id => 0x00
  | .config => 0x08
  | .ctrl => 0x10
  | .status => 0x18
  | .cmd => 0x20
  | .opa => 0x28
  | .opb => 0x30
  | .res0 => 0x38
  | .res1 => 0x40
  | .renormEps => 0x48
  | .irqEn => 0x50

/-- The register at an offset; none at a reserved one (10_state.md R33). -/
def regAt (off : Nat) : Option Reg :=
  match off with
  | 0x00 => some .id
  | 0x08 => some .config
  | 0x10 => some .ctrl
  | 0x18 => some .status
  | 0x20 => some .cmd
  | 0x28 => some .opa
  | 0x30 => some .opb
  | 0x38 => some .res0
  | 0x40 => some .res1
  | 0x48 => some .renormEps
  | 0x50 => some .irqEn
  | _ => none

/-- CONFIG as the host reads it (10_state.md R37). -/
def configWord (b : Build) : Word := BitVec.ofNat 64 (b.log2n % 2 ^ 4 + b.nbanks % 2 ^ 5 * 2 ^ 8)

/-- What a register reads as (10_state.md R34-R48). No read changes the state (20_memory.md R75). -/
def regValue (s : State) : Reg → Word
  | .id => Config.idValue
  | .config => configWord s.build
  | .ctrl => 0
  | .status => s.status.toWord
  | .cmd => s.cmd
  | .opa => s.opa
  | .opb => s.opb
  | .res0 => s.res0
  | .res1 => s.res1
  | .renormEps => s.renormEps
  | .irqEn => s.irqEn.setWidth 64

/-- What an offset reads as; a reserved one reads 0 (20_memory.md R74). -/
def readOffset (s : State) (off : Nat) : Word :=
  match regAt off with
  | some r => regValue s r
  | none => 0

/-- A host write of `w` to CMD (10_state.md R40): accepted with BUSY = 0 and ERR = 0, the operands latched in the same step;
else dropped. -/
def writeCmd (w : Word) (s : State) : State :=
  if s.status.busy || s.status.err then { s with status := s.status.drop }
  else
    { s with cmd := w, latOpa := s.opa, latOpb := s.opb, latEps := s.renormEps, status := s.status.accept }

/-- The abort of a pending command (70_reset_and_hazards.md R212): every cell it would write becomes unwritten. A word that
the decoder rejects, or that the checks would reject, clears nothing. -/
def abortPending (s : State) : State :=
  if s.status.busy then
    match decode s.cmd with
    | .ok i => spoilScratch { s with grid := gridUnwrite s.grid (writesCell s.build i) }
    | .error _ => s
  else s

/-- The soft reset (70_reset_and_hazards.md R211): the abort, then the host's registers at their reset values. -/
def softReset (s : State) : State :=
  { abortPending s with
    status := Status.zero, cmd := 0, opa := 0, opb := 0, res0 := 0, res1 := 0
    renormEps := Config.epsReset, irqEn := 0 }

/-- A host write of `v` to CTRL (10_state.md R48). -/
def writeCtrl (v : Word) (s : State) : State := if v.getLsbD 0 then softReset s else s

/-- A host write to a register (10_state.md R34-R48); read-only ones ignore it (20_memory.md R74). -/
def writeReg (s : State) (v : Word) : Reg → State
  | .id => s
  | .config => s
  | .ctrl => writeCtrl v s
  | .status => writeStatus v s
  | .cmd => writeCmd v s
  | .opa => { s with opa := v }
  | .opb => { s with opb := v }
  | .res0 => s
  | .res1 => s
  | .renormEps => { s with renormEps := v }
  | .irqEn => { s with irqEn := v.setWidth 4 }

/-- A legal host write at an offset; a reserved one ignores it (20_memory.md R74). -/
def writeOffset (s : State) (off : Nat) (v : Word) : State :=
  match regAt off with
  | some r => writeReg s v r
  | none => s

/-- The offset of a bus address in the register space at BASE, if it lies there (20_memory.md R77). -/
def offsetOf (b : Build) (addr : BitVec 64) : Option Nat :=
  if (addr - b.base).toNat < 256 then some (addr - b.base).toNat else none

/-- The only legal access: 8 bytes at a multiple of 8 (20_memory.md R72). -/
def legalAccess (off width : Nat) : Bool := width == 8 && off % 8 == 0

/-- The model fault BUS_ERROR (20_memory.md R72): a bus error response and an entry of the fault log; no register changes. -/
def busError (s : State) : State := { s with resp := .busError, faultlog := s.faultlog ++ [.busError] }

/-- A host read (20_memory.md R72-R77). While reset is asserted it returns 0 (70_reset_and_hazards.md R210). -/
def hostRead (addr : BitVec 64) (width : Nat) (s : State) : State :=
  match offsetOf s.build addr with
  | none => { s with resp := .notSelected }
  | some off =>
    if s.resetPin then { s with resp := .data (List.replicate width 0) }
    else if legalAccess off width then { s with resp := .data (bytesOfNat 8 (readOffset s off).toNat) }
    else busError s

/-- A host write (20_memory.md R72-R77). While reset is asserted it has no effect (70_reset_and_hazards.md R210). -/
def hostWrite (addr : BitVec 64) (data : List Byte) (s : State) : State :=
  match offsetOf s.build addr with
  | none => { s with resp := .notSelected }
  | some off =>
    if s.resetPin then { s with resp := .done }
    else if legalAccess off data.length then
      { writeOffset s off (BitVec.ofNat 64 (natOfBytes data)) with resp := .done }
    else busError s

/-- The reset input is asserted (70_reset_and_hazards.md R210): every piece of the block's state takes its value of
10_state.md R55, the fault log stays (R53), and the pin holds the block. What belongs to the outside world or to the model (the
events to come, the last response, the free-value counter) stays too (log entry 10). -/
def hardReset (s : State) : State :=
  { State.resetOf s.build with
    faultlog := s.faultlog, resetPin := true, events := s.events, resp := s.resp, freeCtr := s.freeCtr }

/-- The reset input is deasserted (70_reset_and_hazards.md R210). -/
def releaseReset (s : State) : State := { s with resetPin := false }

/-- `WR <REG>, v` (30_encoding.md R102). -/
def Event.wr (b : Build) (r : Reg) (v : Word) : Event :=
  .hostWrite (b.base + BitVec.ofNat 64 r.offset) (bytesOfNat 8 v.toNat)

/-- `RD <REG>` (30_encoding.md R102). -/
def Event.rd (b : Build) (r : Reg) : Event := .hostRead (b.base + BitVec.ofNat 64 r.offset) 8

/-- `ACK` (30_encoding.md R102). -/
def Event.ack (b : Build) : Event := Event.wr b .status 0x1E

/-- `SRST` (30_encoding.md R102). -/
def Event.srst (b : Build) : Event := Event.wr b .ctrl 0x1

/-- `RUN <cmd>` (30_encoding.md R102): the CMD write, the engine's turn, and the read of STATUS that ends WAIT. -/
def Event.runCmd (b : Build) (i : Instr) : List Event := [Event.wr b .cmd (encode i), .engine, Event.rd b .status]

end Sys2Proof.Machine
end

