-- ==== Sys2Proof/Machine/Float.lean ====
section
/-! DEFINITION. IEEE-754 binary64 arithmetic, one rounding a primitive (00_scope.md R12-R20). A finite value is a whole
number of units of 2^-1074, the smallest subnormal, so every exact result is a fraction of natural numbers. -/

namespace Sys2Proof.Machine

/-- The canonical quiet NaN (00_scope.md R15). -/
abbrev qNaN : F64 := 0x7FF8000000000000

/-- The magnitude bits of infinity: exponent all ones, fraction zero (00_scope.md R12). -/
abbrev infMag : Nat := 0x7FF0000000000000

/-- Sign bit [63] (00_scope.md R12). -/
def isNeg (a : F64) : Bool := decide (2 ^ 63 ≤ a.toNat)

/-- Bits [62:0], the magnitude. -/
def magBits (a : F64) : Nat := a.toNat % 2 ^ 63

/-- Exponent all ones and fraction nonzero. -/
def isNaN (a : F64) : Bool := decide (infMag < magBits a)

/-- Exponent all ones and fraction zero. -/
def isInf (a : F64) : Bool := decide (magBits a = infMag)

/-- `+0` or `-0`. -/
def isZero (a : F64) : Bool := decide (magBits a = 0)

/-- Neither infinite nor NaN. -/
def isFinite (a : F64) : Bool := decide (magBits a < infMag)

/-- A pattern from a sign and magnitude bits. -/
def ofSignMag (neg : Bool) (mag : Nat) : F64 := BitVec.ofNat 64 (mag + if neg then 2 ^ 63 else 0)

/-- The magnitude of the finite pattern with magnitude bits `m`, in units of 2^-1074: the fraction for a subnormal, else
`(2^52 + fraction) * 2^(exponent - 1)` (00_scope.md R12, R16). -/
def magUnits (m : Nat) : Nat :=
  if m < 2 ^ 52 then m else (2 ^ 52 + m % 2 ^ 52) <<< (m / 2 ^ 52 - 1)

/-- The magnitude of a finite value in units of 2^-1074. -/
def units (a : F64) : Nat := magUnits (magBits a)

/-- A finite value in units of 2^-1074. -/
def sunits (a : F64) : Int := if isNeg a then -(units a : Int) else (units a : Int)

/-- The number of units in 1.0. -/
def oneUnits : Nat := 1 <<< 1074

/-- `RN` of a magnitude (00_scope.md R13): the magnitude bits of the binary64 value nearest to `num / den` units, ties to
even, overflow to infinity. `k` is the exponent of the result's last place in units; the bits of a magnitude are
`k * 2^52` plus its significand, also where rounding carries into the next binade. -/
def roundMag (num den : Nat) : Nat :=
  let k := (num / den).log2 - 52
  let step := den <<< k
  let m := num / step
  let r := num % step
  let up := decide (step < 2 * r) || (decide (2 * r = step) && decide (m % 2 = 1))
  min (k * 2 ^ 52 + (m + if up then 1 else 0)) infMag

/-- Negation: flips bit 63 (00_scope.md R20). -/
def fneg (a : F64) : F64 := a ^^^ 0x8000000000000000

/-- `RN(a + b)` (00_scope.md R13, R15, R17). -/
def fadd (a b : F64) : F64 :=
  if isNaN a || isNaN b then qNaN
  else if isInf a then (if isInf b && isNeg a != isNeg b then qNaN else a)
  else if isInf b then b
  else
    let t := sunits a + sunits b
    if t = 0 then ofSignMag (isNeg a && isNeg b) 0
    else ofSignMag (decide (t < 0)) (roundMag t.natAbs 1)

/-- `RN(a - b)` (00_scope.md R13): the sum with the operand negated. -/
def fsub (a b : F64) : F64 := fadd a (fneg b)

/-- `RN(a * b)` (00_scope.md R13, R15, R17). -/
def fmul (a b : F64) : F64 :=
  let neg := isNeg a != isNeg b
  if isNaN a || isNaN b then qNaN
  else if isInf a || isInf b then (if isZero a || isZero b then qNaN else ofSignMag neg infMag)
  else ofSignMag neg (roundMag (units a * units b) oneUnits)

/-- `RN(a / b)` (00_scope.md R13, R15, R17). -/
def fdiv (a b : F64) : F64 :=
  let neg := isNeg a != isNeg b
  if isNaN a || isNaN b then qNaN
  else if isInf a then (if isInf b then qNaN else ofSignMag neg infMag)
  else if isInf b then ofSignMag neg 0
  else if isZero b then (if isZero a then qNaN else ofSignMag neg infMag)
  else ofSignMag neg (roundMag (units a * oneUnits) (units b))

/-- The largest `r'` with `r'^2 ≤ n` that keeps the bits of `r` and adds bits below `2^i`. -/
def sqrtBits : Nat → Nat → Nat → Nat
  | 0, _, r => r
  | i + 1, n, r =>
    let r' := r + 1 <<< i
    if r' * r' ≤ n then sqrtBits i n r' else sqrtBits i n r

/-- The integer square root, by binary digits from the highest. -/
def isqrt (n : Nat) : Nat := sqrtBits (n.log2 / 2 + 1) n 0

/-- `RN(sqrt a)` (00_scope.md R13, R15). The root of `units a * 2^1074` has more than 500 binary digits, so an inexact root
rounds as any number strictly between its integer part and the next: half past the integer part is taken. -/
def fsqrt (a : F64) : F64 :=
  if isNaN a then qNaN
  else if isZero a then a
  else if isNeg a then qNaN
  else if isInf a then a
  else
    let n := units a * oneUnits
    let r := isqrt n
    ofSignMag false (roundMag (2 * r + if r * r = n then 0 else 1) 2)

/-- The place of a value that is not NaN in the order of the extended reals; the two zeros share one. -/
def ordKey (a : F64) : Int := if isNeg a then -(magBits a : Int) else (magBits a : Int)

/-- The ordered comparison `a < b` (00_scope.md R18). -/
def flt (a b : F64) : Bool := !isNaN a && !isNaN b && decide (ordKey a < ordKey b)

/-- 1.0 -/
abbrev one64 : F64 := 0x3FF0000000000000

/-- `cadd` (00_scope.md R22). -/
def cadd (a b : Cx) : Cx := ⟨fadd a.re b.re, fadd a.im b.im⟩

/-- `csub` (00_scope.md R22). -/
def csub (a b : Cx) : Cx := ⟨fsub a.re b.re, fsub a.im b.im⟩

/-- `cmul` (00_scope.md R22): four products, each rounded, then a difference and a sum, each rounded (R14). -/
def cmul (a b : Cx) : Cx :=
  ⟨fsub (fmul a.re b.re) (fmul a.im b.im), fadd (fmul a.re b.im) (fmul a.im b.re)⟩

/-- `cscale` (00_scope.md R22). -/
def cscale (a : Cx) (w : F64) : Cx := ⟨fmul a.re w, fmul a.im w⟩

/-- `mag2` (00_scope.md R22). -/
def mag2 (a : Cx) : F64 := fadd (fmul a.re a.re) (fmul a.im a.im)

/-- `SCALE_L = 2^-L`, the binary64 with bits `(1023 - L) << 52` (42_fft.md R158). -/
def scaleL (l : Nat) : F64 := BitVec.ofNat 64 ((1023 - l) <<< 52)

end Sys2Proof.Machine
end

