-- ==== Sys2Proof/Machine/Trig.lean ====
section
/-! DEFINITION. The correctly rounded two-argument arctangent (00_scope.md R21) and twiddle constants (42_fft.md R152).
Each value is enclosed between two fixed-point numbers of `p` binary places; where both ends round to the same binary64
value, that value is `RN` of the exact number, since rounding keeps order. Widening precisions are tried in turn (log
entries 12 and 13). -/

namespace Sys2Proof.Machine

/-- `RN` of a magnitude that lies between `lo / 2^p` and `hi / 2^p` where `(lo, hi) = enc p`, by the first precision that
decides it; if none does, one of the two roundings at the last precision, by the free value `upper`. -/
def roundEnclosed (enc : Nat → Nat × Nat) (upper : Bool) : Nat → List Nat → Nat
  | p, ps =>
    match ps with
    | [] =>
      let lo := roundMag ((enc p).1 <<< 1074) (1 <<< p)
      let hi := roundMag ((enc p).2 <<< 1074) (1 <<< p)
      if lo = hi then lo else if upper then hi else lo
    | q :: qs =>
      let lo := roundMag ((enc p).1 <<< 1074) (1 <<< p)
      let hi := roundMag ((enc p).2 <<< 1074) (1 <<< p)
      if lo = hi then lo else roundEnclosed enc upper q qs

/-- The terms of Euler's series of `atan (n/d)`, `n ≤ d`, in units of 2^-p, each rounded down: the next term is this one times
`2j/(2j+1) * n²/(n²+d²)`. Returns their sum. -/
def atanSum (num den : Nat) : Nat → Nat → Nat → Nat → Nat
  | 0, _, _, acc => acc
  | fuel + 1, j, t, acc => atanSum num den fuel (j + 1) (t * (2 * j) * num / ((2 * j + 1) * den)) (acc + t)

/-- An enclosure of `atan (n/d)` for `0 ≤ n ≤ d`, `0 < d`, in units of 2^-p: `p + 2` terms, each less than 2 units short, and a
remainder of at most 1 unit. -/
def atanEnc (n d p : Nat) : Nat × Nat :=
  let den := n * n + d * d
  let lo := atanSum (n * n) den (p + 2) 1 (((n * d) <<< p) / den) 0
  (lo, lo + 2 * (p + 2) + 2)

/-- An enclosure of π in units of 2^-p: `4 atan 1`. -/
def piEnc (p : Nat) : Nat × Nat := (4 * (atanEnc 1 1 p).1, 4 * (atanEnc 1 1 p).2)

/-- An enclosure of `atan (n/d)` for `0 < n`, `0 < d`; above 1 by `π/2 - atan (d/n)`. -/
def atanEncAny (n d p : Nat) : Nat × Nat :=
  if n ≤ d then atanEnc n d p
  else ((piEnc p).1 / 2 - (atanEnc d n p).2, (piEnc p).2 / 2 + 1 - (atanEnc d n p).1)

/-- An enclosure of the angle in `[0, π]` of the point with height `n > 0` and width `d > 0`, to the left of the origin
where `left`. -/
def angleEnc (left : Bool) (n d p : Nat) : Nat × Nat :=
  if left then ((piEnc p).1 - (atanEncAny n d p).2, (piEnc p).2 - (atanEncAny n d p).1)
  else atanEncAny n d p

/-- The binary places tried in turn. -/
def trigPlaces : List Nat := [256, 512, 1024]

/-- `RN (atan (n/d))` where `n/d < 2^-64`, from `q - q³/3 < atan q < q - q³/3 + q⁵/5`, exactly, in units of 2^-1074; between
the two bounds by the free value `upper`. -/
def atanTiny (n d : Nat) (upper : Bool) : Nat :=
  let lo := roundMag ((3 * n * d ^ 2 - n ^ 3) <<< 1074) (3 * d ^ 3)
  let hi := roundMag ((15 * n * d ^ 4 - 5 * n ^ 3 * d ^ 2 + 3 * n ^ 5) <<< 1074) (15 * d ^ 5)
  if lo = hi then lo else if upper then hi else lo

/-- The magnitude bits of `RN` of the angle in `[0, π]` of a point with finite nonzero coordinates of magnitudes `n` (height)
and `d` (width) units, to the left of the origin where `left`. -/
def angleMag (left : Bool) (n d : Nat) (upper : Bool) : Nat :=
  if !left && decide (n <<< 64 < d) then atanTiny n d upper
  else roundEnclosed (angleEnc left n d) upper 128 trigPlaces

/-- Magnitude bits of `RN(π)` (00_scope.md R21, 40_element_access.md R114). -/
abbrev piMag : Nat := 0x400921FB54442D18
/-- Magnitude bits of `RN(π/2)` (40_element_access.md R114). -/
abbrev halfPiMag : Nat := 0x3FF921FB54442D18
/-- Magnitude bits of `RN(π/4)` (40_element_access.md R114). -/
abbrev quarterPiMag : Nat := 0x3FE921FB54442D18
/-- Magnitude bits of `RN(3π/4)` (40_element_access.md R114). -/
abbrev threeQuarterPiMag : Nat := 0x4002D97C7F3321D2

/-- `ATAN2(y, x)` (00_scope.md R21): the special cases of its table by magnitude, each with the sign of `y`, and `RN` of the
angle for finite nonzero operands. -/
def atan2 (y x : F64) : F64 :=
  if isNaN y || isNaN x then qNaN
  else if isZero y then ofSignMag (isNeg y) (if isNeg x then piMag else 0)
  else if isInf x then
    ofSignMag (isNeg y) (if isInf y then (if isNeg x then threeQuarterPiMag else quarterPiMag)
      else (if isNeg x then piMag else 0))
  else if isZero x || isInf y then ofSignMag (isNeg y) halfPiMag
  else ofSignMag (isNeg y) (angleMag (isNeg x) (units y) (units x) (Config.atan2Upper y x))

/-- The alternating Taylor sums of sine and cosine in units of 2^-p: the next term is this one times
`x² / ((j+1)(j+2))`, `x` in units of 2^-p, rounded down. Returns `(sum of added terms, sum of subtracted terms)`. -/
def trigSum (x p : Nat) : Nat → Nat → Nat → Nat → Nat → Nat × Nat
  | 0, _, _, pos, neg => (pos, neg)
  | fuel + 1, j, t, pos, neg =>
    trigSum x p fuel (j + 2) ((t * x * x / ((j + 1) * (j + 2))) >>> (2 * p)) neg (pos + t)

/-- The sums of the series that starts at power `j` with term `t`: terms added and terms subtracted. An even number of
steps leaves the two sums in their places. -/
def trigSums (x p j t : Nat) : Nat × Nat := trigSum x p (2 * (p / 8 + 8)) j t 0 0

/-- An enclosure of `cos θ` or `sin θ`, for `θ = 2π t / 2^l` in `(0, π/2)`, in units of 2^-p, from the series at the lower end of an
enclosure of `θ`: the width of that enclosure and 3 units a term are added on both sides. -/
def trigEnc (cosine : Bool) (l t p : Nat) : Nat × Nat :=
  let x := (2 * t * (piEnc p).1) >>> l
  let width := ((2 * t * (piEnc p).2) >>> l) + 1 - x
  let sums := if cosine then trigSums x p 0 (1 <<< p) else trigSums x p 1 x
  let err := width + 6 * (p / 8 + 8) + 2
  (sums.1 - sums.2 - err, sums.1 - sums.2 + err)

/-- Magnitude bits of `RN` of the cosine or sine of `2π t / 2^l` for an angle strictly inside the first quadrant. -/
def trigMag (cosine : Bool) (l t : Nat) : Nat :=
  roundEnclosed (trigEnc cosine l t) (Config.twiddleUpper l t) 128 trigPlaces

/-- `TWC[t] = RN(cos(2π t / N))`, `N = 2^l`, `0 ≤ t < N/2` (42_fft.md R152). -/
def twc (l t : Nat) : F64 :=
  if t = 0 then one64
  else if 4 * t = 2 ^ l then 0
  else if 4 * t < 2 ^ l then ofSignMag false (trigMag true l t)
  else ofSignMag true (trigMag true l (2 ^ l / 2 - t))

/-- `TWS[t] = RN(sin(2π t / N))`, `N = 2^l`, `0 ≤ t < N/2` (42_fft.md R152). -/
def tws (l t : Nat) : F64 :=
  if t = 0 then 0
  else if 4 * t = 2 ^ l then one64
  else if 4 * t < 2 ^ l then ofSignMag false (trigMag false l t)
  else ofSignMag false (trigMag false l (2 ^ l / 2 - t))

end Sys2Proof.Machine
end

