-- ==== Sys2Proof/Machine/Cell.lean ====
section
/-! DEFINITION. The six cell commands (40_element_access.md R110-R116). -/

namespace Sys2Proof.Machine

/-- GET (R110): the stored patterns, unchanged. -/
def execGet (d x y : Nat) (s : State) : Host.Outcome State Fault Refusal :=
  perform (cellError s.build d x y) (readCellInto (cellOperand s.build d x y) setRes) s

/-- SET (R111): the latched operands, unchanged. -/
def execSet (d x y : Nat) (s : State) : Host.Outcome State Fault Refusal :=
  perform (cellError s.build d x y) (fun t => writeCell t (cellOperand s.build d x y) ⟨t.latOpa, t.latOpb⟩) s

/-- MAG2 (R112). -/
def execMag2 (d x y : Nat) (s : State) : Host.Outcome State Fault Refusal :=
  perform (cellError s.build d x y) (readCellInto (cellOperand s.build d x y) fun v => setRes0 (mag2 v)) s

/-- MAG (R113): the root of MAG2's value. -/
def execMag (d x y : Nat) (s : State) : Host.Outcome State Fault Refusal :=
  perform (cellError s.build d x y) (readCellInto (cellOperand s.build d x y) fun v => setRes0 (fsqrt (mag2 v))) s

/-- PHASE (R114): the imaginary part is the first argument. -/
def execPhase (d x y : Nat) (s : State) : Host.Outcome State Fault Refusal :=
  perform (cellError s.build d x y) (readCellInto (cellOperand s.build d x y) fun v => setRes0 (atan2 v.im v.re)) s

/-- ZERO_CELL (R115): `(+0, +0)`, without reading the cell. -/
def execZeroCell (d x y : Nat) (s : State) : Host.Outcome State Fault Refusal :=
  perform (cellError s.build d x y) (fun t => writeCell t (cellOperand s.build d x y) Cx.zero) s

end Sys2Proof.Machine
end

