-- ==== Sys2Proof/Machine/Fft.lean ====
section
/-! DEFINITION. FFT_FWD and FFT_INV (42_fft.md R152-R161). The one-dimensional algorithm is written once over any
arithmetic, so that the laws of section 4 can speak of it in exact arithmetic; the block runs it in binary64. -/

namespace Sys2Proof.Machine

/-- The arithmetic of a line transform: values `α`, twiddles `τ`. -/
structure LineArith (α τ : Type) where
  zero : α
  add : α → α → α
  sub : α → α → α
  mul : τ → α → α

/-- The butterfly (R156). -/
def bfly {α τ : Type} (A : LineArith α τ) (w : τ) (u b : α) : α × α :=
  let p := A.mul w b
  (A.add u p, A.sub u p)

/-- `rev_L(i)`: the `L`-bit binary representation reversed (R154). -/
def revBits : Nat → Nat → Nat
  | 0, _ => 0
  | l + 1, i => i % 2 * 2 ^ l + revBits l (i / 2)

/-- Input element `i` goes to position `rev_L(i)`, so position `p` holds element `rev_L(p)` (R154: the reversal is its own
inverse). -/
def bitReverse {α : Type} (z : α) (l : Nat) (v : List α) : List α :=
  (List.range (2 ^ l)).map fun p => v.getD (revBits l p) z

/-- The butterflies of one block of `2 * half` elements (R157): element `j` with element `j + half`, twiddle index
`j * stride`. -/
def bflyBlock {α τ : Type} (A : LineArith α τ) (w : Nat → τ) (half stride : Nat) (blk : List α) : List α :=
  let pairs := (List.range half).map fun j => bfly A (w (j * stride)) (blk.getD j A.zero) (blk.getD (j + half) A.zero)
  pairs.map Prod.fst ++ pairs.map Prod.snd

/-- Stage `t + 1` (R157): blocks of `m = 2^(t+1)` elements at `k = 0, m, 2m, ...`, stride `N/m`. -/
def fftStage {α τ : Type} (A : LineArith α τ) (w : Nat → τ) (l t : Nat) (a : List α) : List α :=
  (List.range (2 ^ (l - (t + 1)))).flatMap fun k =>
    bflyBlock A w (2 ^ t) (2 ^ (l - (t + 1))) ((a.drop (k * 2 ^ (t + 1))).take (2 ^ (t + 1)))

/-- The stages `1 .. L` in order on the bit-reversed line (R157), without the inverse's scaling. -/
def fftLine {α τ : Type} (A : LineArith α τ) (w : Nat → τ) (l : Nat) (v : List α) : List α :=
  (List.range l).foldl (fun a t => fftStage A w l t a) (bitReverse A.zero l v)

/-- Row `y` of a bank (R155). -/
def rowOf {α : Type} (z : α) (n : Nat) (g : List α) (y : Nat) : List α :=
  (List.range n).map fun j => g.getD (y * n + j) z

/-- Column `x` of a bank (R155). -/
def colOf {α : Type} (z : α) (n : Nat) (g : List α) (x : Nat) : List α :=
  (List.range n).map fun j => g.getD (j * n + x) z

/-- Every row through `f`, written back in place (R155). -/
def rowPass {α : Type} (z : α) (n : Nat) (f : List α → List α) (g : List α) : List α :=
  (List.range n).flatMap fun y => f (rowOf z n g y)

/-- Every column through `f`, written back in place (R155). -/
def colPass {α : Type} (z : α) (n : Nat) (f : List α → List α) (g : List α) : List α :=
  let cols := (List.range n).map fun x => f (colOf z n g x)
  (List.range n).flatMap fun y => (List.range n).map fun x => (cols.getD x []).getD y z

/-- The binary64 arithmetic of the block (R156, 00_scope.md R22). -/
def cxArith : LineArith Cx Cx where
  zero := Cx.zero
  add := cadd
  sub := csub
  mul := cmul

/-- `W(t, FWD)` (R153). -/
def twiddleFwd (l t : Nat) : Cx := ⟨twc l t, fneg (tws l t)⟩

/-- `W(t, INV)` (R153). -/
def twiddleInv (l t : Nat) : Cx := ⟨twc l t, tws l t⟩

/-- `FFT1D(v, FWD)` (R157). -/
def fft1dFwd (l : Nat) (v : List Cx) : List Cx := fftLine cxArith (twiddleFwd l) l v

/-- `FFT1D(v, INV)` (R157), each part of the result multiplied by `SCALE_L` once (R158). -/
def fft1dInv (l : Nat) (v : List Cx) : List Cx :=
  (fftLine cxArith (twiddleInv l) l v).map fun a => cscale a (scaleL l)

/-- The forward transform of a bank: every row, then every column (R160). -/
def fft2dFwd (l : Nat) (g : List Cx) : List Cx :=
  colPass Cx.zero (2 ^ l) (fft1dFwd l) (rowPass Cx.zero (2 ^ l) (fft1dFwd l) g)

/-- The inverse transform of a bank: every column, then every row (R161). -/
def fft2dInv (l : Nat) (g : List Cx) : List Cx :=
  rowPass Cx.zero (2 ^ l) (fft1dInv l) (colPass Cx.zero (2 ^ l) (fft1dInv l) g)

/-- FFT_FWD (R160). -/
def execFftFwd (d : Nat) (s : State) : Host.Outcome State Fault Refusal :=
  perform (gridError s.build d) (fun t => spoilScratch (rewriteBank d d (fft2dFwd s.build.log2n) t)) s

/-- FFT_INV (R161). -/
def execFftInv (d : Nat) (s : State) : Host.Outcome State Fault Refusal :=
  perform (gridError s.build d) (fun t => spoilScratch (rewriteBank d d (fft2dInv s.build.log2n) t)) s

end Sys2Proof.Machine
end

