-- ==== Sys2Proof/Machine/Reduction.lean ====
section
/-! DEFINITION. SCALE, COPY, SUMSQ and RENORM (41_grid_reduction.md R130-R139). -/

namespace Sys2Proof.Machine

/-- Every cell times a real factor (R130). -/
def scaleCells (f : F64) (vs : List Cx) : List Cx := vs.map fun v => cscale v f

/-- The sum of squared magnitudes, in ascending flat index with one rounded addition a cell (R135). -/
def sumSquares (vs : List Cx) : F64 := vs.foldl (fun acc v => fadd acc (mag2 v)) 0

/-- SCALE (R130). -/
def execScale (d : Nat) (s : State) : Host.Outcome State Fault Refusal :=
  perform (gridError s.build d) (rewriteBank d d (scaleCells s.latOpa)) s

/-- COPY (R132): bank `d` becomes bank `src`, bit for bit. -/
def execCopy (d src : Nat) (s : State) : Host.Outcome State Fault Refusal :=
  perform (copyError s.build d src) (rewriteBank d src id) s

/-- SUMSQ (R135). -/
def execSumsq (d : Nat) (s : State) : Host.Outcome State Fault Refusal :=
  perform (gridError s.build d) (fun t => noteRead (bankWritten t d) (setRes0 (sumSquares (bankBits t d)) t)) s

/-- RENORM's rule (R138): the sum goes to RES0; below the threshold a diagnostic, else every cell times `1 / nrm`. -/
def renormBank (d : Nat) (s : State) : State :=
  let sum := sumSquares (bankBits s d)
  let nrm := fsqrt sum
  let t := setRes0 sum s
  if flt nrm s.latEps then noteRead (bankWritten s d) { t with status := t.status.nearZero }
  else rewriteBank d d (scaleCells (fdiv one64 nrm)) t

/-- RENORM (R138). -/
def execRenorm (d : Nat) (s : State) : Host.Outcome State Fault Refusal :=
  perform (gridError s.build d) (renormBank d) s

end Sys2Proof.Machine
end

