-- ==== Sys2Proof/Machine/Dispatch.lean ====
section
/-! DEFINITION. One arm a command: the engine's completion step of a decoded command (30_encoding.md R97). -/

namespace Sys2Proof.Machine

def exec (i : Instr) (s : State) : Host.Outcome State Fault Refusal :=
  match i with
  | .get d x y => Sys2Proof.Machine.execGet d x y s
  | .set d x y => Sys2Proof.Machine.execSet d x y s
  | .mag2 d x y => Sys2Proof.Machine.execMag2 d x y s
  | .mag d x y => Sys2Proof.Machine.execMag d x y s
  | .phase d x y => Sys2Proof.Machine.execPhase d x y s
  | .zeroCell d x y => Sys2Proof.Machine.execZeroCell d x y s
  | .scale d => Sys2Proof.Machine.execScale d s
  | .copy d src => Sys2Proof.Machine.execCopy d src s
  | .sumsq d => Sys2Proof.Machine.execSumsq d s
  | .renorm d => Sys2Proof.Machine.execRenorm d s
  | .fftFwd d => Sys2Proof.Machine.execFftFwd d s
  | .fftInv d => Sys2Proof.Machine.execFftInv d s

end Sys2Proof.Machine
end

