-- ==== Sys2Proof/Machine/Engine.lean ====
section
/-! DEFINITION. The engine's turn (10_state.md R30, 30_encoding.md R97) and the turn of whatever the schedule names next. -/

namespace Sys2Proof.Machine

/-- The error of a word that the decoder rejects (60_exceptions.md R183, R184). A word of CMD is always 8 bytes long. -/
def decodeErrCode : DecodeError → ErrCode
  | .badOp => .badOp
  | .rsvd => .rsvd
  | .badLength => .badOp

/-- The engine's step (10_state.md R30): enabled while BUSY = 1 and reset is not asserted; it decodes the word in CMD and
performs it, or ends it with its error (30_encoding.md R97). Not enabled, it changes nothing (60_exceptions.md R197). -/
def engineStep (s : State) : Host.Outcome State Fault Refusal :=
  if s.resetPin || !s.status.busy then .next s
  else
    match decode s.cmd with
    | .ok i => exec i s
    | .error e => .next (raiseError (decodeErrCode e) s)

/-- One event (10_state.md R30). -/
def eventStep (e : Event) (s : State) : Host.Outcome State Fault Refusal :=
  match e with
  | .hostRead addr width => .next (hostRead addr width s)
  | .hostWrite addr data => .next (hostWrite addr data s)
  | .engine => engineStep s
  | .resetAssert => .next (hardReset s)
  | .resetDeassert => .next (releaseReset s)

/-- The next event of the schedule; with none left, the engine has the turn (log entry 7). A configuration that is not legal
has no run (00_scope.md R6, R7). -/
def nextTurn (s : State) : Host.Outcome State Fault Refusal :=
  if s.build.wf then
    match s.events with
    | [] => engineStep s
    | e :: es => eventStep e { s with events := es }
  else .refused .illFormedConfig

/-- `s` with the command word `w` pending, as an accepted CMD write leaves it (10_state.md R40), and the engine's turn next
(log entry 11). -/
def placeCommand (s : State) (w : Word) : State :=
  { s with
    cmd := w, latOpa := s.opa, latOpb := s.opb, latEps := s.renormEps, status := s.status.accept
    resetPin := false, events := .engine :: s.events }

end Sys2Proof.Machine
end

