-- ==== Sys2Proof/Safety.lean ====
section
/-! DEFINITION. The terms claims are made in: a clean run, the end of a run and what is observed there
(70_reset_and_hazards.md R221), the invariant of the state, the check order of a command word in the spec's own masks
(60_exceptions.md R186), and the two laws with a tolerance (41_grid_reduction.md R140, 42_fft.md R165). -/

namespace Sys2Proof.Safety

open Sys2Proof.Machine

/-- A claim about a run takes an empty fault log as premise (10_state.md R53). -/
def clean (s : State) : Bool := s.faultlog.isEmpty

/-- A step of the host program: a read or a write, not an engine turn and not a change of the reset input (10_state.md R30). -/
def isHostStep : Event → Bool
  | .hostRead _ _ => true
  | .hostWrite _ _ => true
  | .engine => false
  | .resetAssert => false
  | .resetDeassert => false

/-- A run has ended (70_reset_and_hazards.md R221): no step of the host program is left and no command is pending, whatever else is
still to come. The run ends in the first such state, and that is the state observed. -/
def ended (s : State) : Bool := !s.events.any isHostStep && !s.status.busy

/-- The registers a host can read, in the order of the map (10_state.md R33). -/
def registers (s : State) : List Word :=
  [Reg.id, .config, .ctrl, .status, .cmd, .opa, .opb, .res0, .res1, .renormEps, .irqEn].map (regValue s)

/-- The contents of a bank as later GETs would return them; an unwritten cell has none (70_reset_and_hazards.md R221). -/
def bankContents (s : State) (d : Nat) : List (Option Cx) :=
  (List.range s.build.cells).map fun i => gridRead s.grid (cellAddr d i)

/-- The observation at the end of a run (70_reset_and_hazards.md R221). -/
def observation (s : State) : List Word × List (List (Option Cx)) :=
  (registers s, (List.range s.build.nbanks).map (bankContents s))

/-- Every listed address is a cell of a bank the block has (10_state.md R43). -/
def inBanks (b : Build) (m : Memory) : Bool :=
  m.all fun e => decide (e.1 / bankStride < b.nbanks) && decide (e.1 % bankStride < b.cells)

/-- STATUS as the rules leave it (10_state.md R38, R40, R54): the codes are 0 exactly while their flags are, a reported
error code is one of the four (60_exceptions.md R180) and a diagnostic code is W_NEARZERO (R185); BUSY excludes DONE and
ERR, since acceptance clears DONE and needs ERR = 0. -/
def statusInv (t : Status) : Bool :=
  (if t.err then decide (1 ≤ t.errCode.toNat) && decide (t.errCode.toNat ≤ 4) else t.errCode == 0)
    && (if t.warn then t.warnCode == wNearZero else t.warnCode == 0)
    && !(t.busy && t.done) && !(t.busy && t.err)

/-- The invariant of the state: a legal build, a canonical grid store within the banks, one line of scratch, STATUS as the
rules leave it, and no command pending while reset is asserted. -/
def Inv (s : State) : Prop :=
  s.build.wf = true ∧ Memory.wf s.grid = true ∧ inBanks s.build s.grid = true ∧ s.scratch.length = s.build.n ∧
    statusInv s.status = true ∧ (s.resetPin = true → s.status = Status.zero)

/-- The opcodes of format C (30_encoding.md R98). -/
def opsC : List Nat := [0x01, 0x02, 0x03, 0x04, 0x05, 0x06]

/-- The opcodes of format G (30_encoding.md R98). -/
def opsG : List Nat := [0x10, 0x12, 0x13, 0x20, 0x21]

/-- The opcode of format K (30_encoding.md R98). -/
def opsK : List Nat := [0x11]

/-- The reserved-bit mask of a legal opcode's format (30_encoding.md R93-R95, 60_exceptions.md R184). -/
def reservedMask (op : Nat) : Word :=
  if op ∈ opsC then 0xFFFF00000000F000 else if op ∈ opsG then 0xFFFFFFFFFFFFF000 else 0xFFFFFFFFFFFF0000

/-- The check order of a command word (60_exceptions.md R186) in the words of R182-R184. -/
def wordError (b : Build) (w : Word) : Option ErrCode :=
  let op := w.toNat % 256
  if op ∉ opsC ++ opsG ++ opsK then some .badOp
  else if w &&& reservedMask op ≠ 0 then some .rsvd
  else if b.nbanks ≤ (w.extractLsb' 8 4).toNat ∨ (op ∈ opsK ∧ b.nbanks ≤ (w.extractLsb' 12 4).toNat) then some .bank
  else if op ∈ opsC ∧ (b.n ≤ (w.extractLsb' 16 16).toNat ∨ b.n ≤ (w.extractLsb' 32 16).toNat) then some .range
  else none

/-- A value within `tol` of 1.0, in exact arithmetic (41_grid_reduction.md R140). -/
def withinOfOne (tol : Nat × Nat) (v : F64) : Bool :=
  isFinite v && !isNeg v && decide ((sunits v - (oneUnits : Int)).natAbs * tol.2 ≤ oneUnits * tol.1)

/-- The normalisation law R140 at a state: bank `d`, just renormalised, has a sum of squared magnitudes within TOL_NORM
of 1.0. The spec gives it as a property to check, with an unaudited tolerance. -/
def normalised (s : State) (d : Nat) : Bool := withinOfOne Config.tolNorm (sumSquares (bankBits s d))

/-- Two finite values less than `tol` apart, in exact arithmetic. -/
def closeTo (tol : Nat × Nat) (a b : F64) : Bool :=
  isFinite a && isFinite b && decide ((sunits a - sunits b).natAbs * tol.2 < oneUnits * tol.1)

/-- The round-trip law R165 on the cells of a bank of side `2^l`. The spec gives it as a property to check, with an unaudited
tolerance. -/
def roundTrips (l : Nat) (g : List Cx) : Bool :=
  ((fft2dInv l (fft2dFwd l g)).zip g).all fun p => closeTo Config.tolFft p.1.re p.2.re && closeTo Config.tolFft p.1.im p.2.im

end Sys2Proof.Safety
end

