-- ==== Sys2Proof/Certificates/Slice0/Obligations.lean ====
section
/-! DEFINITION. The statements about the model. Each names the rule of spec/ it formalises; `{ s with ... }` on the right of an
equation says that every other field of the state, and so every register, flag and cell not named, is unchanged. -/

open Sys2Proof Sys2Proof.Machine Sys2Proof.Safety

/-! ## Encoding -/

/-- 30_encoding.md R91-R98: the decoder inverts the encoder on every encodable command. -/
def Obligations.DecodeInvertsEncode : Prop :=
  ∀ i : Instr, i.wf = true → decode (encode i) = .ok i

/-- 30_encoding.md R91-R99: a word that decodes is the encoding of what it decodes to, so no bit of it is dropped. -/
def Obligations.EncodeInvertsDecode : Prop :=
  ∀ (w : Word) (i : Instr), decode w = .ok i → i.wf = true ∧ encode i = w

/-- 60_exceptions.md R183, R184: which words are rejected, and as what, in the spec's own masks. -/
def Obligations.RejectedWords : Prop :=
  ∀ w : Word,
    (decode w = .error .badOp ↔
      w.toNat % 256 ∉ [0x01, 0x02, 0x03, 0x04, 0x05, 0x06, 0x10, 0x11, 0x12, 0x13, 0x20, 0x21]) ∧
    (decode w = .error .rsvd ↔
      (w.toNat % 256 ∈ [0x01, 0x02, 0x03, 0x04, 0x05, 0x06] ∧ w &&& 0xFFFF00000000F000 ≠ 0) ∨
      (w.toNat % 256 ∈ [0x10, 0x12, 0x13, 0x20, 0x21] ∧ w &&& 0xFFFFFFFFFFFFF000 ≠ 0) ∨
      (w.toNat % 256 = 0x11 ∧ w &&& 0xFFFFFFFFFFFF0000 ≠ 0))

/-- 95_test_vectors.md 2.1: words of every family written out bit by bit decode to the commands they stand for. -/
def Obligations.SpecWordsDecode : Prop :=
  decode 0x0000000000010001 = .ok (.get 0 1 0) ∧ decode 0x0000000500030002 = .ok (.set 0 3 5) ∧
  decode 0x0000000700040203 = .ok (.mag2 2 4 7) ∧ decode 0x0000000000000304 = .ok (.mag 3 0 0) ∧
  decode 0x00000000FFFF0005 = .ok (.phase 0 0xFFFF 0) ∧ decode 0x0000000100070206 = .ok (.zeroCell 2 7 1) ∧
  decode 0x0000000000000110 = .ok (.scale 1) ∧ decode 0x0000000000003011 = .ok (.copy 0 3) ∧
  decode 0x0000000000000212 = .ok (.sumsq 2) ∧ decode 0x0000000000000013 = .ok (.renorm 0) ∧
  decode 0x0000000000000320 = .ok (.fftFwd 3) ∧ decode 0x0000000000000021 = .ok (.fftInv 0)

/-! ## The step -/

/-- 10_state.md R30, 30_encoding.md R97: the engine's turn on a pending command is `exec` of the decoded command, whether the
schedule names the engine or is empty (log entry 7). -/
def Obligations.StepPerformsDecodedCommand : Prop :=
  ∀ (s : State) (es : List Event) (i : Instr),
    s.build.wf = true → s.resetPin = false → s.status.busy = true → decode s.cmd = .ok i →
    step { s with events := .engine :: es } = exec i { s with events := es } ∧
    step { s with events := [] } = exec i { s with events := [] }

/-- Log entry 11: a placed word is performed by the very next step, from the state an accepted CMD write leaves
(10_state.md R40). -/
def Obligations.PlacedWordRunsNext : Prop :=
  ∀ (s : State) (nbits w : Nat) (i : Instr),
    s.build.wf = true → decode (BitVec.ofNat 64 (w % 2 ^ nbits)) = .ok i →
    step (s.withFetchWord nbits w) = exec i { s with
      cmd := BitVec.ofNat 64 (w % 2 ^ nbits), latOpa := s.opa, latOpb := s.opb, latEps := s.renormEps
      status := { s.status with busy := true, done := false }, resetPin := false }

/-- 10_state.md R30, 60_exceptions.md R197, 70_reset_and_hazards.md R210: an engine that is idle or held in reset changes nothing,
on its turn or, as the model chooses (log entry 7), with an empty schedule; and, as the model reads 00_scope.md R6, R7 and
20_memory.md R77 (log entry 17), a configuration that is not legal, a misaligned BASE among them, has no step. -/
def Obligations.StepWhenNotEnabled : Prop :=
  (∀ (s : State) (es : List Event), s.build.wf = true → (s.status.busy = false ∨ s.resetPin = true) →
    step { s with events := .engine :: es } = .next { s with events := es } ∧
    step { s with events := [] } = .next { s with events := [] }) ∧
  (∀ s : State, s.build.wf = false ↔ step s = .refused .illFormedConfig)

/-- 60_exceptions.md R181-R184, R186: the engine's turn on a word that the check order selects an error for has exactly the
effect of that error; a word with none is performed. That it then completes, also where it reads an unwritten cell, is the
model's reading (log entry 2). -/
def Obligations.CheckOrderSelectsError : Prop :=
  ∀ s : State, s.build.wf = true → s.resetPin = false → s.status.busy = true →
    (∀ c, wordError s.build s.cmd = some c →
      engineStep s = .next { s with
        status := { s.status with err := true, errCode := c.code, busy := false, done := true }
        faultlog := s.faultlog ++ [.error c] }) ∧
    (wordError s.build s.cmd = none →
      ∃ i t, decode s.cmd = .ok i ∧ engineStep s = .next t ∧ exec i s = .next t ∧ t.status.err = s.status.err ∧
        t.status.errCode = s.status.errCode ∧ ∀ c, LogEntry.error c ∉ t.faultlog.drop s.faultlog.length)

/-- 10_state.md R53: no step removes an entry of the fault log; and no step changes the build (R37). -/
def Obligations.FaultLogOnlyGrows : Prop :=
  ∀ s t : State, step s = .next t → s.faultlog <+: t.faultlog ∧ t.build = s.build

/-- The invariant of Safety.lean holds at reset, for every legal build. The build and the scratch of the reset state, and the form
of the grid store, are the model's choices (log entries 1, 4, 6). -/
def Obligations.InvAtReset : Prop :=
  Inv State.reset ∧ ∀ b : Build, b.wf = true → Inv (State.resetOf b)

/-- Every step keeps the invariant of Safety.lean, from every state that has it: 10_state.md R38, R40, R43, R52, R54,
60_exceptions.md R180, R185, 70_reset_and_hazards.md R210. That the grid store is a canonical list within the banks is about the
model's form of it (log entry 1), and that STATUS is 0 as soon as reset is asserted is the model's reading (log entry 10). -/
def Obligations.StepKeepsInv : Prop :=
  ∀ s t : State, Inv s → step s = .next t → Inv t

/-! ## Reset -/

/-- 10_state.md R55: the state right after a hard reset, as the host reads it, for every build; the latches, the scratch and the
build of `State.reset` are the model's choices (log entries 4, 5, 6) and are not stated. -/
def Obligations.ResetValues : Prop :=
  ∀ b : Build,
    registers (State.resetOf b) =
      [0x0000000132544646, configWord b, 0, 0, 0, 0, 0, 0, 0, 0x3DDB7CDFD9D7BDBB, 0] ∧
    irq (State.resetOf b) = false ∧ (State.resetOf b).status = Status.zero ∧
    (∀ a, gridRead (State.resetOf b).grid a = none) ∧ (State.resetOf b).faultlog = [] ∧
    (∀ s : State, (hardReset s).faultlog = s.faultlog ∧ (softReset s).faultlog = s.faultlog)

/-- 70_reset_and_hazards.md R210: assertion of reset gives every register its reset value and clears every written flag,
keeping the fault log; while it is asserted accesses have no effect, reads return 0 and the engine does not step; deassertion
changes nothing else. The width of the zeros, and that the values are taken at assertion, are the model's readings (log entries 9,
10). -/
def Obligations.HardReset : Prop :=
  ∀ (s : State) (es : List Event), s.build.wf = true →
    (∃ t, step { s with events := .resetAssert :: es } = .next t ∧ t.resetPin = true ∧ t.events = es ∧
      registers t = registers (State.resetOf s.build) ∧ t.build = s.build ∧ t.faultlog = s.faultlog ∧
      (∀ a, gridRead t.grid a = none) ∧ irq t = false ∧ t.status.busy = false) ∧
    (s.resetPin = true →
      (∀ addr width off, offsetOf s.build addr = some off →
        step { s with events := .hostRead addr width :: es } =
          .next { s with events := es, resp := .data (List.replicate width 0) }) ∧
      (∀ addr data off, offsetOf s.build addr = some off →
        step { s with events := .hostWrite addr data :: es } = .next { s with events := es, resp := .done }) ∧
      step { s with events := .engine :: es } = .next { s with events := es } ∧
      step { s with events := .resetDeassert :: es } = .next { s with events := es, resetPin := false })

/-- 70_reset_and_hazards.md R211, 10_state.md R48: a write to CTRL with bit 0 set resets every host-visible register, changes
no build and no fault log, and changes the grid by the abort of R212 alone (AbortUnwritesTargets says what that unwrites),
so not at all with no command pending; with bit 0 clear it does nothing. -/
def Obligations.SoftReset : Prop :=
  ∀ (s : State) (v : Word) (es : List Event), s.build.wf = true → s.resetPin = false →
    (v.getLsbD 0 = true → ∃ t, step { s with events := Event.wr s.build .ctrl v :: es } = .next t ∧
      registers t = registers (State.resetOf s.build) ∧ t.build = s.build ∧ t.faultlog = s.faultlog ∧
      t.events = es ∧ t.resp = .done ∧ t.resetPin = false ∧ t.grid = (softReset s).grid ∧
      (s.status.busy = false → t.grid = s.grid)) ∧
    (v.getLsbD 0 = false →
      step { s with events := Event.wr s.build .ctrl v :: es } = .next { s with events := es, resp := .done })

/-- 70_reset_and_hazards.md R212: what the abort of a pending command unwrites. SoftReset says that the step of the CTRL write
leaves this grid. -/
def Obligations.AbortUnwritesTargets : Prop :=
  ∀ s : State, s.build.wf = true → s.status.busy = true →
    (∀ d x y, decode s.cmd = .ok (.set d x y) ∨ decode s.cmd = .ok (.zeroCell d x y) →
      d < s.build.nbanks → x < s.build.n → y < s.build.n →
      ∀ a, gridRead (softReset s).grid a =
        if a = cellAddr d (y * s.build.n + x) then none else gridRead s.grid a) ∧
    (∀ d src, decode s.cmd = .ok (.scale d) ∨ decode s.cmd = .ok (.renorm d) ∨ decode s.cmd = .ok (.fftFwd d) ∨
        decode s.cmd = .ok (.fftInv d) ∨ (decode s.cmd = .ok (.copy d src) ∧ src < s.build.nbanks) →
      d < s.build.nbanks →
      ∀ e i, i < 2 ^ 30 →
        gridRead (softReset s).grid (cellAddr e i) = if e = d then none else gridRead s.grid (cellAddr e i)) ∧
    (∀ c, wordError s.build s.cmd = some c → (softReset s).grid = s.grid) ∧
    (∀ d x y, decode s.cmd = .ok (.get d x y) ∨ decode s.cmd = .ok (.mag2 d x y) ∨ decode s.cmd = .ok (.mag d x y) ∨
        decode s.cmd = .ok (.phase d x y) ∨ decode s.cmd = .ok (.sumsq d) →
      ∀ a, gridRead (softReset s).grid a = gridRead s.grid a)

/-! ## Registers and the bus -/

/-- 10_state.md R38: STATUS as the host reads it, bit by bit. -/
def Obligations.StatusWordBits : Prop :=
  ∀ s : State,
    let w := regValue s .status
    w.getLsbD 0 = s.status.busy ∧ w.getLsbD 1 = s.status.done ∧ w.getLsbD 2 = s.status.err ∧
    w.getLsbD 3 = s.status.warn ∧ w.getLsbD 4 = s.status.ovr ∧ w.extractLsb' 5 3 = 0 ∧
    w.extractLsb' 8 8 = s.status.errCode ∧ w.extractLsb' 16 8 = s.status.warnCode ∧ w.extractLsb' 24 40 = 0

/-- 10_state.md R39: a host write of `v` to STATUS, at any time; its bit 2 is the return from an error (60_exceptions.md R189). -/
def Obligations.StatusWriteClearsOnes : Prop :=
  ∀ (s : State) (v : Word) (es : List Event), s.build.wf = true → s.resetPin = false →
    step { s with events := Event.wr s.build .status v :: es } = .next { s with
      events := es, resp := .done
      status := {
        busy := s.status.busy
        done := if v.getLsbD 1 then false else s.status.done
        err := if v.getLsbD 2 then false else s.status.err
        errCode := if v.getLsbD 2 then 0 else s.status.errCode
        warn := if v.getLsbD 3 then false else s.status.warn
        warnCode := if v.getLsbD 3 then 0 else s.status.warnCode
        ovr := if v.getLsbD 4 then false else s.status.ovr } }

/-- 10_state.md R40: a CMD write is accepted with BUSY = 0 and ERR = 0, whatever the word, and reads back; else it is dropped. -/
def Obligations.CmdWriteAcceptedOrDropped : Prop :=
  ∀ (s : State) (w : Word) (es : List Event), s.build.wf = true → s.resetPin = false →
    (s.status.busy = false → s.status.err = false →
      ∃ t, step { s with events := Event.wr s.build .cmd w :: es } = .next t ∧ regValue t .cmd = w ∧
        t = { s with
          events := es, resp := .done, cmd := w, latOpa := s.opa, latOpb := s.opb, latEps := s.renormEps
          status := { s.status with busy := true, done := false } }) ∧
    (s.status.busy = true ∨ s.status.err = true →
      step { s with events := Event.wr s.build .cmd w :: es } =
        .next { s with events := es, resp := .done, status := { s.status with ovr := true } })

/-- 10_state.md R34, R35, R46: OPA, OPB and RENORM_EPS store every value unchanged and at any time, and read it back. -/
def Obligations.OperandRegistersReadBack : Prop :=
  ∀ (s : State) (v : Word) (es : List Event), s.build.wf = true → s.resetPin = false →
    step { s with events := Event.wr s.build .opa v :: es } = .next { s with events := es, resp := .done, opa := v } ∧
    step { s with events := Event.wr s.build .opb v :: es } = .next { s with events := es, resp := .done, opb := v } ∧
    step { s with events := Event.wr s.build .renormEps v :: es } =
      .next { s with events := es, resp := .done, renormEps := v } ∧
    regValue { s with opa := v } .opa = v ∧ regValue { s with opb := v } .opb = v ∧
    regValue { s with renormEps := v } .renormEps = v

/-- 10_state.md R47: IRQ_EN keeps bits [3:0] of what is written and reads the others 0; it is 0 at reset. -/
def Obligations.IrqEnKeepsFourBits : Prop :=
  (∀ (s : State) (v : Word) (es : List Event), s.build.wf = true → s.resetPin = false →
    ∃ t, step { s with events := Event.wr s.build .irqEn v :: es } = .next t ∧
      t = { s with events := es, resp := .done, irqEn := t.irqEn } ∧ regValue t .irqEn = v &&& 0xF) ∧
  ∀ b : Build, regValue (State.resetOf b) .irqEn = 0

/-- 10_state.md R49: the interrupt output, from STATUS and IRQ_EN as the host reads them. -/
def Obligations.IrqFromStatusAndEnables : Prop :=
  ∀ s : State,
    irq s = (((regValue s .status).getLsbD 1 && (regValue s .irqEn).getLsbD 0) ||
      ((regValue s .status).getLsbD 2 && (regValue s .irqEn).getLsbD 1) ||
      ((regValue s .status).getLsbD 3 && (regValue s .irqEn).getLsbD 2) ||
      ((regValue s .status).getLsbD 4 && (regValue s .irqEn).getLsbD 3))

/-- 10_state.md R36, R37: the hardwired registers, in every state; the fields of CONFIG. -/
def Obligations.HardwiredRegisters : Prop :=
  ∀ s : State, s.build.wf = true →
    regValue s .id = 0x0000000132544646 ∧
    ((regValue s .config).extractLsb' 0 4).toNat = s.build.log2n ∧ (regValue s .config).extractLsb' 4 4 = 0 ∧
    ((regValue s .config).extractLsb' 8 5).toNat = s.build.nbanks ∧ (regValue s .config).extractLsb' 13 51 = 0 ∧
    s.build.n = 1 <<< ((regValue s .config).extractLsb' 0 4).toNat

/-- 20_memory.md R74: reserved offsets and fields read 0 and ignore writes, CTRL reads 0, read-only registers ignore writes. -/
def Obligations.ReservedReadZeroIgnoreWrites : Prop :=
  ∀ (s : State) (v : Word),
    (∀ off, off ≤ 0xF8 → off % 8 = 0 → 0x58 ≤ off → readOffset s off = 0 ∧ writeOffset s off v = s) ∧
    readOffset s 0x10 = 0 ∧
    (∀ off ∈ [0x00, 0x08, 0x38, 0x40], writeOffset s off v = s) ∧
    (readOffset s 0x18).extractLsb' 5 3 = 0 ∧ (readOffset s 0x18).extractLsb' 24 40 = 0 ∧
    (readOffset s 0x08).extractLsb' 4 4 = 0 ∧ (readOffset s 0x08).extractLsb' 13 51 = 0 ∧
    (readOffset s 0x50).extractLsb' 4 60 = 0 ∧
    writeOffset s 0x18 v = writeOffset s 0x18 (v &&& 0x1E) ∧
    writeOffset s 0x50 v = writeOffset s 0x50 (v &&& 0xF) ∧
    writeOffset s 0x10 v = writeOffset s 0x10 (v &&& 0x1) ∧
    (v.getLsbD 0 = false → writeOffset s 0x10 v = s)

/-- 20_memory.md R72: any access but 8 bytes at a multiple of 8 is a bus error, recorded in the fault log, and changes nothing
else. -/
def Obligations.IllegalAccessIsBusError : Prop :=
  ∀ (s : State) (addr : BitVec 64) (off : Nat) (es : List Event),
    s.build.wf = true → s.resetPin = false → offsetOf s.build addr = some off →
    (∀ width, ¬ (width = 8 ∧ off % 8 = 0) →
      step { s with events := .hostRead addr width :: es } =
        .next { s with events := es, resp := .busError, faultlog := s.faultlog ++ [.busError] }) ∧
    (∀ data : List Byte, ¬ (data.length = 8 ∧ off % 8 = 0) →
      step { s with events := .hostWrite addr data :: es } =
        .next { s with events := es, resp := .busError, faultlog := s.faultlog ++ [.busError] })

/-- 20_memory.md R73, R75, R76: a legal read returns the eight bytes of one register, byte `k` its bits `[8k+7:8k]`, and changes
no state of the block; a legal write of eight bytes stores the value with those bytes. 10_state.md R33: which register lies at each
offset, for reads and for writes. R41 (and R34, R35, R40, R46, R47): a data register reads as what State holds of it. R77: the 256
offsets are the 256 addresses from BASE on. That an access at another address changes nothing and how it is answered is the model's
reading, log entry 8. -/
def Obligations.BusIsLittleEndian : Prop :=
  (∀ (s : State) (addr : BitVec 64) (off : Nat) (es : List Event),
    s.build.wf = true → s.resetPin = false → offsetOf s.build addr = some off → off % 8 = 0 →
    (∃ bs : List Byte, step { s with events := .hostRead addr 8 :: es } = .next { s with events := es, resp := .data bs } ∧
      bs.length = 8 ∧ ∀ k, k < 8 → bs[k]? = some ((readOffset s off).extractLsb' (8 * k) 8)) ∧
    (∀ data : List Byte, data.length = 8 →
      ∃ v : Word, (∀ k, k < 8 → data[k]? = some (v.extractLsb' (8 * k) 8)) ∧
        step { s with events := .hostWrite addr data :: es } =
          .next { writeOffset { s with events := es } off v with resp := .done })) ∧
  (∀ (s : State) (v : Word), ∀ p ∈ [(0x00, Reg.id), (0x08, .config), (0x10, .ctrl), (0x18, .status), (0x20, .cmd), (0x28, .opa),
      (0x30, .opb), (0x38, .res0), (0x40, .res1), (0x48, .renormEps), (0x50, .irqEn)],
    readOffset s p.1 = regValue s p.2 ∧ writeOffset s p.1 v = writeReg s v p.2 ∧ p.2.offset = p.1) ∧
  (∀ s : State, regValue s .res0 = s.res0 ∧ regValue s .res1 = s.res1 ∧ regValue s .cmd = s.cmd ∧ regValue s .opa = s.opa ∧
    regValue s .opb = s.opb ∧ regValue s .renormEps = s.renormEps ∧ regValue s .irqEn = s.irqEn.setWidth 64) ∧
  (∀ (b : Build) (addr : BitVec 64) (off : Nat), b.wf = true →
    (offsetOf b addr = some off ↔ off < 256 ∧ addr.toNat = b.base.toNat + off)) ∧
  ∀ (s : State) (addr : BitVec 64) (es : List Event), s.build.wf = true →
    (addr.toNat < s.build.base.toNat ∨ s.build.base.toNat + 256 ≤ addr.toNat) →
    (∀ width, step { s with events := .hostRead addr width :: es } = .next { s with events := es, resp := .notSelected }) ∧
    ∀ data : List Byte,
      step { s with events := .hostWrite addr data :: es } = .next { s with events := es, resp := .notSelected }

/-- 10_state.md R50: every command reads its operands from the latches, so what OPA, OPB and RENORM_EPS hold when it is performed
changes nothing but themselves. -/
def Obligations.OperandsComeFromLatches : Prop :=
  ∀ (i : Instr) (s : State) (a b e : F64),
    exec i { s with opa := a, opb := b, renormEps := e } =
      match exec i s with
      | .next t => .next { t with opa := a, opb := b, renormEps := e }
      | .fault r => .fault r
      | .refused r => .refused r

/-! ## Cell commands -/

/-- 40_element_access.md R110: GET returns the stored patterns and changes nothing else. -/
def Obligations.GetReturnsCell : Prop :=
  ∀ (s : State) (d x y : Nat) (v : Cx), d < s.build.nbanks → x < s.build.n → y < s.build.n →
    gridRead s.grid (cellAddr d (y * s.build.n + x)) = some v →
    exec (.get d x y) s = .next { s with
      res0 := v.re, res1 := v.im, status := { s.status with busy := false, done := true } }

/-- 40_element_access.md R111: SET stores the latched operands in its cell, written or not before, and nothing else changes. -/
def Obligations.SetStoresLatches : Prop :=
  ∀ (s : State) (d x y : Nat), d < s.build.nbanks → x < s.build.n → y < s.build.n →
    ∃ t, exec (.set d x y) s = .next t ∧
      t = { s with grid := t.grid, status := { s.status with busy := false, done := true } } ∧
      gridRead t.grid (cellOperand s.build d x y) = some ⟨s.latOpa, s.latOpb⟩ ∧
      ∀ a, a ≠ cellOperand s.build d x y → gridRead t.grid a = gridRead s.grid a

/-- 40_element_access.md R115: ZERO_CELL stores `(+0, +0)` in its cell, written or not before, and nothing else changes. -/
def Obligations.ZeroCellStoresZero : Prop :=
  ∀ (s : State) (d x y : Nat), d < s.build.nbanks → x < s.build.n → y < s.build.n →
    ∃ t, exec (.zeroCell d x y) s = .next t ∧
      t = { s with grid := t.grid, status := { s.status with busy := false, done := true } } ∧
      gridRead t.grid (cellOperand s.build d x y) = some ⟨0x0000000000000000, 0x0000000000000000⟩ ∧
      ∀ a, a ≠ cellOperand s.build d x y → gridRead t.grid a = gridRead s.grid a

/-- 40_element_access.md R112, R113, R114: the results of MAG2, MAG and PHASE, in RES0 alone. -/
def Obligations.MagnitudeAndPhaseResults : Prop :=
  ∀ (s : State) (d x y : Nat) (v : Cx), d < s.build.nbanks → x < s.build.n → y < s.build.n →
    gridRead s.grid (cellAddr d (y * s.build.n + x)) = some v →
    exec (.mag2 d x y) s = .next { s with
      res0 := fadd (fmul v.re v.re) (fmul v.im v.im), status := { s.status with busy := false, done := true } } ∧
    exec (.mag d x y) s = .next { s with
      res0 := fsqrt (fadd (fmul v.re v.re) (fmul v.im v.im))
      status := { s.status with busy := false, done := true } } ∧
    exec (.phase d x y) s = .next { s with
      res0 := atan2 v.im v.re, status := { s.status with busy := false, done := true } }

/-- 10_state.md R45, 70_reset_and_hazards.md R218: reading an unwritten cell raises no error; the command completes with some
value, and the fault log has UNINIT_READ. That it goes on is the model's reading (log entry 2). -/
def Obligations.UnwrittenCellIsLogged : Prop :=
  ∀ (s : State) (d x y : Nat), d < s.build.nbanks → x < s.build.n → y < s.build.n →
    gridRead s.grid (cellOperand s.build d x y) = none →
    ∀ i ∈ [Instr.get d x y, .mag2 d x y, .mag d x y, .phase d x y],
      ∃ t, exec i s = .next t ∧
        t = { s with
          res0 := t.res0, res1 := t.res1, freeCtr := t.freeCtr
          status := { s.status with busy := false, done := true }
          faultlog := s.faultlog ++ [.uninitRead] } ∧
        (i ≠ .get d x y → t.res1 = s.res1)

/-- 40_element_access.md R116, 20_memory.md R71: a cell command, however it ends, writes at most its cell (and only SET and
ZERO_CELL write it) and the registers its rule names. The free-value counter is the model's own (log entry 2). -/
def Obligations.CellCommandsFrame : Prop :=
  ∀ (s t : State) (d x y : Nat),
    ∀ i ∈ [Instr.get d x y, .set d x y, .mag2 d x y, .mag d x y, .phase d x y, .zeroCell d x y],
      exec i s = .next t →
      t = { s with
        res0 := t.res0, res1 := t.res1, grid := t.grid, status := t.status, faultlog := t.faultlog
        freeCtr := t.freeCtr } ∧
      t.status = { s.status with busy := false, done := true, err := t.status.err, errCode := t.status.errCode } ∧
      (∀ a, a ≠ cellOperand s.build d x y → gridRead t.grid a = gridRead s.grid a) ∧
      (i ≠ .set d x y → i ≠ .zeroCell d x y → t.grid = s.grid) ∧
      (i ≠ .get d x y → t.res1 = s.res1) ∧
      (i = .set d x y ∨ i = .zeroCell d x y → t.res0 = s.res0)

/-! ## Whole-grid commands -/

/-- 41_grid_reduction.md R130: SCALE multiplies both parts of every cell of its bank by the latched factor, each product rounded,
and nothing else changes. -/
def Obligations.ScaleMultipliesEveryCell : Prop :=
  ∀ (s : State) (d : Nat) (v : Nat → Cx), s.build.wf = true → d < s.build.nbanks →
    (∀ i, i < s.build.cells → gridRead s.grid (cellAddr d i) = some (v i)) →
    ∃ t, exec (.scale d) s = .next t ∧
      t = { s with grid := t.grid, status := { s.status with busy := false, done := true } } ∧
      (∀ i, i < s.build.cells →
        gridRead t.grid (cellAddr d i) = some ⟨fmul (v i).re s.latOpa, fmul (v i).im s.latOpa⟩) ∧
      ∀ a, a < cellAddr d 0 ∨ cellAddr d s.build.cells ≤ a → gridRead t.grid a = gridRead s.grid a

/-- 41_grid_reduction.md R132: COPY makes its destination bank bit-identical to its source, written or not before; nothing else
changes, and copying a bank into itself changes no cell. -/
def Obligations.CopyCopiesEveryCell : Prop :=
  ∀ (s : State) (d src : Nat) (v : Nat → Cx), s.build.wf = true → d < s.build.nbanks → src < s.build.nbanks →
    (∀ i, i < s.build.cells → gridRead s.grid (cellAddr src i) = some (v i)) →
    ∃ t, exec (.copy d src) s = .next t ∧
      t = { s with grid := t.grid, status := { s.status with busy := false, done := true } } ∧
      (∀ i, i < s.build.cells → gridRead t.grid (cellAddr d i) = some (v i)) ∧
      (∀ a, a < cellAddr d 0 ∨ cellAddr d s.build.cells ≤ a → gridRead t.grid a = gridRead s.grid a) ∧
      (d = src → ∀ a, gridRead t.grid a = gridRead s.grid a)

/-- 41_grid_reduction.md R135: SUMSQ accumulates in ascending flat index from +0, one rounded addition a cell, into RES0 alone. -/
def Obligations.SumsqAccumulatesInOrder : Prop :=
  ∀ (s : State) (d : Nat) (v : Nat → Cx), d < s.build.nbanks →
    (∀ i, i < s.build.cells → gridRead s.grid (cellAddr d i) = some (v i)) →
    exec (.sumsq d) s = .next { s with
      res0 := (List.range s.build.cells).foldl
        (fun acc i => fadd acc (fadd (fmul (v i).re (v i).re) (fmul (v i).im (v i).im))) 0x0000000000000000
      status := { s.status with busy := false, done := true } }

/-- 41_grid_reduction.md R138, the scaling case: with the root of the sum not below the threshold, every part is multiplied by one
rounded reciprocal; RES0 has the sum, WARN is unchanged, and nothing else changes. -/
def Obligations.RenormScalesBank : Prop :=
  ∀ (s : State) (d : Nat) (v : Nat → Cx), s.build.wf = true → d < s.build.nbanks →
    (∀ i, i < s.build.cells → gridRead s.grid (cellAddr d i) = some (v i)) →
    let sum := sumSquares ((List.range s.build.cells).map v)
    flt (fsqrt sum) s.latEps = false →
    ∃ t, exec (.renorm d) s = .next t ∧
      t = { s with grid := t.grid, res0 := sum, status := { s.status with busy := false, done := true } } ∧
      (∀ i, i < s.build.cells →
        gridRead t.grid (cellAddr d i) = some
          ⟨fmul (v i).re (fdiv 0x3FF0000000000000 (fsqrt sum)), fmul (v i).im (fdiv 0x3FF0000000000000 (fsqrt sum))⟩) ∧
      ∀ a, a < cellAddr d 0 ∨ cellAddr d s.build.cells ≤ a → gridRead t.grid a = gridRead s.grid a

/-- 41_grid_reduction.md R138, 60_exceptions.md R185, the guard: with the root of the sum below the threshold, WARN and
WARNCODE = 0x01, RES0 has the sum, and nothing else changes. -/
def Obligations.RenormGuardWarns : Prop :=
  ∀ (s : State) (d : Nat) (v : Nat → Cx), d < s.build.nbanks →
    (∀ i, i < s.build.cells → gridRead s.grid (cellAddr d i) = some (v i)) →
    let sum := sumSquares ((List.range s.build.cells).map v)
    flt (fsqrt sum) s.latEps = true →
    exec (.renorm d) s = .next { s with
      res0 := sum, status := { s.status with busy := false, done := true, warn := true, warnCode := 0x01 } }

/-- 42_fft.md R153, R156-R158, R160, R161, 00_scope.md R22: FFT_FWD runs every row and then every column through the forward line,
FFT_INV every column and then every row through the inverse line, with the twiddles `(TWC, -TWS)` and `(TWC, TWS)`, the binary64
butterfly, and the inverse's scaling written out here; nothing else changes but the scratch storage (10_state.md R52).
StagesAreButterflies and PassesTransformLines say what a line and a pass are. -/
def Obligations.TransformsReplaceBank : Prop :=
  ∀ (s : State) (d : Nat) (v : Nat → Cx), s.build.wf = true → d < s.build.nbanks →
    (∀ i, i < s.build.cells → gridRead s.grid (cellAddr d i) = some (v i)) →
    let l := s.build.log2n
    let n := s.build.n
    let A : LineArith Cx Cx := {
      zero := ⟨0x0000000000000000, 0x0000000000000000⟩
      add := fun u p => ⟨fadd u.re p.re, fadd u.im p.im⟩
      sub := fun u p => ⟨fsub u.re p.re, fsub u.im p.im⟩
      mul := fun w b => ⟨fsub (fmul w.re b.re) (fmul w.im b.im), fadd (fmul w.re b.im) (fmul w.im b.re)⟩ }
    let fwd : List Cx → List Cx := fftLine A (fun t => ⟨twc l t, fneg (tws l t)⟩) l
    let inv : List Cx → List Cx := fun line =>
      (fftLine A (fun t => ⟨twc l t, tws l t⟩) l line).map fun a => ⟨fmul a.re (scaleL l), fmul a.im (scaleL l)⟩
    let g := (List.range s.build.cells).map v
    ∀ p ∈ [(Instr.fftFwd d, colPass A.zero n fwd (rowPass A.zero n fwd g)),
        (.fftInv d, rowPass A.zero n inv (colPass A.zero n inv g))],
      ∃ t, exec p.1 s = .next t ∧
        t = { s with
          grid := t.grid, scratch := t.scratch, freeCtr := t.freeCtr
          status := { s.status with busy := false, done := true } } ∧
        (∀ i, i < s.build.cells → ∃ c, p.2[i]? = some c ∧ gridRead t.grid (cellAddr d i) = some c) ∧
        ∀ a, a < cellAddr d 0 ∨ cellAddr d s.build.cells ≤ a → gridRead t.grid a = gridRead s.grid a

/-- 41_grid_reduction.md R130, R132, 42_fft.md R160, R161: with an unwritten cell in the bank read, no cell is written and the
fault log has UNINIT_READ; that the command completes, and that RENORM behaves so too, is the model's reading (log
entries 2 and 3). -/
def Obligations.UnwrittenBankIsNotRewritten : Prop :=
  ∀ (s : State) (d src j : Nat), d < s.build.nbanks → src < s.build.nbanks → j < s.build.cells →
    ∀ p ∈ [(Instr.scale d, d), (.copy d src, src), (.sumsq d, d), (.renorm d, d), (.fftFwd d, d), (.fftInv d, d)],
      gridRead s.grid (cellAddr p.2 j) = none →
      ∃ t, exec p.1 s = .next t ∧ t.grid = s.grid ∧ t.faultlog = s.faultlog ++ [.uninitRead] ∧
        t.status.busy = false ∧ t.status.done = true ∧ t.status.err = s.status.err ∧ t.status.errCode = s.status.errCode

/-- 10_state.md R43, 20_memory.md R71: no command touches a bank it does not name as its destination. -/
def Obligations.OtherBanksUntouched : Prop :=
  ∀ (s t : State) (i : Instr), s.build.wf = true → exec i s = .next t →
    ∀ e j, j < 2 ^ 30 →
      (∀ x y, i ≠ .set e x y ∧ i ≠ .zeroCell e x y) → (∀ src, i ≠ .copy e src) →
      i ≠ .scale e → i ≠ .renorm e → i ≠ .fftFwd e → i ≠ .fftInv e →
      gridRead t.grid (cellAddr e j) = gridRead s.grid (cellAddr e j)

/-- 10_state.md R54, 60_exceptions.md R187: the flags a command changes: BUSY and DONE always; OVR never; WARN only by RENORM;
ERR only with an entry of the fault log, and never together with WARN. That a command completes also where it reads an
unwritten cell is the model's reading (log entry 2). -/
def Obligations.FlagSideEffects : Prop :=
  ∀ (s : State) (i : Instr), ∃ t, exec i s = .next t ∧
    t.status.busy = false ∧ t.status.done = true ∧ t.status.ovr = s.status.ovr ∧
    ((∀ d, i ≠ .renorm d) → t.status.warn = s.status.warn ∧ t.status.warnCode = s.status.warnCode) ∧
    (t.status.err = s.status.err ∧ t.status.errCode = s.status.errCode ∨
      (∃ c, t.faultlog = s.faultlog ++ [.error c] ∧ t.status.err = true ∧ t.status.errCode = c.code ∧
        t.status.warn = s.status.warn ∧ t.status.warnCode = s.status.warnCode ∧ t.grid = s.grid ∧ t.res0 = s.res0 ∧
        t.res1 = s.res1))

/-! ## Arithmetic -/

/-- 00_scope.md R13: sum, difference, product and quotient of finite values are the nearest finite value to the exact result, ties
to the even pattern, wherever the result is finite; it is infinite exactly where the exact magnitude reaches the midpoint past
the largest finite value; and where the exact result is not 0 its sign is that of the exact result, of an infinity and of a zero
reached by underflow too. Values are counted in units of 2^-1074; the exact result is `p.2.1 / p.2.2` units. -/
def Obligations.PrimitivesRoundToNearestEven : Prop :=
  ∀ a b : F64, isFinite a = true → isFinite b = true →
    (∀ p ∈ [(fadd a b, sunits a + sunits b, (1 : Int)), (fsub a b, sunits a - sunits b, (1 : Int)),
          (fmul a b, sunits a * sunits b, (oneUnits : Int))] ++
        (if isZero b then [] else [(fdiv a b, sunits a * oneUnits, sunits b)]),
      (isFinite p.1 = true → ∀ z : F64, isFinite z = true →
        (p.2.1 - sunits p.1 * p.2.2).natAbs ≤ (p.2.1 - sunits z * p.2.2).natAbs ∧
        ((p.2.1 - sunits p.1 * p.2.2).natAbs = (p.2.1 - sunits z * p.2.2).natAbs → sunits z ≠ sunits p.1 →
          p.1.getLsbD 0 = false)) ∧
      (isFinite p.1 = false ↔ (2 ^ 54 - 1) * 2 ^ 2044 * p.2.2.natAbs ≤ p.2.1.natAbs) ∧ isNaN p.1 = false ∧
      (p.2.1 ≠ 0 → isNeg p.1 = (decide (p.2.1 < 0) != decide (p.2.2 < 0))))

/-- 00_scope.md R13: the square root of a finite value that is not negative is the finite value nearest to the exact root: the
midpoint of it and any larger one is not below the root, of it and any smaller one not above. -/
def Obligations.SquareRootRoundsToNearest : Prop :=
  ∀ a : F64, isFinite a = true → isNeg a = false →
    isFinite (fsqrt a) = true ∧ isNeg (fsqrt a) = false ∧
    ∀ z : F64, isFinite z = true → isNeg z = false →
      (units (fsqrt a) < units z → 4 * (units a * oneUnits) ≤ (units (fsqrt a) + units z) ^ 2) ∧
      (units z < units (fsqrt a) → (units (fsqrt a) + units z) ^ 2 ≤ 4 * (units a * oneUnits))

/-- 00_scope.md R15: an arithmetic result that is NaN is the canonical NaN, and a NaN in either operand gives it. -/
def Obligations.ArithmeticNaNsAreCanonical : Prop :=
  ∀ a b : F64,
    (∀ f ∈ [fadd, fsub, fmul, fdiv, atan2],
      (isNaN (f a b) = true → f a b = 0x7FF8000000000000) ∧ (isNaN a = true → f a b = 0x7FF8000000000000) ∧
      (isNaN b = true → f a b = 0x7FF8000000000000)) ∧
    (isNaN (fsqrt a) = true → fsqrt a = 0x7FF8000000000000) ∧ (isNaN a = true → fsqrt a = 0x7FF8000000000000)

/-- 00_scope.md R13: infinities, division by zero and invalid operations, for operands that are not NaN. -/
def Obligations.InfinitiesAndInvalidOperations : Prop :=
  ∀ a b : F64, isNaN a = false → isNaN b = false →
    let signedInf : F64 := if isNeg a = isNeg b then 0x7FF0000000000000 else 0xFFF0000000000000
    let signedZero : F64 := if isNeg a = isNeg b then 0x0000000000000000 else 0x8000000000000000
    (isInf a = true → isInf b = true →
      fadd a b = (if isNeg a = isNeg b then a else 0x7FF8000000000000) ∧
      fsub a b = (if isNeg a = isNeg b then 0x7FF8000000000000 else a) ∧ fdiv a b = 0x7FF8000000000000) ∧
    (isInf a = true → isFinite b = true →
      fadd a b = a ∧ fadd b a = a ∧ fsub a b = a ∧ fsub b a = fneg a ∧ fdiv a b = signedInf ∧ fdiv b a = signedZero) ∧
    (isInf a = true → isZero b = true → fmul a b = 0x7FF8000000000000 ∧ fmul b a = 0x7FF8000000000000) ∧
    (isInf a = true → isZero b = false → fmul a b = signedInf ∧ fmul b a = signedInf) ∧
    (isZero a = true → isZero b = true → fdiv a b = 0x7FF8000000000000) ∧
    (isZero a = false → isZero b = true → fdiv a b = signedInf) ∧
    (isZero a = false → isNeg a = true → fsqrt a = 0x7FF8000000000000) ∧
    (isInf a = true → isNeg a = false → fsqrt a = a) ∧ (isZero a = true → fsqrt a = a)

/-- 00_scope.md R17: the sign of a zero result. -/
def Obligations.SignsOfZeroResults : Prop :=
  (∀ a b : F64, isFinite a = true → isFinite b = true → isNeg a ≠ isNeg b → sunits a + sunits b = 0 →
    fadd a b = 0x0000000000000000) ∧
  (∀ a : F64, isFinite a = true → fsub a a = 0x0000000000000000) ∧
  fadd 0 0 = 0x0000000000000000 ∧ fadd 0x8000000000000000 0x8000000000000000 = 0x8000000000000000 ∧
  fsub 0x8000000000000000 0x0000000000000000 = 0x8000000000000000 ∧
  (∀ a b : F64, isFinite a = true → isFinite b = true → (isZero a = true ∨ isZero b = true) →
    fmul a b = if isNeg a = isNeg b then 0x0000000000000000 else 0x8000000000000000) ∧
  (∀ a b : F64, isZero a = true → isNaN b = false → isZero b = false →
    fdiv a b = if isNeg a = isNeg b then 0x0000000000000000 else 0x8000000000000000)

/-- 00_scope.md R18: the comparison is that of the exact values; a NaN compares false, the zeros are equal, minus infinity is
below every other value that is not NaN and plus infinity above it, and nothing is below minus or above plus infinity. -/
def Obligations.ComparisonIsOrdered : Prop :=
  ∀ a b : F64,
    (isNaN a = true ∨ isNaN b = true → flt a b = false) ∧
    (isFinite a = true → isFinite b = true → flt a b = decide (sunits a < sunits b)) ∧
    (isZero a = true → isZero b = true → flt a b = false) ∧
    (isNaN b = false → b ≠ 0xFFF0000000000000 → flt 0xFFF0000000000000 b = true) ∧
    (isNaN a = false → a ≠ 0x7FF0000000000000 → flt a 0x7FF0000000000000 = true) ∧
    flt a 0xFFF0000000000000 = false ∧ flt 0x7FF0000000000000 a = false

/-- 00_scope.md R20: negation flips bit 63 and changes no other bit, for every pattern. -/
def Obligations.NegationFlipsSignBit : Prop :=
  ∀ (a : F64) (i : Nat), i < 64 → (fneg a).getLsbD i = if i = 63 then !a.getLsbD i else a.getLsbD i

/-- 41_grid_reduction.md R131, the factors 1 and -1: every value that is not NaN is kept bit for bit, or has its sign flipped; a NaN
becomes canonical. -/
def Obligations.ScalingByPlusMinusOne : Prop :=
  ∀ a : F64,
    fmul a 0x3FF0000000000000 = (if isNaN a then 0x7FF8000000000000 else a) ∧
    fmul a 0xBFF0000000000000 = (if isNaN a then 0x7FF8000000000000 else fneg a)

/-- 40_element_access.md R112, 41_grid_reduction.md R136: squared magnitudes and their sums are never negative, a bank of zeros of
any signs sums to +0, and the running sum never decreases. -/
def Obligations.SquaredMagnitudesNotNegative : Prop :=
  (∀ v : Cx, isNeg (mag2 v) = false) ∧ (∀ vs : List Cx, isNeg (sumSquares vs) = false) ∧
  (∀ vs : List Cx, (∀ v ∈ vs, isZero v.re = true ∧ isZero v.im = true) → sumSquares vs = 0x0000000000000000) ∧
  ∀ (vs : List Cx) (v : Cx), flt (sumSquares (vs ++ [v])) (sumSquares vs) = false

/-- 00_scope.md R21: the special cases of ATAN2. -/
def Obligations.Atan2SpecialCases : Prop :=
  ∀ y x : F64, isNaN y = false → isNaN x = false →
    let pm (m : F64) : F64 := if isNeg y then fneg m else m
    (isZero y = true → isNeg x = false → atan2 y x = pm 0x0000000000000000) ∧
    (isZero y = true → isNeg x = true → atan2 y x = pm 0x400921FB54442D18) ∧
    (isZero y = false → isZero x = true → atan2 y x = pm 0x3FF921FB54442D18) ∧
    (isFinite y = true → isZero y = false → x = 0xFFF0000000000000 → atan2 y x = pm 0x400921FB54442D18) ∧
    (isFinite y = true → isZero y = false → x = 0x7FF0000000000000 → atan2 y x = pm 0x0000000000000000) ∧
    (isInf y = true → isFinite x = true → atan2 y x = pm 0x3FF921FB54442D18) ∧
    (isInf y = true → x = 0xFFF0000000000000 → atan2 y x = pm 0x4002D97C7F3321D2) ∧
    (isInf y = true → x = 0x7FF0000000000000 → atan2 y x = pm 0x3FE921FB54442D18)

/-- 00_scope.md R21: every ATAN2 result that is not NaN has the sign of `y` and lies in `[-RN(π), RN(π)]`; for
finite nonzero operands it lies in the quadrant of `(x, y)`, is `RN(π/4)` or `RN(3π/4)` in magnitude where the operands have one
magnitude (the examples of 40_element_access.md R114), and is the finite value nearest to the exact angle `arg (x + i y)`. Nearest up
to a 2^-200th of the angle: where none of the model's enclosures decides the rounding its result is a free value, log entry 12. -/
def Obligations.PhaseLiesInRange : Prop :=
  (∀ y x : F64, isNaN y = false → isNaN x = false →
    isNeg (atan2 y x) = isNeg y ∧ magBits (atan2 y x) ≤ 0x400921FB54442D18) ∧
  ∀ y x : F64, isFinite y = true → isZero y = false → isFinite x = true → isZero x = false →
    (isNeg x = false → magBits (atan2 y x) ≤ 0x3FF921FB54442D18) ∧
    (isNeg x = true → 0x3FF921FB54442D18 ≤ magBits (atan2 y x)) ∧
    (magBits y = magBits x → magBits (atan2 y x) = if isNeg x then 0x4002D97C7F3321D2 else 0x3FE921FB54442D18) ∧
    ∀ z : F64, isFinite z = true →
      let angle : ℝ := Complex.arg ⟨(sunits x : ℝ), (sunits y : ℝ)⟩
      |angle * oneUnits - sunits (atan2 y x)| ≤ |angle * oneUnits - sunits z| + |angle| * oneUnits / 2 ^ 200

/-! ## The transform -/

/-- 42_fft.md R152, R153: the ROM values the spec lists for N = 16, the exact entries at index N/4 and the constant at N/8 of every
size, the twiddles at index 0, and of every entry that it is the finite value nearest to the exact cosine or sine, with the signs and
the reflection about N/4 that follow. Nearest up to 2^-1000: where none of the model's enclosures decides the rounding its constant is
a free value, log entry 13. -/
def Obligations.TwiddleRomValues : Prop :=
  (List.range 8).map (twc 4) = [0x3FF0000000000000, 0x3FED906BCF328D46, 0x3FE6A09E667F3BCD, 0x3FD87DE2A6AEA963,
    0x0000000000000000, 0xBFD87DE2A6AEA963, 0xBFE6A09E667F3BCD, 0xBFED906BCF328D46] ∧
  (List.range 8).map (tws 4) = [0x0000000000000000, 0x3FD87DE2A6AEA963, 0x3FE6A09E667F3BCD, 0x3FED906BCF328D46,
    0x3FF0000000000000, 0x3FED906BCF328D46, 0x3FE6A09E667F3BCD, 0x3FD87DE2A6AEA963] ∧
  (∀ l, twiddleFwd l 0 = ⟨0x3FF0000000000000, 0x8000000000000000⟩ ∧
    twiddleInv l 0 = ⟨0x3FF0000000000000, 0x0000000000000000⟩) ∧
  (∀ l, twc (l + 2) (2 ^ l) = 0x0000000000000000 ∧ tws (l + 2) (2 ^ l) = 0x3FF0000000000000) ∧
  (∀ l, twc (l + 3) (2 ^ l) = 0x3FE6A09E667F3BCD ∧ tws (l + 3) (2 ^ l) = 0x3FE6A09E667F3BCD) ∧
  (∀ l t, 0 < t → 4 * t < 2 ^ l →
    isNeg (twc l t) = false ∧ isNeg (tws l t) = false ∧
    twc l (2 ^ l / 2 - t) = fneg (twc l t) ∧ tws l (2 ^ l / 2 - t) = tws l t) ∧
  (∀ l t, twiddleFwd l t = ⟨twc l t, fneg (tws l t)⟩ ∧ twiddleInv l t = ⟨twc l t, tws l t⟩) ∧
  ∀ l t : Nat, 2 * t < 2 ^ l → ∀ z : F64, isFinite z = true →
    let angle : ℝ := 2 * Real.pi * t / 2 ^ l
    |Real.cos angle * oneUnits - sunits (twc l t)| ≤ |Real.cos angle * oneUnits - sunits z| + oneUnits / 2 ^ 1000 ∧
    |Real.sin angle * oneUnits - sunits (tws l t)| ≤ |Real.sin angle * oneUnits - sunits z| + oneUnits / 2 ^ 1000

/-- 42_fft.md R154: bit `j` of the index becomes bit `L-1-j`, and input element `i` goes to position `rev_L(i)`. -/
def Obligations.BitReversalOfLine : Prop :=
  ∀ (l i : Nat), i < 2 ^ l →
    revBits l i < 2 ^ l ∧ (∀ j, j < l → (revBits l i).testBit (l - 1 - j) = i.testBit j) ∧
    ∀ v : List Cx, v.length = 2 ^ l → (bitReverse Cx.zero l v)[revBits l i]? = v[i]?

/-- 42_fft.md R158: the inverse's factor is exactly `2^-L`, and each part of an inverse line is multiplied by it once, after the
stages. -/
def Obligations.InverseScaling : Prop :=
  ∀ l, l ≤ 15 → isFinite (scaleL l) = true ∧ isNeg (scaleL l) = false ∧ units (scaleL l) * 2 ^ l = oneUnits ∧
    ∀ (v : List Cx) (j : Nat), j < 2 ^ l →
      ∃ c, (fftLine cxArith (twiddleInv l) l v)[j]? = some c ∧
        (fft1dInv l v)[j]? = some ⟨fmul c.re (scaleL l), fmul c.im (scaleL l)⟩

/-- 42_fft.md R155, R162: element `j` of row `y` is the cell of flat index `y*N+j`, and of column `x` that of `j*N+x`; a pass replaces
each of them by element `j` of that line's own transform. -/
def Obligations.PassesTransformLines : Prop :=
  ∀ (n : Nat) (f : List Cx → List Cx) (g : List Cx), (∀ v, (f v).length = n) →
    ∀ c j, c < n → j < n →
      (g.length = n * n →
        (rowOf Cx.zero n g c)[j]? = g[c * n + j]? ∧ (colOf Cx.zero n g c)[j]? = g[j * n + c]?) ∧
      (rowOf Cx.zero n g c).length = n ∧ (colOf Cx.zero n g c).length = n ∧
      (rowPass Cx.zero n f g)[c * n + j]? = (f (rowOf Cx.zero n g c))[j]? ∧
      (colPass Cx.zero n f g)[j * n + c]? = (f (colOf Cx.zero n g c))[j]?

/-- 42_fft.md R157, R164: in exact arithmetic, over any commutative ring and any `ω` with `ω^(N/2) = -1`, the line algorithm with
twiddles `ω^t` computes the discrete Fourier transform `A[k] = Σ_n v[n] * ω^(k*n)`. -/
def Obligations.LineTransformIsExactDft : Prop :=
  ∀ (R : Type) [CommRing R] (l : Nat) (ω : R) (v : List R), v.length = 2 ^ l → (1 ≤ l → ω ^ (2 ^ (l - 1)) = -1) →
    let A : LineArith R R :=
      { zero := 0, add := fun a b => a + b, sub := fun a b => a - b, mul := fun w b => w * b }
    fftLine A (fun t => ω ^ t) l v =
      (List.range (2 ^ l)).map fun k => ∑ n ∈ Finset.range (2 ^ l), v.getD n 0 * ω ^ (k * n)

/-- 42_fft.md R164: in exact arithmetic the line transform with the inverse root undoes the one with the root, up to the factor N
that the inverse's scaling removes. -/
def Obligations.LineTransformsInvertExactly : Prop :=
  ∀ (R : Type) [CommRing R] (l : Nat) (ω ι : R) (v : List R), v.length = 2 ^ l → ω * ι = 1 →
    (1 ≤ l → ω ^ (2 ^ (l - 1)) = -1) →
    let A : LineArith R R :=
      { zero := 0, add := fun a b => a + b, sub := fun a b => a - b, mul := fun w b => w * b }
    fftLine A (fun t => ι ^ t) l (fftLine A (fun t => ω ^ t) l v) = v.map fun a => (2 ^ l : R) * a

/-- 42_fft.md R166, N = 1: FFT_FWD leaves the cell bit-identical; FFT_INV multiplies both parts by 1.0, which keeps what is not NaN
and makes a NaN canonical. -/
def Obligations.OneCellTransforms : Prop :=
  ∀ c : Cx,
    fft2dFwd 0 [c] = [c] ∧
    fft2dInv 0 [c] = [⟨if isNaN c.re then 0x7FF8000000000000 else c.re,
      if isNaN c.im then 0x7FF8000000000000 else c.im⟩]

/-- 42_fft.md R156, R157: stage `t + 1` of a line pairs element `k + j` with element `k + j + m/2` in each block of `m = 2^(t+1)` elements
and replaces the pair `(u, b)` by `(u + w*b, u - w*b)`, `w` being the twiddle at `j * N/m`; the stages run in ascending order on the
bit-reversed line. -/
def Obligations.StagesAreButterflies : Prop :=
  ∀ (α τ : Type) (A : LineArith α τ) (w : Nat → τ) (l : Nat),
    (∀ v, fftLine A w l v = (List.range l).foldl (fun a t => fftStage A w l t a) (bitReverse A.zero l v)) ∧
    ∀ (t k j : Nat) (a : List α) (u b : α), t < l → a.length = 2 ^ l → k < 2 ^ (l - (t + 1)) → j < 2 ^ t →
      a[k * 2 ^ (t + 1) + j]? = some u → a[k * 2 ^ (t + 1) + j + 2 ^ t]? = some b →
      let p := A.mul (w (j * 2 ^ (l - (t + 1)))) b
      (fftStage A w l t a)[k * 2 ^ (t + 1) + j]? = some (A.add u p) ∧
      (fftStage A w l t a)[k * 2 ^ (t + 1) + j + 2 ^ t]? = some (A.sub u p)
end

