-- ==== Sys2Proof/Laws/Euler.lean ====
section
/-! SUPPORT. Euler's series of the arctangent on [0, 1]: the partial sums lie below it, by at most twice the next term. -/

namespace Sys2Proof.Laws

/-- The terms of Euler's series of the arctangent. -/
noncomputable def eulerTerm (x : ℝ) : ℕ → ℝ
  | 0 => x / (1 + x ^ 2)
  | j + 1 => eulerTerm x j * ((2 * j + 2) / (2 * j + 3)) * (x ^ 2 / (1 + x ^ 2))

/-- The coefficient `2·4·…·2j / (3·5·…·(2j+1))` of its term `j`. -/
noncomputable def eulerCoeff : ℕ → ℝ
  | 0 => 1
  | j + 1 => eulerCoeff j * ((2 * j + 2) / (2 * j + 3))

theorem eulerCoeff_pos (j : ℕ) : 0 < eulerCoeff j := by
  induction j with
  | zero => exact one_pos
  | succ j ih => exact mul_pos ih (by positivity)

theorem eulerCoeff_le_one (j : ℕ) : eulerCoeff j ≤ 1 := by
  induction j with
  | zero => exact le_refl _
  | succ j ih =>
    refine mul_le_one₀ ih (by positivity) ?_
    rw [div_le_one (by positivity)]; linarith

theorem eulerTerm_eq (x : ℝ) (j : ℕ) : eulerTerm x j = eulerCoeff j * x ^ (2 * j + 1) / (1 + x ^ 2) ^ (j + 1) := by
  have h : (1 + x ^ 2) ≠ 0 := by positivity
  induction j with
  | zero => simp [eulerTerm, eulerCoeff]
  | succ j ih =>
    rw [eulerTerm, ih, eulerCoeff]
    field_simp
    ring

theorem eulerTerm_nonneg {x : ℝ} (h : 0 ≤ x) (j : ℕ) : 0 ≤ eulerTerm x j := by
  rw [eulerTerm_eq]; have := eulerCoeff_pos j; positivity

/-- The derivative of the arctangent less the first `k` terms. -/
theorem hasDerivAt_euler (k : ℕ) (x : ℝ) :
    HasDerivAt (fun x => Real.arctan x - ∑ j ∈ Finset.range k, eulerTerm x j)
      (eulerCoeff k * (2 * k + 1) * x ^ (2 * k) / (1 + x ^ 2) ^ (k + 1)) x := by
  have hx : (1 + x ^ 2) ≠ 0 := by positivity
  induction k with
  | zero => simpa [eulerCoeff] using Real.hasDerivAt_arctan x
  | succ k ih =>
    have h1 : HasDerivAt (fun x => eulerTerm x k)
        ((eulerCoeff k * ((2 * k + 1 : ℕ) * x ^ (2 * k)) * (1 + x ^ 2) ^ (k + 1) -
          eulerCoeff k * x ^ (2 * k + 1) * ((k + 1 : ℕ) * (1 + x ^ 2) ^ k * (2 * x))) / ((1 + x ^ 2) ^ (k + 1)) ^ 2) x := by
      have e : (fun x => eulerTerm x k) = fun x => eulerCoeff k * x ^ (2 * k + 1) / (1 + x ^ 2) ^ (k + 1) :=
        funext fun x => eulerTerm_eq x k
      rw [e]
      have hp : HasDerivAt (fun x : ℝ => eulerCoeff k * x ^ (2 * k + 1)) (eulerCoeff k * ((2 * k + 1 : ℕ) * x ^ (2 * k))) x :=
        (hasDerivAt_pow (2 * k + 1) x).const_mul (eulerCoeff k)
      have hq : HasDerivAt (fun x : ℝ => (1 + x ^ 2) ^ (k + 1)) ((k + 1 : ℕ) * (1 + x ^ 2) ^ k * (2 * x)) x := by
        have h2 : HasDerivAt (fun x : ℝ => 1 + x ^ 2) (2 * x) x := by
          simpa using (hasDerivAt_pow 2 x).const_add (1 : ℝ)
        exact h2.pow (k + 1)
      exact hp.div hq (pow_ne_zero _ hx)
    have e : (fun x => Real.arctan x - ∑ j ∈ Finset.range (k + 1), eulerTerm x j) =
        fun x => (Real.arctan x - ∑ j ∈ Finset.range k, eulerTerm x j) - eulerTerm x k := by
      funext y; rw [Finset.sum_range_succ]; ring
    rw [e]
    refine (ih.sub h1).congr_deriv ?_
    rw [show eulerCoeff (k + 1) = eulerCoeff k * ((2 * k + 2) / (2 * k + 3)) from rfl]
    push_cast
    field_simp
    ring

theorem euler_zero (k : ℕ) : Real.arctan 0 - ∑ j ∈ Finset.range k, eulerTerm 0 j = 0 := by
  simp [eulerTerm_eq]

theorem euler_le_arctan {x : ℝ} (h : 0 ≤ x) (k : ℕ) : ∑ j ∈ Finset.range k, eulerTerm x j ≤ Real.arctan x := by
  have hm : MonotoneOn (fun x => Real.arctan x - ∑ j ∈ Finset.range k, eulerTerm x j) (Set.Ici 0) := by
    refine monotoneOn_of_deriv_nonneg (convex_Ici 0)
      (fun y _ => (hasDerivAt_euler k y).continuousAt.continuousWithinAt)
      (fun y _ => (hasDerivAt_euler k y).differentiableAt.differentiableWithinAt) fun y hy => ?_
    rw [(hasDerivAt_euler k y).deriv]
    have h1 := eulerCoeff_pos k
    have h2 : 0 < y := by simpa using hy
    positivity
  have := hm (by simp) (by simpa using h) h
  simp only [euler_zero] at this
  linarith

/-- A remainder that vanishes. -/
theorem arctan_le_euler_rough {x : ℝ} (h : 0 ≤ x) (h1 : x ≤ 1) (k : ℕ) :
    Real.arctan x ≤ (∑ j ∈ Finset.range k, eulerTerm x j) + (2 * k + 1) * (1 / 2) ^ k := by
  have hm : AntitoneOn (fun x => (Real.arctan x - ∑ j ∈ Finset.range k, eulerTerm x j) - (2 * k + 1) * (1 / 2) ^ k * x)
      (Set.Icc 0 1) := by
    have hd := fun y => (hasDerivAt_euler k y).sub ((hasDerivAt_id y).const_mul ((2 * (k : ℝ) + 1) * (1 / 2) ^ k))
    refine antitoneOn_of_deriv_nonpos (convex_Icc 0 1)
      (fun y _ => (hd y).continuousAt.continuousWithinAt)
      (fun y _ => (hd y).differentiableAt.differentiableWithinAt) fun y hy => ?_
    rw [interior_Icc] at hy
    have hD : deriv (fun x => (Real.arctan x - ∑ j ∈ Finset.range k, eulerTerm x j) - (2 * k + 1) * (1 / 2) ^ k * x) y = _ :=
      (hd y).deriv
    rw [hD]
    have hc := eulerCoeff_pos k
    have hc1 := eulerCoeff_le_one k
    have hy0 := hy.1
    have hr : y ^ 2 / (1 + y ^ 2) ≤ 1 / 2 := by
      rw [div_le_div_iff₀ (by positivity) (by norm_num)]; nlinarith [hy.1, hy.2]
    have e : eulerCoeff k * (2 * k + 1) * y ^ (2 * k) / (1 + y ^ 2) ^ (k + 1) =
        (2 * k + 1) * (eulerCoeff k * (y ^ 2 / (1 + y ^ 2)) ^ k * (1 / (1 + y ^ 2))) := by
      rw [div_pow, ← pow_mul]; field_simp; ring
    have h3 : eulerCoeff k * (y ^ 2 / (1 + y ^ 2)) ^ k * (1 / (1 + y ^ 2)) ≤ 1 * (1 / 2) ^ k * 1 := by
      gcongr
      rw [div_le_one (by positivity)]; nlinarith
    rw [e]
    have := mul_le_mul_of_nonneg_left h3 (show (0 : ℝ) ≤ 2 * k + 1 by positivity)
    simp only [one_mul, mul_one] at *
    linarith
  have h2 := hm (by simp) ⟨h, h1⟩ h
  simp only [euler_zero] at h2
  have h4 : (2 * (k : ℝ) + 1) * (1 / 2) ^ k * x ≤ (2 * k + 1) * (1 / 2) ^ k * 1 := by gcongr
  linarith

theorem eulerTerm_half {x : ℝ} (h : 0 ≤ x) (h1 : x ≤ 1) (j : ℕ) : eulerTerm x (j + 1) ≤ eulerTerm x j / 2 := by
  have ht := eulerTerm_nonneg h j
  have hr : x ^ 2 / (1 + x ^ 2) ≤ 1 / 2 := by
    rw [div_le_div_iff₀ (by positivity) (by norm_num)]; nlinarith
  have hc : (2 * (j : ℝ) + 2) / (2 * j + 3) ≤ 1 := by rw [div_le_one (by positivity)]; linarith
  calc eulerTerm x (j + 1) = eulerTerm x j * ((2 * j + 2) / (2 * j + 3)) * (x ^ 2 / (1 + x ^ 2)) := rfl
    _ ≤ eulerTerm x j * 1 * (1 / 2) := by gcongr
    _ = _ := by ring

/-- The remainder after `k` terms is at most twice the next one. -/
theorem arctan_le_euler {x : ℝ} (h : 0 ≤ x) (h1 : x ≤ 1) (k : ℕ) :
    Real.arctan x ≤ (∑ j ∈ Finset.range k, eulerTerm x j) + 2 * eulerTerm x k := by
  have step : ∀ i, (∑ j ∈ Finset.range (k + i), eulerTerm x j) + 2 * eulerTerm x (k + i) ≤
      (∑ j ∈ Finset.range k, eulerTerm x j) + 2 * eulerTerm x k := by
    intro i
    induction i with
    | zero => exact le_refl _
    | succ i ih =>
      rw [← Nat.add_assoc, Finset.sum_range_succ]
      have := eulerTerm_half h h1 (k + i)
      linarith
  have hlim : Filter.Tendsto (fun i : ℕ => (∑ j ∈ Finset.range k, eulerTerm x j) + 2 * eulerTerm x k +
      (2 * ((i + k : ℕ) : ℝ) + 1) * (1 / 2) ^ (i + k)) Filter.atTop
      (nhds ((∑ j ∈ Finset.range k, eulerTerm x j) + 2 * eulerTerm x k + 0)) := by
    refine Filter.Tendsto.const_add _ ?_
    have h0 : Filter.Tendsto (fun n : ℕ => (2 * (n : ℝ) + 1) * (1 / 2) ^ n) Filter.atTop (nhds 0) := by
      have a := tendsto_self_mul_const_pow_of_lt_one (r := (1 / 2 : ℝ)) (by norm_num) (by norm_num)
      have b := tendsto_pow_atTop_nhds_zero_of_lt_one (r := (1 / 2 : ℝ)) (by norm_num) (by norm_num)
      have := (a.const_mul 2).add b
      simp only [mul_zero, add_zero] at this
      refine this.congr fun n => ?_
      ring
    exact h0.comp (Filter.tendsto_add_atTop_nat k)
  rw [add_zero] at hlim
  refine ge_of_tendsto hlim (Filter.Eventually.of_forall fun i => ?_)
  have a := arctan_le_euler_rough h h1 (i + k)
  have b := step i
  rw [Nat.add_comm k i] at b
  have c := eulerTerm_nonneg h (i + k)
  linarith

theorem eulerTerm_le {x : ℝ} (h : 0 ≤ x) (h1 : x ≤ 1) (j : ℕ) : eulerTerm x j ≤ (1 / 2) ^ (j + 1) := by
  induction j with
  | zero =>
    rw [eulerTerm, div_le_iff₀ (by positivity)]
    nlinarith [sq_nonneg (x - 1)]
  | succ j ih =>
    have := eulerTerm_half h h1 j
    rw [pow_succ]; linarith

end Sys2Proof.Laws
end

