-- ==== Sys2Proof/Laws/Fft.lean ====
section
/-! SUPPORT. The lengths of lines and banks under the transforms, and the elements of a pass. -/

namespace Sys2Proof.Laws

open Sys2Proof.Machine

@[simp] theorem bitReverse_length {α : Type} (z : α) (l : Nat) (v : List α) : (bitReverse z l v).length = 2 ^ l := by
  simp [bitReverse]

@[simp] theorem bflyBlock_length {α τ : Type} (A : LineArith α τ) (w : Nat → τ) (h st : Nat) (blk : List α) :
    (bflyBlock A w h st blk).length = 2 * h := by
  simp [bflyBlock]; omega

/-- A list of `m` blocks of `n` elements each. -/
theorem flatMap_range_length {α : Type} (m n : Nat) (f : Nat → List α) (h : ∀ k, (f k).length = n) :
    ((List.range m).flatMap f).length = m * n := by
  rw [List.length_flatMap, List.map_congr_left fun k _ => h k]
  simp

theorem fftStage_length {α τ : Type} (A : LineArith α τ) (w : Nat → τ) (l t : Nat) (ht : t < l) (a : List α) :
    (fftStage A w l t a).length = 2 ^ l := by
  rw [fftStage, flatMap_range_length _ (2 * 2 ^ t) _ fun k => by simp, ← Nat.pow_succ', ← Nat.pow_add]
  congr 1; omega

/-- A line transform gives a line, whatever it is given. -/
@[simp] theorem fftLine_length {α τ : Type} (A : LineArith α τ) (w : Nat → τ) (l : Nat) (v : List α) :
    (fftLine A w l v).length = 2 ^ l := by
  have key : ∀ (ts : List Nat) (a : List α), (∀ t ∈ ts, t < l) → a.length = 2 ^ l →
      (ts.foldl (fun a t => fftStage A w l t a) a).length = 2 ^ l := by
    intro ts
    induction ts with
    | nil => intro a _ ha; exact ha
    | cons t ts ih =>
      intro a hts _
      exact ih _ (fun u hu => hts u (by simp [hu])) (fftStage_length A w l t (hts t (by simp)) a)
  exact key _ _ (fun t ht => by simpa using ht) (by simp)

@[simp] theorem fft1dFwd_length (l : Nat) (v : List Cx) : (fft1dFwd l v).length = 2 ^ l := by simp [fft1dFwd]

@[simp] theorem fft1dInv_length (l : Nat) (v : List Cx) : (fft1dInv l v).length = 2 ^ l := by simp [fft1dInv]

theorem rowPass_length {α : Type} (z : α) (n : Nat) (f : List α → List α) (g : List α) (h : ∀ v, (f v).length = n) :
    (rowPass z n f g).length = n * n := flatMap_range_length n n _ fun _ => h _

theorem colPass_length {α : Type} (z : α) (n : Nat) (f : List α → List α) (g : List α) :
    (colPass z n f g).length = n * n := flatMap_range_length n n _ fun _ => by simp

@[simp] theorem fft2dFwd_length (l : Nat) (g : List Cx) : (fft2dFwd l g).length = 2 ^ l * 2 ^ l :=
  colPass_length _ _ _ _

@[simp] theorem fft2dInv_length (l : Nat) (g : List Cx) : (fft2dInv l g).length = 2 ^ l * 2 ^ l :=
  rowPass_length _ _ _ _ fun _ => fft1dInv_length l _

/-- Element `c * n + j` of a list of blocks of `n` is element `j` of block `c`. -/
theorem flatMap_range_getElem? {α : Type} (m n : Nat) (f : Nat → List α) (h : ∀ k, (f k).length = n) (c j : Nat)
    (hc : c < m) (hj : j < n) : ((List.range m).flatMap f)[c * n + j]? = (f c)[j]? := by
  induction m generalizing c f with
  | zero => omega
  | succ m ih =>
    rw [List.range_succ_eq_map, List.flatMap_cons, List.flatMap_map]
    cases c with
    | zero => rw [Nat.zero_mul, Nat.zero_add, List.getElem?_append_left (by rw [h]; exact hj)]
    | succ c =>
      have hle : (f 0).length ≤ (c + 1) * n + j := by rw [h, Nat.succ_mul]; omega
      rw [List.getElem?_append_right hle, h]
      have hidx : (c + 1) * n + j - n = c * n + j := by rw [Nat.succ_mul]; omega
      rw [hidx]
      exact ih (fun k => f (k + 1)) (fun k => h (k + 1)) c (by omega)

end Sys2Proof.Laws
end

