-- ==== Sys2Proof/Laws/Float.lean ====
section
/-! SUPPORT. Patterns, magnitudes and rounding of binary64: a pattern is its sign and magnitude, rounding an exactly representable
magnitude gives it back, and every rounding is to the nearest magnitude, the even one halfway, and keeps order. -/

namespace Sys2Proof.Laws

open Sys2Proof.Machine

theorem magBits_lt (a : F64) : magBits a < 2 ^ 63 := Nat.mod_lt _ (by decide)

theorem toNat_ofSignMag {neg : Bool} {m : Nat} (h : m < 2 ^ 63) :
    (ofSignMag neg m).toNat = m + if neg then 2 ^ 63 else 0 := by
  unfold ofSignMag
  rw [BitVec.toNat_ofNat, Nat.mod_eq_of_lt]
  cases neg <;> simp <;> omega

theorem magBits_ofSignMag {neg : Bool} {m : Nat} (h : m < 2 ^ 63) : magBits (ofSignMag neg m) = m := by
  unfold magBits; rw [toNat_ofSignMag h]; cases neg <;> simp <;> omega

theorem isNeg_ofSignMag {neg : Bool} {m : Nat} (h : m < 2 ^ 63) : isNeg (ofSignMag neg m) = neg := by
  unfold isNeg; rw [toNat_ofSignMag h]; cases neg
  · simpa using h
  · simp

/-- A pattern is its sign and its magnitude bits. -/
theorem ofSignMag_self (a : F64) : ofSignMag (isNeg a) (magBits a) = a := by
  apply BitVec.eq_of_toNat_eq
  rw [toNat_ofSignMag (magBits_lt a)]
  have h := a.isLt
  unfold isNeg magBits
  by_cases hs : 2 ^ 63 ≤ a.toNat
  · simp only [hs, decide_true, if_true]; omega
  · simp only [hs, decide_false]; simp; omega

/-- Every rounded magnitude is at most infinity's. -/
theorem roundMag_le (num den : Nat) : roundMag num den ≤ infMag := Nat.min_le_right _ _

theorem roundMag_lt (num den : Nat) : roundMag num den < 2 ^ 63 :=
  Nat.lt_of_le_of_lt (roundMag_le num den) (by decide)

/-- Zero rounds to zero. -/
@[simp] theorem roundMag_zero (den : Nat) : roundMag 0 den = 0 := by
  rcases Nat.eq_zero_or_pos den with rfl | h
  · simp [roundMag]
  · simp [roundMag]

/-- The magnitude of a normal pattern: its significand at its exponent. -/
theorem magUnits_normal {m : Nat} (h : 2 ^ 52 ≤ m) :
    magUnits m = (2 ^ 52 + m % 2 ^ 52) * 2 ^ (m / 2 ^ 52 - 1) := by
  rw [magUnits, if_neg (by omega), Nat.shiftLeft_eq]

/-- Rounding a representable magnitude, over any denominator, gives it back. -/
theorem roundMag_magUnits {m den : Nat} (hm : m < infMag) (hd : 0 < den) : roundMag (magUnits m * den) den = m := by
  have hdiv : magUnits m * den / den = magUnits m := Nat.mul_div_cancel _ hd
  by_cases h : m < 2 ^ 52
  · have hu : magUnits m = m := by rw [magUnits, if_pos h]
    have hk : m.log2 - 52 = 0 := by
      rcases Nat.eq_zero_or_pos m with rfl | h0
      · decide
      · have := (Nat.log2_lt (by omega)).2 h; omega
    unfold roundMag
    simp only [hu, hk, Nat.shiftLeft_zero, Nat.mul_div_cancel _ hd, Nat.mul_mod_left]
    have h1 : ¬ den < 2 * 0 := by omega
    have h2 : ¬ 2 * 0 = den := by omega
    simp only [h1, h2, decide_false, Bool.false_and, Bool.or_false, Bool.false_eq_true, if_false]
    simp only [infMag] at *; omega
  · have hn : 2 ^ 52 ≤ m := by omega
    have hu := magUnits_normal hn
    set e := m / 2 ^ 52 - 1 with he
    set f := 2 ^ 52 + m % 2 ^ 52 with hf
    have hf1 : 2 ^ 52 ≤ f := by omega
    have hf2 : f < 2 ^ 53 := by omega
    have hlog : (magUnits m).log2 = 52 + e := by
      have hpos : magUnits m ≠ 0 := by
        rw [hu]; exact Nat.mul_ne_zero (by omega) (by positivity)
      rw [Nat.log2_eq_iff hpos, hu]
      constructor
      · rw [Nat.pow_add]; exact Nat.mul_le_mul_right _ hf1
      · rw [show 52 + e + 1 = 53 + e by omega, Nat.pow_add]
        exact Nat.mul_lt_mul_of_pos_right hf2 (by positivity)
    have hk : (magUnits m).log2 - 52 = e := by omega
    have hnum : magUnits m * den = f * (den <<< e) := by rw [hu, Nat.shiftLeft_eq]; ring
    have hstep : 0 < den <<< e := by rw [Nat.shiftLeft_eq]; positivity
    unfold roundMag
    simp only [hdiv, hk]
    rw [hnum, Nat.mul_div_cancel _ hstep, Nat.mul_mod_left]
    have h1 : ¬ den <<< e < 2 * 0 := by omega
    have h2 : ¬ 2 * 0 = den <<< e := by omega
    simp only [h1, h2, decide_false, Bool.false_and, Bool.or_false, Bool.false_eq_true, if_false]
    have hval : e * 2 ^ 52 + (f + 0) = m := by
      have hq : m / 2 ^ 52 = e + 1 := by
        have : 1 ≤ m / 2 ^ 52 := (Nat.one_le_div_iff (by decide)).2 hn
        omega
      calc e * 2 ^ 52 + (f + 0) = 2 ^ 52 * (e + 1) + m % 2 ^ 52 := by rw [hf]; ring
        _ = m := by rw [← hq]; exact Nat.div_add_mod m (2 ^ 52)
    rw [hval]
    exact Nat.min_eq_left (Nat.le_of_lt hm)

/-! ## What rounding does -/

/-- The magnitude at exponent `k` and significand `m` up to a carry: the code is `k * 2^52 + m`. -/
theorem magUnits_code {k m : Nat} (hm : m ≤ 2 ^ 53) (hk : 0 < k → 2 ^ 52 ≤ m) : magUnits (k * 2 ^ 52 + m) = m * 2 ^ k := by
  rcases Nat.lt_or_ge (k * 2 ^ 52 + m) (2 ^ 52) with h | h
  · have hk0 : k = 0 := by
      by_contra h0; have := hk (by omega); omega
    subst hk0
    rw [magUnits, if_pos h]; omega
  · rw [magUnits_normal h]
    rcases Nat.lt_or_ge m (2 ^ 52) with h1 | h1
    · exfalso
      rcases Nat.eq_zero_or_pos k with rfl | h0
      · omega
      · have := hk h0; omega
    rcases Nat.lt_or_ge m (2 ^ 53) with h2 | h2
    · have hq : (k * 2 ^ 52 + m) / 2 ^ 52 = k + 1 := by omega
      have hr : (k * 2 ^ 52 + m) % 2 ^ 52 = m - 2 ^ 52 := by omega
      rw [hq, hr, Nat.add_sub_cancel' h1, Nat.add_sub_cancel]
    · have hq : (k * 2 ^ 52 + m) / 2 ^ 52 = k + 2 := by omega
      have hr : (k * 2 ^ 52 + m) % 2 ^ 52 = 0 := by omega
      have hm' : m = 2 ^ 53 := Nat.le_antisymm hm h2
      rw [hq, hr, hm', Nat.add_zero, ← Nat.pow_add, ← Nat.pow_add, show 52 + (k + 2 - 1) = 53 + k by omega]

theorem magUnits_lt_succ (m : Nat) : magUnits m < magUnits (m + 1) := by
  rcases Nat.lt_or_ge m (2 ^ 52) with h | h
  · have h1 : magUnits m = m := by simpa using magUnits_code (k := 0) (m := m) (by omega) (by omega)
    have h2 : magUnits (m + 1) = m + 1 := by simpa using magUnits_code (k := 0) (m := m + 1) (by omega) (by omega)
    omega
  · have e : m = (m / 2 ^ 52 - 1) * 2 ^ 52 + (2 ^ 52 + m % 2 ^ 52) := by omega
    have h1 := magUnits_code (k := m / 2 ^ 52 - 1) (m := 2 ^ 52 + m % 2 ^ 52) (by omega) (by omega)
    have h2 := magUnits_code (k := m / 2 ^ 52 - 1) (m := 2 ^ 52 + m % 2 ^ 52 + 1) (by omega) (by omega)
    rw [← Nat.add_assoc, ← e] at h2
    rw [← e] at h1
    rw [h1, h2]
    exact Nat.mul_lt_mul_of_pos_right (by omega) (by positivity)

/-- The order of magnitude codes is the order of magnitudes. -/
theorem magUnits_strictMono : StrictMono magUnits := strictMono_nat_of_lt_succ magUnits_lt_succ

theorem magUnits_pos {m : Nat} (h : 0 < m) : 0 < magUnits m := lt_of_le_of_lt (Nat.zero_le (magUnits 0)) (magUnits_strictMono h)

/-- Before the cut at infinity, a rounded magnitude is the code of the magnitude at or below the fraction, or the next code, whichever
is nearer, and the even one halfway. -/
theorem roundMag_eq (num : Nat) {den : Nat} (hd : 0 < den) :
    ∃ c, magUnits c * den ≤ num ∧ num < magUnits (c + 1) * den ∧
      ∃ up : Bool, roundMag num den = min (c + if up then 1 else 0) infMag ∧
        (up = true ↔ (magUnits c * den + magUnits (c + 1) * den < 2 * num ∨
          (magUnits c * den + magUnits (c + 1) * den = 2 * num ∧ c % 2 = 1))) := by
  set k := (num / den).log2 - 52 with hk
  set step := den <<< k with hstep
  set m := num / step with hm
  have hse : step = den * 2 ^ k := by rw [hstep, Nat.shiftLeft_eq]
  have hs : 0 < step := by rw [hse]; positivity
  have hmq : m = num / den / 2 ^ k := by rw [hm, hse, Nat.div_div_eq_div_mul]
  have hlt : num / den < 2 ^ (k + 53) := by
    rcases Nat.eq_zero_or_pos (num / den) with h0 | h0
    · rw [h0]; positivity
    · exact (Nat.log2_lt (by omega)).1 (by omega)
  have hm53 : m < 2 ^ 53 := by
    rw [hmq, Nat.div_lt_iff_lt_mul (by positivity), ← Nat.pow_add, Nat.add_comm]; exact hlt
  have hm52 : 0 < k → 2 ^ 52 ≤ m := by
    intro h
    rw [hmq, Nat.le_div_iff_mul_le (by positivity), ← Nat.pow_add]
    have h0 : num / den ≠ 0 := by intro h0; rw [h0] at hk; simp at hk; omega
    have := (Nat.le_log2 h0 (k := 52 + k)).1 (by omega)
    exact this
  have hF : magUnits (k * 2 ^ 52 + m) = m * 2 ^ k := magUnits_code (by omega) hm52
  have hC : magUnits (k * 2 ^ 52 + m + 1) = (m + 1) * 2 ^ k := by
    rw [Nat.add_assoc]; exact magUnits_code (by omega) fun h => by have := hm52 h; omega
  have e1 : magUnits (k * 2 ^ 52 + m) * den = step * m := by rw [hF, hse]; ring
  have e2 : magUnits (k * 2 ^ 52 + m + 1) * den = step * m + step := by rw [hC, hse]; ring
  have hdm := Nat.div_add_mod num step
  have hml := Nat.mod_lt num hs
  rw [← hm] at hdm
  refine ⟨k * 2 ^ 52 + m, by omega, by omega, _, by rw [Nat.add_assoc]; rfl, ?_⟩
  rw [e1, e2]
  show (decide (step < 2 * (num % step)) || (decide (2 * (num % step) = step) && decide (m % 2 = 1))) = true ↔ _
  have hpar : (k * 2 ^ 52 + m) % 2 = m % 2 := by omega
  simp only [Bool.or_eq_true, Bool.and_eq_true, decide_eq_true_eq, hpar]
  omega

/-- What rounding a magnitude does, once and for all: the result is at least as near to the fraction as every finite magnitude, and even
where another one is as near. -/
theorem roundMag_nearest (num : Nat) {den m : Nat} (hd : 0 < den) (hr : roundMag num den < infMag) (hm : m < infMag) :
    |(num : ℤ) - magUnits (roundMag num den) * den| ≤ |(num : ℤ) - magUnits m * den| ∧
      (|(num : ℤ) - magUnits (roundMag num den) * den| = |(num : ℤ) - magUnits m * den| → m ≠ roundMag num den →
        roundMag num den % 2 = 0) := by
  obtain ⟨c, hlo, hhi, up, hru, hup⟩ := roundMag_eq num hd
  have hru' : roundMag num den = c + if up then 1 else 0 := by
    rw [hru] at hr ⊢; omega
  have mono : ∀ {a b : Nat}, a ≤ b → magUnits a * den ≤ magUnits b * den := fun h =>
    Nat.mul_le_mul_right _ (magUnits_strictMono.monotone h)
  have monolt : ∀ {a b : Nat}, a < b → magUnits a * den < magUnits b * den := fun h =>
    Nat.mul_lt_mul_of_pos_right (magUnits_strictMono h) hd
  have key : ∀ r : Nat, r * den = r * den := fun _ => rfl
  rcases Nat.lt_trichotomy m c with h | rfl | h
  · have h1 := monolt h
    cases up
    · simp only [Bool.false_eq_true, if_false, Nat.add_zero] at hru'
      rw [hru']
      zify at *
      rw [abs_of_nonneg (by linarith), abs_of_nonneg (by linarith)]
      exact ⟨by linarith, fun h _ => by linarith⟩
    · simp only [if_true, true_iff] at hru' hup
      rw [hru']
      zify at *
      rw [abs_of_nonpos (by linarith), abs_of_nonneg (by linarith)]
      refine ⟨by rcases hup with h | h <;> linarith, fun h _ => by rcases hup with h | h <;> linarith⟩
  · cases up
    · simp only [Bool.false_eq_true, if_false, Nat.add_zero] at hru'
      rw [hru']; exact ⟨le_refl _, fun _ h => absurd rfl h⟩
    · simp only [if_true, true_iff] at hru' hup
      rw [hru']
      have hodd : magUnits m * den + magUnits (m + 1) * den = 2 * num → m % 2 = 1 := fun h => by
        rcases hup with h' | h'
        · omega
        · exact h'.2
      have e2 : m % 2 = 1 → (m + 1) % 2 = 0 := by omega
      have hup' : magUnits m * den + magUnits (m + 1) * den ≤ 2 * num := by omega
      zify at hlo hhi hup'
      rw [abs_of_nonpos (by linarith), abs_of_nonneg (by linarith)]
      refine ⟨by linarith, fun h _ => e2 (hodd ?_)⟩
      zify; linarith
  · have h1 := mono (Nat.succ_le_of_lt h)
    cases up
    · simp only [Bool.false_eq_true, if_false, Nat.add_zero, false_iff, not_or, not_and] at hru' hup
      rw [hru']
      have hup' : 2 * num ≤ magUnits m * den + magUnits c * den := by
        have := hup.1; simp only [Nat.succ_eq_add_one] at h1; omega
      have heq : 2 * num = magUnits m * den + magUnits c * den → c % 2 = 0 := by
        intro h2; have := hup.1; have := hup.2; simp only [Nat.succ_eq_add_one] at h1; omega
      zify at hlo hhi h1 hup'
      rw [abs_of_nonneg (by linarith), abs_of_nonpos (by linarith)]
      refine ⟨by linarith, fun h _ => heq ?_⟩
      zify; linarith
    · simp only [if_true, true_iff] at hru' hup
      rw [hru']
      rcases Nat.eq_or_lt_of_le (Nat.succ_le_of_lt h) with h2 | h2
      · obtain rfl : m = c + 1 := h2.symm
        exact ⟨le_refl _, fun _ h => absurd rfl h⟩
      · have h3 := monolt h2
        simp only [Nat.succ_eq_add_one] at h1 h3
        zify at hlo hhi h1 h3
        rw [abs_of_nonpos (by linarith), abs_of_nonpos (by linarith)]
        exact ⟨by linarith, fun h _ => by linarith⟩

/-- Rounding keeps order: a fraction not above another rounds to a magnitude not above the other's. -/
theorem roundMag_mono {num den num' den' : Nat} (hd : 0 < den) (hd' : 0 < den') (h : num * den' ≤ num' * den) :
    roundMag num den ≤ roundMag num' den' := by
  obtain ⟨c, hlo, hhi, up, hru, hup⟩ := roundMag_eq num hd
  obtain ⟨c', hlo', hhi', up', hru', hup'⟩ := roundMag_eq num' hd'
  have hcc : c ≤ c' := by
    by_contra hc
    have h1 : magUnits (c' + 1) ≤ magUnits c := magUnits_strictMono.monotone (by omega)
    have : num' * den < num * den' := calc
      num' * den < magUnits (c' + 1) * den' * den := Nat.mul_lt_mul_of_pos_right hhi' hd
      _ ≤ magUnits c * den * den' := by
        rw [Nat.mul_right_comm]; exact Nat.mul_le_mul_right _ (Nat.mul_le_mul_right _ h1)
      _ ≤ num * den' := Nat.mul_le_mul_right _ hlo
    omega
  rw [hru, hru']
  rcases Nat.eq_or_lt_of_le hcc with rfl | hlt
  · have : up = true → up' = true := by
      rw [hup, hup']
      rintro (h1 | ⟨h1, h2⟩)
      · left
        have h3 : (magUnits c + magUnits (c + 1)) * den * den' < 2 * num * den' :=
          Nat.mul_lt_mul_of_pos_right (by rw [Nat.add_mul]; exact h1) hd'
        have h4 : (magUnits c + magUnits (c + 1)) * den' * den < 2 * num' * den := by
          calc _ = (magUnits c + magUnits (c + 1)) * den * den' := by ring
            _ < 2 * num * den' := h3
            _ = 2 * (num * den') := by ring
            _ ≤ 2 * (num' * den) := Nat.mul_le_mul_left _ h
            _ = _ := by ring
        rw [← Nat.add_mul]; exact Nat.lt_of_mul_lt_mul_right h4
      · have h4 : (magUnits c + magUnits (c + 1)) * den' * den ≤ 2 * num' * den := by
          calc _ = (magUnits c * den + magUnits (c + 1) * den) * den' := by ring
            _ = 2 * (num * den') := by rw [h1]; ring
            _ ≤ 2 * (num' * den) := Nat.mul_le_mul_left _ h
            _ = _ := by ring
        have h5 := Nat.le_of_mul_le_mul_right h4 hd
        rw [Nat.add_mul] at h5
        rcases Nat.lt_or_eq_of_le h5 with h6 | h6
        · exact .inl h6
        · exact .inr ⟨h6, h2⟩
    cases up <;> cases up' <;> simp_all
  · cases up <;> cases up' <;> simp <;> omega

/-! ## Classes of patterns -/

@[simp] theorem isNaN_qNaN : isNaN qNaN = true := by simp [isNaN, magBits, infMag]

/-- A pattern is exactly one of NaN, infinite and finite. -/
theorem isFinite_iff (a : F64) : isFinite a = true ↔ isNaN a = false ∧ isInf a = false := by
  simp only [isFinite, isNaN, isInf, decide_eq_true_eq, decide_eq_false_iff_not]; omega

end Sys2Proof.Laws
end

