-- ==== Sys2Proof/Laws/Grid.lean ====
section
/-! SUPPORT. The laws of the grid store: a read after a write, after a run of writes and after clearing written flags; that
every operation keeps the canonical form; and that canonical stores with equal reads are equal. -/

namespace Sys2Proof.Laws

open Sys2Proof.Machine

/-- A read after a write gives the value written, and every other cell is left alone. -/
theorem gridRead_gridWrite (g : Memory) (a b : Nat) (v : Cx) :
    gridRead (gridWrite g a v) b = if b = a then some v else gridRead g b := by
  induction g with
  | nil => simp [gridWrite, gridRead]
  | cons e g ih =>
    obtain ⟨k, w⟩ := e
    simp only [gridWrite]
    split
    · simp [gridRead]
    · split
      · subst a; by_cases hb : b = k <;> simp [gridRead, hb]
      · by_cases hb : b = k
        · subst b
          have hka : k ≠ a := fun h => by omega
          simp [gridRead, hka]
        · simp [gridRead, hb, ih]

/-- A read after writing consecutive cells from `a` on. -/
theorem gridRead_gridWriteFrom (vs : List Cx) (g : Memory) (a b : Nat) :
    gridRead (gridWriteFrom g a vs) b =
      if a ≤ b ∧ b < a + vs.length then vs[b - a]? else gridRead g b := by
  induction vs generalizing g a with
  | nil =>
    have h : ¬(a ≤ b ∧ b < a + ([] : List Cx).length) := by simp
    rw [if_neg h]; rfl
  | cons v vs ih =>
    simp only [gridWriteFrom, ih, gridRead_gridWrite, List.length_cons]
    by_cases h1 : a + 1 ≤ b ∧ b < a + 1 + vs.length
    · have h2 : a ≤ b ∧ b < a + (vs.length + 1) := by omega
      have h3 : b - a = (b - (a + 1)) + 1 := by omega
      rw [if_pos h1, if_pos h2, h3, List.getElem?_cons_succ]
    · rw [if_neg h1]
      by_cases h2 : b = a
      · subst b; simp
      · have h3 : ¬(a ≤ b ∧ b < a + (vs.length + 1)) := by omega
        rw [if_neg h2, if_neg h3]

/-- A read inside a run of writes. -/
theorem gridRead_gridWriteFrom_inside (vs : List Cx) (g : Memory) (a i : Nat) (h : i < vs.length) :
    gridRead (gridWriteFrom g a vs) (a + i) = vs[i]? := by
  rw [gridRead_gridWriteFrom, if_pos (by omega)]; congr 1; omega

/-- A read outside a run of writes. -/
theorem gridRead_gridWriteFrom_outside (vs : List Cx) (g : Memory) (a b : Nat) (h : b < a ∨ a + vs.length ≤ b) :
    gridRead (gridWriteFrom g a vs) b = gridRead g b := by
  rw [gridRead_gridWriteFrom, if_neg (by omega)]

/-- A read after clearing written flags. -/
theorem gridRead_gridUnwrite (g : Memory) (p : Nat → Bool) (a : Nat) :
    gridRead (gridUnwrite g p) a = if p a then none else gridRead g a := by
  unfold gridUnwrite
  induction g with
  | nil => simp [gridRead]
  | cons e g ih =>
    obtain ⟨k, w⟩ := e
    by_cases ha : a = k
    · subst a
      cases hp : p k
      · rw [hp] at ih; simp [hp, gridRead]
      · rw [hp] at ih; simpa [List.filter_cons, hp] using ih
    · cases hp : p k <;> simp [hp, gridRead, ha, ih]

/-- The canonical form as a relation on the list of addresses: each is below all later ones. -/
theorem wf_iff_pairwise (g : Memory) : Memory.wf g = true ↔ g.Pairwise (fun e f => e.1 < f.1) := by
  induction g with
  | nil => simp [Memory.wf]
  | cons e g ih =>
    cases g with
    | nil => simp [Memory.wf]
    | cons f g =>
      obtain ⟨a, v⟩ := e
      obtain ⟨b, w⟩ := f
      simp only [Memory.wf, Bool.and_eq_true, decide_eq_true_eq, ih]
      constructor
      · rintro ⟨hab, hg⟩
        refine List.pairwise_cons.2 ⟨fun c hc => ?_, hg⟩
        rcases List.mem_cons.1 hc with rfl | hc
        · exact hab
        · exact Nat.lt_trans hab ((List.pairwise_cons.1 hg).1 c hc)
      · intro h
        exact ⟨(List.pairwise_cons.1 h).1 (b, w) (by simp), (List.pairwise_cons.1 h).2⟩

/-- The addresses of a store after a write. -/
theorem mem_gridWrite {g : Memory} {a : Nat} {v : Cx} {e : Nat × Cx} (h : e ∈ gridWrite g a v) :
    e = (a, v) ∨ e ∈ g := by
  induction g with
  | nil => simpa [gridWrite] using h
  | cons f g ih =>
    obtain ⟨k, w⟩ := f
    simp only [gridWrite] at h
    split at h
    · simpa using h
    · split at h
      · rcases List.mem_cons.1 h with h | h
        · exact .inl h
        · exact .inr (List.mem_cons_of_mem _ h)
      · rcases List.mem_cons.1 h with h | h
        · exact .inr (h ▸ List.mem_cons_self)
        · exact (ih h).imp_right (List.mem_cons_of_mem _)

/-- A write keeps the canonical form. -/
theorem gridWrite_wf {g : Memory} (a : Nat) (v : Cx) (h : Memory.wf g = true) :
    Memory.wf (gridWrite g a v) = true := by
  rw [wf_iff_pairwise] at h ⊢
  induction g with
  | nil => simp [gridWrite]
  | cons f g ih =>
    obtain ⟨k, w⟩ := f
    have hk := List.pairwise_cons.1 h
    simp only [gridWrite]
    split
    · rename_i hak
      refine List.pairwise_cons.2 ⟨fun e he => ?_, h⟩
      rcases List.mem_cons.1 he with rfl | he
      · exact hak
      · exact Nat.lt_trans hak (hk.1 e he)
    · split
      · subst a; exact List.pairwise_cons.2 ⟨hk.1, hk.2⟩
      · refine List.pairwise_cons.2 ⟨fun e he => ?_, ih hk.2⟩
        rcases mem_gridWrite he with rfl | he
        · show k < a; omega
        · exact hk.1 e he

/-- A run of writes keeps the canonical form. -/
theorem gridWriteFrom_wf (vs : List Cx) {g : Memory} (a : Nat) (h : Memory.wf g = true) :
    Memory.wf (gridWriteFrom g a vs) = true := by
  induction vs generalizing g a with
  | nil => exact h
  | cons v vs ih => exact ih (a + 1) (gridWrite_wf a v h)

/-- Clearing written flags keeps the canonical form. -/
theorem gridUnwrite_wf {g : Memory} (p : Nat → Bool) (h : Memory.wf g = true) :
    Memory.wf (gridUnwrite g p) = true := by
  rw [wf_iff_pairwise] at h ⊢
  exact h.sublist List.filter_sublist

/-- The empty store, and so the store of `State.reset`, is canonical. -/
theorem reset_wf : Memory.wf State.reset.grid = true := rfl

/-- The addresses of a store after a run of writes. -/
theorem mem_gridWriteFrom {vs : List Cx} {g : Memory} {a : Nat} {e : Nat × Cx} (h : e ∈ gridWriteFrom g a vs) :
    (a ≤ e.1 ∧ e.1 < a + vs.length) ∨ e ∈ g := by
  induction vs generalizing g a with
  | nil => exact .inr h
  | cons v vs ih =>
    rcases ih h with h | h
    · exact .inl (by simp only [List.length_cons]; omega)
    · rcases mem_gridWrite h with rfl | h
      · exact .inl (by simp)
      · exact .inr h

/-- In a canonical store the first entry is the only one at its address. -/
theorem gridRead_lt_head {g : Memory} {a : Nat} (h : ∀ e ∈ g, a < e.1) : gridRead g a = none := by
  induction g with
  | nil => rfl
  | cons e g ih =>
    have he : a < e.1 := h e (by simp)
    obtain ⟨k, w⟩ := e
    have hne : a ≠ k := Nat.ne_of_lt he
    simp [gridRead, hne, ih fun f hf => h f (by simp [hf])]

/-- Equal memories are equal data: canonical stores whose every read agrees are the same list. -/
theorem eq_of_gridRead_eq {g k : Memory} (hg : Memory.wf g = true) (hk : Memory.wf k = true)
    (h : ∀ a, gridRead g a = gridRead k a) : g = k := by
  rw [wf_iff_pairwise] at hg hk
  induction g generalizing k with
  | nil =>
    cases k with
    | nil => rfl
    | cons f k => have := h f.1; simp [gridRead] at this
  | cons e g ih =>
    cases k with
    | nil => have := h e.1; simp [gridRead] at this
    | cons f k =>
      obtain ⟨a, v⟩ := e
      obtain ⟨b, w⟩ := f
      have ha := List.pairwise_cons.1 hg
      have hb := List.pairwise_cons.1 hk
      have hab : a = b := by
        by_contra hne
        rcases Nat.lt_or_gt_of_ne hne with hlt | hlt
        · have h1 := h a
          rw [gridRead_lt_head (g := (b, w) :: k)] at h1
          · simp [gridRead] at h1
          · intro f hf
            rcases List.mem_cons.1 hf with rfl | hf
            · exact hlt
            · exact Nat.lt_trans hlt (hb.1 f hf)
        · have h1 := h b
          rw [gridRead_lt_head (g := (a, v) :: g)] at h1
          · simp [gridRead] at h1
          · intro f hf
            rcases List.mem_cons.1 hf with rfl | hf
            · exact hlt
            · exact Nat.lt_trans hlt (ha.1 f hf)
      subst b
      have hvw : v = w := by simpa [gridRead] using h a
      subst w
      have htail : g = k := by
        refine ih ha.2 hb.2 fun c => ?_
        by_cases hc : c = a
        · subst c; rw [gridRead_lt_head ha.1, gridRead_lt_head hb.1]
        · simpa [gridRead, hc] using h c
      rw [htail]

end Sys2Proof.Laws
end

