-- ==== Sys2Proof/Laws/State.lean ====
section
/-! SUPPORT. One lemma a field for every update of the state and of STATUS, so that no later proof unfolds a record update. -/

namespace Sys2Proof.Laws

open Sys2Proof.Machine

/-! Completion changes STATUS alone (30_encoding.md R97). -/

@[simp] theorem complete_build (s : State) : (complete s).build = s.build := rfl
@[simp] theorem complete_status (s : State) : (complete s).status = s.status.complete := rfl
@[simp] theorem complete_cmd (s : State) : (complete s).cmd = s.cmd := rfl
@[simp] theorem complete_opa (s : State) : (complete s).opa = s.opa := rfl
@[simp] theorem complete_opb (s : State) : (complete s).opb = s.opb := rfl
@[simp] theorem complete_res0 (s : State) : (complete s).res0 = s.res0 := rfl
@[simp] theorem complete_res1 (s : State) : (complete s).res1 = s.res1 := rfl
@[simp] theorem complete_renormEps (s : State) : (complete s).renormEps = s.renormEps := rfl
@[simp] theorem complete_irqEn (s : State) : (complete s).irqEn = s.irqEn := rfl
@[simp] theorem complete_latOpa (s : State) : (complete s).latOpa = s.latOpa := rfl
@[simp] theorem complete_latOpb (s : State) : (complete s).latOpb = s.latOpb := rfl
@[simp] theorem complete_latEps (s : State) : (complete s).latEps = s.latEps := rfl
@[simp] theorem complete_grid (s : State) : (complete s).grid = s.grid := rfl
@[simp] theorem complete_scratch (s : State) : (complete s).scratch = s.scratch := rfl
@[simp] theorem complete_faultlog (s : State) : (complete s).faultlog = s.faultlog := rfl
@[simp] theorem complete_resetPin (s : State) : (complete s).resetPin = s.resetPin := rfl
@[simp] theorem complete_events (s : State) : (complete s).events = s.events := rfl
@[simp] theorem complete_resp (s : State) : (complete s).resp = s.resp := rfl
@[simp] theorem complete_freeCtr (s : State) : (complete s).freeCtr = s.freeCtr := rfl

/-! An error changes STATUS and the fault log alone (60_exceptions.md R181). -/

@[simp] theorem raiseError_build (c : ErrCode) (s : State) : (raiseError c s).build = s.build := rfl
@[simp] theorem raiseError_status (c : ErrCode) (s : State) : (raiseError c s).status = s.status.raise c := rfl
@[simp] theorem raiseError_cmd (c : ErrCode) (s : State) : (raiseError c s).cmd = s.cmd := rfl
@[simp] theorem raiseError_opa (c : ErrCode) (s : State) : (raiseError c s).opa = s.opa := rfl
@[simp] theorem raiseError_opb (c : ErrCode) (s : State) : (raiseError c s).opb = s.opb := rfl
@[simp] theorem raiseError_res0 (c : ErrCode) (s : State) : (raiseError c s).res0 = s.res0 := rfl
@[simp] theorem raiseError_res1 (c : ErrCode) (s : State) : (raiseError c s).res1 = s.res1 := rfl
@[simp] theorem raiseError_renormEps (c : ErrCode) (s : State) : (raiseError c s).renormEps = s.renormEps := rfl
@[simp] theorem raiseError_irqEn (c : ErrCode) (s : State) : (raiseError c s).irqEn = s.irqEn := rfl
@[simp] theorem raiseError_latOpa (c : ErrCode) (s : State) : (raiseError c s).latOpa = s.latOpa := rfl
@[simp] theorem raiseError_latOpb (c : ErrCode) (s : State) : (raiseError c s).latOpb = s.latOpb := rfl
@[simp] theorem raiseError_latEps (c : ErrCode) (s : State) : (raiseError c s).latEps = s.latEps := rfl
@[simp] theorem raiseError_grid (c : ErrCode) (s : State) : (raiseError c s).grid = s.grid := rfl
@[simp] theorem raiseError_scratch (c : ErrCode) (s : State) : (raiseError c s).scratch = s.scratch := rfl
@[simp] theorem raiseError_faultlog (c : ErrCode) (s : State) : (raiseError c s).faultlog = s.faultlog ++ [.error c] := rfl
@[simp] theorem raiseError_resetPin (c : ErrCode) (s : State) : (raiseError c s).resetPin = s.resetPin := rfl
@[simp] theorem raiseError_events (c : ErrCode) (s : State) : (raiseError c s).events = s.events := rfl
@[simp] theorem raiseError_resp (c : ErrCode) (s : State) : (raiseError c s).resp = s.resp := rfl
@[simp] theorem raiseError_freeCtr (c : ErrCode) (s : State) : (raiseError c s).freeCtr = s.freeCtr := rfl

/-! A STATUS write changes STATUS alone (10_state.md R39). -/

@[simp] theorem writeStatus_build (v : Word) (s : State) : (writeStatus v s).build = s.build := rfl
@[simp] theorem writeStatus_status (v : Word) (s : State) : (writeStatus v s).status = s.status.writeOneToClear v := rfl
@[simp] theorem writeStatus_cmd (v : Word) (s : State) : (writeStatus v s).cmd = s.cmd := rfl
@[simp] theorem writeStatus_opa (v : Word) (s : State) : (writeStatus v s).opa = s.opa := rfl
@[simp] theorem writeStatus_opb (v : Word) (s : State) : (writeStatus v s).opb = s.opb := rfl
@[simp] theorem writeStatus_res0 (v : Word) (s : State) : (writeStatus v s).res0 = s.res0 := rfl
@[simp] theorem writeStatus_res1 (v : Word) (s : State) : (writeStatus v s).res1 = s.res1 := rfl
@[simp] theorem writeStatus_renormEps (v : Word) (s : State) : (writeStatus v s).renormEps = s.renormEps := rfl
@[simp] theorem writeStatus_irqEn (v : Word) (s : State) : (writeStatus v s).irqEn = s.irqEn := rfl
@[simp] theorem writeStatus_latOpa (v : Word) (s : State) : (writeStatus v s).latOpa = s.latOpa := rfl
@[simp] theorem writeStatus_latOpb (v : Word) (s : State) : (writeStatus v s).latOpb = s.latOpb := rfl
@[simp] theorem writeStatus_latEps (v : Word) (s : State) : (writeStatus v s).latEps = s.latEps := rfl
@[simp] theorem writeStatus_grid (v : Word) (s : State) : (writeStatus v s).grid = s.grid := rfl
@[simp] theorem writeStatus_scratch (v : Word) (s : State) : (writeStatus v s).scratch = s.scratch := rfl
@[simp] theorem writeStatus_faultlog (v : Word) (s : State) : (writeStatus v s).faultlog = s.faultlog := rfl
@[simp] theorem writeStatus_resetPin (v : Word) (s : State) : (writeStatus v s).resetPin = s.resetPin := rfl
@[simp] theorem writeStatus_events (v : Word) (s : State) : (writeStatus v s).events = s.events := rfl
@[simp] theorem writeStatus_resp (v : Word) (s : State) : (writeStatus v s).resp = s.resp := rfl
@[simp] theorem writeStatus_freeCtr (v : Word) (s : State) : (writeStatus v s).freeCtr = s.freeCtr := rfl

/-! The model fault changes the fault log, and uses free values (10_state.md R45). -/

@[simp] theorem uninitRead_build (s : State) : (uninitRead s).build = s.build := rfl
@[simp] theorem uninitRead_status (s : State) : (uninitRead s).status = s.status := rfl
@[simp] theorem uninitRead_cmd (s : State) : (uninitRead s).cmd = s.cmd := rfl
@[simp] theorem uninitRead_opa (s : State) : (uninitRead s).opa = s.opa := rfl
@[simp] theorem uninitRead_opb (s : State) : (uninitRead s).opb = s.opb := rfl
@[simp] theorem uninitRead_res0 (s : State) : (uninitRead s).res0 = s.res0 := rfl
@[simp] theorem uninitRead_res1 (s : State) : (uninitRead s).res1 = s.res1 := rfl
@[simp] theorem uninitRead_renormEps (s : State) : (uninitRead s).renormEps = s.renormEps := rfl
@[simp] theorem uninitRead_irqEn (s : State) : (uninitRead s).irqEn = s.irqEn := rfl
@[simp] theorem uninitRead_latOpa (s : State) : (uninitRead s).latOpa = s.latOpa := rfl
@[simp] theorem uninitRead_latOpb (s : State) : (uninitRead s).latOpb = s.latOpb := rfl
@[simp] theorem uninitRead_latEps (s : State) : (uninitRead s).latEps = s.latEps := rfl
@[simp] theorem uninitRead_grid (s : State) : (uninitRead s).grid = s.grid := rfl
@[simp] theorem uninitRead_scratch (s : State) : (uninitRead s).scratch = s.scratch := rfl
@[simp] theorem uninitRead_faultlog (s : State) : (uninitRead s).faultlog = s.faultlog ++ [.uninitRead] := rfl
@[simp] theorem uninitRead_resetPin (s : State) : (uninitRead s).resetPin = s.resetPin := rfl
@[simp] theorem uninitRead_events (s : State) : (uninitRead s).events = s.events := rfl
@[simp] theorem uninitRead_resp (s : State) : (uninitRead s).resp = s.resp := rfl
@[simp] theorem uninitRead_freeCtr (s : State) : (uninitRead s).freeCtr = s.freeCtr + 1 := rfl

/-! A cell write changes the grid store alone (00_scope.md R10). -/

@[simp] theorem writeCell_build (a : Nat) (v : Cx) (s : State) : (writeCell s a v).build = s.build := rfl
@[simp] theorem writeCell_status (a : Nat) (v : Cx) (s : State) : (writeCell s a v).status = s.status := rfl
@[simp] theorem writeCell_cmd (a : Nat) (v : Cx) (s : State) : (writeCell s a v).cmd = s.cmd := rfl
@[simp] theorem writeCell_opa (a : Nat) (v : Cx) (s : State) : (writeCell s a v).opa = s.opa := rfl
@[simp] theorem writeCell_opb (a : Nat) (v : Cx) (s : State) : (writeCell s a v).opb = s.opb := rfl
@[simp] theorem writeCell_res0 (a : Nat) (v : Cx) (s : State) : (writeCell s a v).res0 = s.res0 := rfl
@[simp] theorem writeCell_res1 (a : Nat) (v : Cx) (s : State) : (writeCell s a v).res1 = s.res1 := rfl
@[simp] theorem writeCell_renormEps (a : Nat) (v : Cx) (s : State) : (writeCell s a v).renormEps = s.renormEps := rfl
@[simp] theorem writeCell_irqEn (a : Nat) (v : Cx) (s : State) : (writeCell s a v).irqEn = s.irqEn := rfl
@[simp] theorem writeCell_latOpa (a : Nat) (v : Cx) (s : State) : (writeCell s a v).latOpa = s.latOpa := rfl
@[simp] theorem writeCell_latOpb (a : Nat) (v : Cx) (s : State) : (writeCell s a v).latOpb = s.latOpb := rfl
@[simp] theorem writeCell_latEps (a : Nat) (v : Cx) (s : State) : (writeCell s a v).latEps = s.latEps := rfl
@[simp] theorem writeCell_grid (a : Nat) (v : Cx) (s : State) : (writeCell s a v).grid = gridWrite s.grid a v := rfl
@[simp] theorem writeCell_scratch (a : Nat) (v : Cx) (s : State) : (writeCell s a v).scratch = s.scratch := rfl
@[simp] theorem writeCell_faultlog (a : Nat) (v : Cx) (s : State) : (writeCell s a v).faultlog = s.faultlog := rfl
@[simp] theorem writeCell_resetPin (a : Nat) (v : Cx) (s : State) : (writeCell s a v).resetPin = s.resetPin := rfl
@[simp] theorem writeCell_events (a : Nat) (v : Cx) (s : State) : (writeCell s a v).events = s.events := rfl
@[simp] theorem writeCell_resp (a : Nat) (v : Cx) (s : State) : (writeCell s a v).resp = s.resp := rfl
@[simp] theorem writeCell_freeCtr (a : Nat) (v : Cx) (s : State) : (writeCell s a v).freeCtr = s.freeCtr := rfl

/-! A bank write changes the grid store alone. -/

@[simp] theorem writeBank_build (d : Nat) (vs : List Cx) (s : State) : (writeBank s d vs).build = s.build := rfl
@[simp] theorem writeBank_status (d : Nat) (vs : List Cx) (s : State) : (writeBank s d vs).status = s.status := rfl
@[simp] theorem writeBank_cmd (d : Nat) (vs : List Cx) (s : State) : (writeBank s d vs).cmd = s.cmd := rfl
@[simp] theorem writeBank_opa (d : Nat) (vs : List Cx) (s : State) : (writeBank s d vs).opa = s.opa := rfl
@[simp] theorem writeBank_opb (d : Nat) (vs : List Cx) (s : State) : (writeBank s d vs).opb = s.opb := rfl
@[simp] theorem writeBank_res0 (d : Nat) (vs : List Cx) (s : State) : (writeBank s d vs).res0 = s.res0 := rfl
@[simp] theorem writeBank_res1 (d : Nat) (vs : List Cx) (s : State) : (writeBank s d vs).res1 = s.res1 := rfl
@[simp] theorem writeBank_renormEps (d : Nat) (vs : List Cx) (s : State) : (writeBank s d vs).renormEps = s.renormEps := rfl
@[simp] theorem writeBank_irqEn (d : Nat) (vs : List Cx) (s : State) : (writeBank s d vs).irqEn = s.irqEn := rfl
@[simp] theorem writeBank_latOpa (d : Nat) (vs : List Cx) (s : State) : (writeBank s d vs).latOpa = s.latOpa := rfl
@[simp] theorem writeBank_latOpb (d : Nat) (vs : List Cx) (s : State) : (writeBank s d vs).latOpb = s.latOpb := rfl
@[simp] theorem writeBank_latEps (d : Nat) (vs : List Cx) (s : State) : (writeBank s d vs).latEps = s.latEps := rfl
@[simp] theorem writeBank_grid (d : Nat) (vs : List Cx) (s : State) : (writeBank s d vs).grid = gridWriteFrom s.grid (cellAddr d 0) vs := rfl
@[simp] theorem writeBank_scratch (d : Nat) (vs : List Cx) (s : State) : (writeBank s d vs).scratch = s.scratch := rfl
@[simp] theorem writeBank_faultlog (d : Nat) (vs : List Cx) (s : State) : (writeBank s d vs).faultlog = s.faultlog := rfl
@[simp] theorem writeBank_resetPin (d : Nat) (vs : List Cx) (s : State) : (writeBank s d vs).resetPin = s.resetPin := rfl
@[simp] theorem writeBank_events (d : Nat) (vs : List Cx) (s : State) : (writeBank s d vs).events = s.events := rfl
@[simp] theorem writeBank_resp (d : Nat) (vs : List Cx) (s : State) : (writeBank s d vs).resp = s.resp := rfl
@[simp] theorem writeBank_freeCtr (d : Nat) (vs : List Cx) (s : State) : (writeBank s d vs).freeCtr = s.freeCtr := rfl

/-! A result in RES0 (10_state.md R41). -/

@[simp] theorem setRes0_build (v : F64) (s : State) : (setRes0 v s).build = s.build := rfl
@[simp] theorem setRes0_status (v : F64) (s : State) : (setRes0 v s).status = s.status := rfl
@[simp] theorem setRes0_cmd (v : F64) (s : State) : (setRes0 v s).cmd = s.cmd := rfl
@[simp] theorem setRes0_opa (v : F64) (s : State) : (setRes0 v s).opa = s.opa := rfl
@[simp] theorem setRes0_opb (v : F64) (s : State) : (setRes0 v s).opb = s.opb := rfl
@[simp] theorem setRes0_res0 (v : F64) (s : State) : (setRes0 v s).res0 = v := rfl
@[simp] theorem setRes0_res1 (v : F64) (s : State) : (setRes0 v s).res1 = s.res1 := rfl
@[simp] theorem setRes0_renormEps (v : F64) (s : State) : (setRes0 v s).renormEps = s.renormEps := rfl
@[simp] theorem setRes0_irqEn (v : F64) (s : State) : (setRes0 v s).irqEn = s.irqEn := rfl
@[simp] theorem setRes0_latOpa (v : F64) (s : State) : (setRes0 v s).latOpa = s.latOpa := rfl
@[simp] theorem setRes0_latOpb (v : F64) (s : State) : (setRes0 v s).latOpb = s.latOpb := rfl
@[simp] theorem setRes0_latEps (v : F64) (s : State) : (setRes0 v s).latEps = s.latEps := rfl
@[simp] theorem setRes0_grid (v : F64) (s : State) : (setRes0 v s).grid = s.grid := rfl
@[simp] theorem setRes0_scratch (v : F64) (s : State) : (setRes0 v s).scratch = s.scratch := rfl
@[simp] theorem setRes0_faultlog (v : F64) (s : State) : (setRes0 v s).faultlog = s.faultlog := rfl
@[simp] theorem setRes0_resetPin (v : F64) (s : State) : (setRes0 v s).resetPin = s.resetPin := rfl
@[simp] theorem setRes0_events (v : F64) (s : State) : (setRes0 v s).events = s.events := rfl
@[simp] theorem setRes0_resp (v : F64) (s : State) : (setRes0 v s).resp = s.resp := rfl
@[simp] theorem setRes0_freeCtr (v : F64) (s : State) : (setRes0 v s).freeCtr = s.freeCtr := rfl

/-! A result in RES0 and RES1 (10_state.md R41). -/

@[simp] theorem setRes_build (v : Cx) (s : State) : (setRes v s).build = s.build := rfl
@[simp] theorem setRes_status (v : Cx) (s : State) : (setRes v s).status = s.status := rfl
@[simp] theorem setRes_cmd (v : Cx) (s : State) : (setRes v s).cmd = s.cmd := rfl
@[simp] theorem setRes_opa (v : Cx) (s : State) : (setRes v s).opa = s.opa := rfl
@[simp] theorem setRes_opb (v : Cx) (s : State) : (setRes v s).opb = s.opb := rfl
@[simp] theorem setRes_res0 (v : Cx) (s : State) : (setRes v s).res0 = v.re := rfl
@[simp] theorem setRes_res1 (v : Cx) (s : State) : (setRes v s).res1 = v.im := rfl
@[simp] theorem setRes_renormEps (v : Cx) (s : State) : (setRes v s).renormEps = s.renormEps := rfl
@[simp] theorem setRes_irqEn (v : Cx) (s : State) : (setRes v s).irqEn = s.irqEn := rfl
@[simp] theorem setRes_latOpa (v : Cx) (s : State) : (setRes v s).latOpa = s.latOpa := rfl
@[simp] theorem setRes_latOpb (v : Cx) (s : State) : (setRes v s).latOpb = s.latOpb := rfl
@[simp] theorem setRes_latEps (v : Cx) (s : State) : (setRes v s).latEps = s.latEps := rfl
@[simp] theorem setRes_grid (v : Cx) (s : State) : (setRes v s).grid = s.grid := rfl
@[simp] theorem setRes_scratch (v : Cx) (s : State) : (setRes v s).scratch = s.scratch := rfl
@[simp] theorem setRes_faultlog (v : Cx) (s : State) : (setRes v s).faultlog = s.faultlog := rfl
@[simp] theorem setRes_resetPin (v : Cx) (s : State) : (setRes v s).resetPin = s.resetPin := rfl
@[simp] theorem setRes_events (v : Cx) (s : State) : (setRes v s).events = s.events := rfl
@[simp] theorem setRes_resp (v : Cx) (s : State) : (setRes v s).resp = s.resp := rfl
@[simp] theorem setRes_freeCtr (v : Cx) (s : State) : (setRes v s).freeCtr = s.freeCtr := rfl

/-! A bus error changes the response and the fault log alone (20_memory.md R72). -/

@[simp] theorem busError_build (s : State) : (busError s).build = s.build := rfl
@[simp] theorem busError_status (s : State) : (busError s).status = s.status := rfl
@[simp] theorem busError_cmd (s : State) : (busError s).cmd = s.cmd := rfl
@[simp] theorem busError_opa (s : State) : (busError s).opa = s.opa := rfl
@[simp] theorem busError_opb (s : State) : (busError s).opb = s.opb := rfl
@[simp] theorem busError_res0 (s : State) : (busError s).res0 = s.res0 := rfl
@[simp] theorem busError_res1 (s : State) : (busError s).res1 = s.res1 := rfl
@[simp] theorem busError_renormEps (s : State) : (busError s).renormEps = s.renormEps := rfl
@[simp] theorem busError_irqEn (s : State) : (busError s).irqEn = s.irqEn := rfl
@[simp] theorem busError_latOpa (s : State) : (busError s).latOpa = s.latOpa := rfl
@[simp] theorem busError_latOpb (s : State) : (busError s).latOpb = s.latOpb := rfl
@[simp] theorem busError_latEps (s : State) : (busError s).latEps = s.latEps := rfl
@[simp] theorem busError_grid (s : State) : (busError s).grid = s.grid := rfl
@[simp] theorem busError_scratch (s : State) : (busError s).scratch = s.scratch := rfl
@[simp] theorem busError_faultlog (s : State) : (busError s).faultlog = s.faultlog ++ [.busError] := rfl
@[simp] theorem busError_resetPin (s : State) : (busError s).resetPin = s.resetPin := rfl
@[simp] theorem busError_events (s : State) : (busError s).events = s.events := rfl
@[simp] theorem busError_resp (s : State) : (busError s).resp = .busError := rfl
@[simp] theorem busError_freeCtr (s : State) : (busError s).freeCtr = s.freeCtr := rfl

/-! Deassertion of reset (70_reset_and_hazards.md R210). -/

@[simp] theorem releaseReset_build (s : State) : (releaseReset s).build = s.build := rfl
@[simp] theorem releaseReset_status (s : State) : (releaseReset s).status = s.status := rfl
@[simp] theorem releaseReset_cmd (s : State) : (releaseReset s).cmd = s.cmd := rfl
@[simp] theorem releaseReset_opa (s : State) : (releaseReset s).opa = s.opa := rfl
@[simp] theorem releaseReset_opb (s : State) : (releaseReset s).opb = s.opb := rfl
@[simp] theorem releaseReset_res0 (s : State) : (releaseReset s).res0 = s.res0 := rfl
@[simp] theorem releaseReset_res1 (s : State) : (releaseReset s).res1 = s.res1 := rfl
@[simp] theorem releaseReset_renormEps (s : State) : (releaseReset s).renormEps = s.renormEps := rfl
@[simp] theorem releaseReset_irqEn (s : State) : (releaseReset s).irqEn = s.irqEn := rfl
@[simp] theorem releaseReset_latOpa (s : State) : (releaseReset s).latOpa = s.latOpa := rfl
@[simp] theorem releaseReset_latOpb (s : State) : (releaseReset s).latOpb = s.latOpb := rfl
@[simp] theorem releaseReset_latEps (s : State) : (releaseReset s).latEps = s.latEps := rfl
@[simp] theorem releaseReset_grid (s : State) : (releaseReset s).grid = s.grid := rfl
@[simp] theorem releaseReset_scratch (s : State) : (releaseReset s).scratch = s.scratch := rfl
@[simp] theorem releaseReset_faultlog (s : State) : (releaseReset s).faultlog = s.faultlog := rfl
@[simp] theorem releaseReset_resetPin (s : State) : (releaseReset s).resetPin = false := rfl
@[simp] theorem releaseReset_events (s : State) : (releaseReset s).events = s.events := rfl
@[simp] theorem releaseReset_resp (s : State) : (releaseReset s).resp = s.resp := rfl
@[simp] theorem releaseReset_freeCtr (s : State) : (releaseReset s).freeCtr = s.freeCtr := rfl

/-! The scratch storage and the free-value counter change when scratch is spoiled (10_state.md R52). -/

@[simp] theorem spoilScratch_build (s : State) : (spoilScratch s).build = s.build := rfl
@[simp] theorem spoilScratch_status (s : State) : (spoilScratch s).status = s.status := rfl
@[simp] theorem spoilScratch_cmd (s : State) : (spoilScratch s).cmd = s.cmd := rfl
@[simp] theorem spoilScratch_opa (s : State) : (spoilScratch s).opa = s.opa := rfl
@[simp] theorem spoilScratch_opb (s : State) : (spoilScratch s).opb = s.opb := rfl
@[simp] theorem spoilScratch_res0 (s : State) : (spoilScratch s).res0 = s.res0 := rfl
@[simp] theorem spoilScratch_res1 (s : State) : (spoilScratch s).res1 = s.res1 := rfl
@[simp] theorem spoilScratch_renormEps (s : State) : (spoilScratch s).renormEps = s.renormEps := rfl
@[simp] theorem spoilScratch_irqEn (s : State) : (spoilScratch s).irqEn = s.irqEn := rfl
@[simp] theorem spoilScratch_latOpa (s : State) : (spoilScratch s).latOpa = s.latOpa := rfl
@[simp] theorem spoilScratch_latOpb (s : State) : (spoilScratch s).latOpb = s.latOpb := rfl
@[simp] theorem spoilScratch_latEps (s : State) : (spoilScratch s).latEps = s.latEps := rfl
@[simp] theorem spoilScratch_grid (s : State) : (spoilScratch s).grid = s.grid := rfl
@[simp] theorem spoilScratch_faultlog (s : State) : (spoilScratch s).faultlog = s.faultlog := rfl
@[simp] theorem spoilScratch_resetPin (s : State) : (spoilScratch s).resetPin = s.resetPin := rfl
@[simp] theorem spoilScratch_events (s : State) : (spoilScratch s).events = s.events := rfl
@[simp] theorem spoilScratch_resp (s : State) : (spoilScratch s).resp = s.resp := rfl
@[simp] theorem spoilScratch_freeCtr (s : State) : (spoilScratch s).freeCtr = s.freeCtr + 1 := rfl
@[simp] theorem spoilScratch_scratch_length (s : State) : (spoilScratch s).scratch.length = s.build.n := by simp [spoilScratch]

/-! A hard reset (70_reset_and_hazards.md R210, 10_state.md R55). -/

@[simp] theorem hardReset_build (s : State) : (hardReset s).build = s.build := rfl
@[simp] theorem hardReset_status (s : State) : (hardReset s).status = Status.zero := rfl
@[simp] theorem hardReset_cmd (s : State) : (hardReset s).cmd = 0 := rfl
@[simp] theorem hardReset_opa (s : State) : (hardReset s).opa = 0 := rfl
@[simp] theorem hardReset_opb (s : State) : (hardReset s).opb = 0 := rfl
@[simp] theorem hardReset_res0 (s : State) : (hardReset s).res0 = 0 := rfl
@[simp] theorem hardReset_res1 (s : State) : (hardReset s).res1 = 0 := rfl
@[simp] theorem hardReset_renormEps (s : State) : (hardReset s).renormEps = Config.epsReset := rfl
@[simp] theorem hardReset_irqEn (s : State) : (hardReset s).irqEn = 0 := rfl
@[simp] theorem hardReset_latOpa (s : State) : (hardReset s).latOpa = 0 := rfl
@[simp] theorem hardReset_latOpb (s : State) : (hardReset s).latOpb = 0 := rfl
@[simp] theorem hardReset_latEps (s : State) : (hardReset s).latEps = 0 := rfl
@[simp] theorem hardReset_grid (s : State) : (hardReset s).grid = [] := rfl
@[simp] theorem hardReset_scratch (s : State) : (hardReset s).scratch = List.replicate s.build.n Cx.zero := rfl
@[simp] theorem hardReset_faultlog (s : State) : (hardReset s).faultlog = s.faultlog := rfl
@[simp] theorem hardReset_resetPin (s : State) : (hardReset s).resetPin = true := rfl
@[simp] theorem hardReset_events (s : State) : (hardReset s).events = s.events := rfl
@[simp] theorem hardReset_resp (s : State) : (hardReset s).resp = s.resp := rfl
@[simp] theorem hardReset_freeCtr (s : State) : (hardReset s).freeCtr = s.freeCtr := rfl

/-! Recording an unwritten read, or not, changes the fault log and the free-value counter alone (10_state.md R45). -/

@[simp] theorem noteRead_build (w : Bool) (s : State) : (noteRead w s).build = s.build := by cases w <;> rfl
@[simp] theorem noteRead_status (w : Bool) (s : State) : (noteRead w s).status = s.status := by cases w <;> rfl
@[simp] theorem noteRead_cmd (w : Bool) (s : State) : (noteRead w s).cmd = s.cmd := by cases w <;> rfl
@[simp] theorem noteRead_opa (w : Bool) (s : State) : (noteRead w s).opa = s.opa := by cases w <;> rfl
@[simp] theorem noteRead_opb (w : Bool) (s : State) : (noteRead w s).opb = s.opb := by cases w <;> rfl
@[simp] theorem noteRead_res0 (w : Bool) (s : State) : (noteRead w s).res0 = s.res0 := by cases w <;> rfl
@[simp] theorem noteRead_res1 (w : Bool) (s : State) : (noteRead w s).res1 = s.res1 := by cases w <;> rfl
@[simp] theorem noteRead_renormEps (w : Bool) (s : State) : (noteRead w s).renormEps = s.renormEps := by cases w <;> rfl
@[simp] theorem noteRead_irqEn (w : Bool) (s : State) : (noteRead w s).irqEn = s.irqEn := by cases w <;> rfl
@[simp] theorem noteRead_latOpa (w : Bool) (s : State) : (noteRead w s).latOpa = s.latOpa := by cases w <;> rfl
@[simp] theorem noteRead_latOpb (w : Bool) (s : State) : (noteRead w s).latOpb = s.latOpb := by cases w <;> rfl
@[simp] theorem noteRead_latEps (w : Bool) (s : State) : (noteRead w s).latEps = s.latEps := by cases w <;> rfl
@[simp] theorem noteRead_grid (w : Bool) (s : State) : (noteRead w s).grid = s.grid := by cases w <;> rfl
@[simp] theorem noteRead_scratch (w : Bool) (s : State) : (noteRead w s).scratch = s.scratch := by cases w <;> rfl
@[simp] theorem noteRead_resetPin (w : Bool) (s : State) : (noteRead w s).resetPin = s.resetPin := by cases w <;> rfl
@[simp] theorem noteRead_events (w : Bool) (s : State) : (noteRead w s).events = s.events := by cases w <;> rfl
@[simp] theorem noteRead_resp (w : Bool) (s : State) : (noteRead w s).resp = s.resp := by cases w <;> rfl
@[simp] theorem noteRead_written (s : State) : noteRead true s = s := rfl
@[simp] theorem noteRead_unwritten (s : State) : noteRead false s = uninitRead s := rfl

/-! Acceptance (10_state.md R40). -/

@[simp] theorem status_accept_busy (t : Status) : (t.accept).busy = true := rfl
@[simp] theorem status_accept_done (t : Status) : (t.accept).done = false := rfl
@[simp] theorem status_accept_err (t : Status) : (t.accept).err = t.err := rfl
@[simp] theorem status_accept_warn (t : Status) : (t.accept).warn = t.warn := rfl
@[simp] theorem status_accept_ovr (t : Status) : (t.accept).ovr = t.ovr := rfl
@[simp] theorem status_accept_errCode (t : Status) : (t.accept).errCode = t.errCode := rfl
@[simp] theorem status_accept_warnCode (t : Status) : (t.accept).warnCode = t.warnCode := rfl

/-! A dropped CMD write (10_state.md R40). -/

@[simp] theorem status_drop_busy (t : Status) : (t.drop).busy = t.busy := rfl
@[simp] theorem status_drop_done (t : Status) : (t.drop).done = t.done := rfl
@[simp] theorem status_drop_err (t : Status) : (t.drop).err = t.err := rfl
@[simp] theorem status_drop_warn (t : Status) : (t.drop).warn = t.warn := rfl
@[simp] theorem status_drop_ovr (t : Status) : (t.drop).ovr = true := rfl
@[simp] theorem status_drop_errCode (t : Status) : (t.drop).errCode = t.errCode := rfl
@[simp] theorem status_drop_warnCode (t : Status) : (t.drop).warnCode = t.warnCode := rfl

/-! Completion (30_encoding.md R97). -/

@[simp] theorem status_complete_busy (t : Status) : (t.complete).busy = false := rfl
@[simp] theorem status_complete_done (t : Status) : (t.complete).done = true := rfl
@[simp] theorem status_complete_err (t : Status) : (t.complete).err = t.err := rfl
@[simp] theorem status_complete_warn (t : Status) : (t.complete).warn = t.warn := rfl
@[simp] theorem status_complete_ovr (t : Status) : (t.complete).ovr = t.ovr := rfl
@[simp] theorem status_complete_errCode (t : Status) : (t.complete).errCode = t.errCode := rfl
@[simp] theorem status_complete_warnCode (t : Status) : (t.complete).warnCode = t.warnCode := rfl

/-! An error (60_exceptions.md R181). -/

@[simp] theorem status_raise_busy (c : ErrCode) (t : Status) : (t.raise c).busy = false := rfl
@[simp] theorem status_raise_done (c : ErrCode) (t : Status) : (t.raise c).done = true := rfl
@[simp] theorem status_raise_err (c : ErrCode) (t : Status) : (t.raise c).err = true := rfl
@[simp] theorem status_raise_warn (c : ErrCode) (t : Status) : (t.raise c).warn = t.warn := rfl
@[simp] theorem status_raise_ovr (c : ErrCode) (t : Status) : (t.raise c).ovr = t.ovr := rfl
@[simp] theorem status_raise_errCode (c : ErrCode) (t : Status) : (t.raise c).errCode = c.code := rfl
@[simp] theorem status_raise_warnCode (c : ErrCode) (t : Status) : (t.raise c).warnCode = t.warnCode := rfl

/-! RENORM's diagnostic (41_grid_reduction.md R138). -/

@[simp] theorem status_nearZero_busy (t : Status) : (t.nearZero).busy = t.busy := rfl
@[simp] theorem status_nearZero_done (t : Status) : (t.nearZero).done = t.done := rfl
@[simp] theorem status_nearZero_err (t : Status) : (t.nearZero).err = t.err := rfl
@[simp] theorem status_nearZero_warn (t : Status) : (t.nearZero).warn = true := rfl
@[simp] theorem status_nearZero_ovr (t : Status) : (t.nearZero).ovr = t.ovr := rfl
@[simp] theorem status_nearZero_errCode (t : Status) : (t.nearZero).errCode = t.errCode := rfl
@[simp] theorem status_nearZero_warnCode (t : Status) : (t.nearZero).warnCode = wNearZero := rfl

end Sys2Proof.Laws
end

