-- ==== Sys2Proof/Laws/Ops.lean ====
section
/-! SUPPORT. What each shared operation can do, said once: performing a command, reading a cell, reading and rewriting a
bank; that every command answers a next state and what no command changes; and the cases of a step. -/

namespace Sys2Proof.Laws

open Sys2Proof.Machine

/-! ## Performing a command -/

/-- A command either ends with the error of its checks, or completes its rule. -/
theorem perform_cases {c : Option ErrCode} {f : State → State} {s t : State} (h : perform c f s = .next t) :
    (∃ e, c = some e ∧ t = raiseError e s) ∨ (c = none ∧ t = complete (f s)) := by
  cases c with
  | none => exact .inr ⟨rfl, by simpa [perform] using h.symm⟩
  | some e => exact .inl ⟨e, rfl, by simpa [perform] using h.symm⟩

@[simp] theorem perform_none (f : State → State) (s : State) : perform none f s = .next (complete (f s)) := rfl

@[simp] theorem perform_some (e : ErrCode) (f : State → State) (s : State) :
    perform (some e) f s = .next (raiseError e s) := rfl

/-- The checks of a format C command pass exactly in range (60_exceptions.md R182). -/
theorem cellError_eq_none {b : Build} {d x y : Nat} :
    cellError b d x y = none ↔ d < b.nbanks ∧ x < b.n ∧ y < b.n := by
  unfold cellError
  by_cases h1 : b.nbanks ≤ d
  · simp [h1]
  · by_cases h2 : b.n ≤ x ∨ b.n ≤ y
    · simp only [h1, h2, if_true, if_false]; constructor
      · simp
      · omega
    · simp only [h1, h2, if_false]; constructor
      · intro _; omega
      · simp

/-- The check of a format G command passes exactly in range (60_exceptions.md R182). -/
theorem gridError_eq_none {b : Build} {d : Nat} : gridError b d = none ↔ d < b.nbanks := by
  unfold gridError; split <;> simp <;> omega

/-- The check of COPY passes exactly in range (60_exceptions.md R182). -/
theorem copyError_eq_none {b : Build} {d s : Nat} : copyError b d s = none ↔ d < b.nbanks ∧ s < b.nbanks := by
  unfold copyError; split <;> simp <;> omega

/-! ## Cells -/

/-- A flat index is inside the bank (00_scope.md R23). -/
theorem flatIdx_lt {b : Build} {x y : Nat} (hx : x < b.n) (hy : y < b.n) : flatIdx b x y < b.cells := by
  unfold flatIdx Build.cells
  calc y * b.n + x < y * b.n + b.n := by omega
    _ = (y + 1) * b.n := by rw [Nat.succ_mul]
    _ ≤ b.n * b.n := Nat.mul_le_mul_right _ hy

/-- A bank of a legal build fits its place in the grid store (00_scope.md R23). -/
theorem cells_le {b : Build} (h : b.wf = true) : b.cells ≤ bankStride := by
  have hl : b.log2n ≤ 15 := by
    simp only [Build.wf, Bool.and_eq_true, decide_eq_true_eq] at h; exact h.1.1.1
  have hn : b.n ≤ 2 ^ 15 := Nat.pow_le_pow_right (by decide) hl
  calc b.n * b.n ≤ 2 ^ 15 * 2 ^ 15 := Nat.mul_le_mul hn hn
    _ = bankStride := by decide

theorem cellAddr_add (d i : Nat) : cellAddr d 0 + i = cellAddr d i := by simp [cellAddr]

/-- The bank of an address. -/
theorem cellAddr_div {d i : Nat} (h : i < bankStride) : cellAddr d i / bankStride = d := by
  unfold cellAddr bankStride at *; omega

/-- The flat index of an address. -/
theorem cellAddr_mod {d i : Nat} (h : i < bankStride) : cellAddr d i % bankStride = i := by
  unfold cellAddr bankStride at *; omega

theorem cellBits_written {s : State} {a : Nat} {v : Cx} (h : gridRead s.grid a = some v) : cellBits s a = v := by
  simp [cellBits, h]

theorem cellWritten_written {s : State} {a : Nat} {v : Cx} (h : gridRead s.grid a = some v) :
    cellWritten s a = true := by
  simp [cellWritten, h]

/-- Reading a written cell: its bits are used and nothing is recorded (10_state.md R45). -/
theorem readCellInto_written {a : Nat} {f : Cx → State → State} {s : State} {v : Cx}
    (h : gridRead s.grid a = some v) : readCellInto a f s = f v s := by
  simp [readCellInto, cellBits_written h, cellWritten_written h]

/-- Reading an unwritten cell: free bits are used, and it is recorded (10_state.md R45). -/
theorem readCellInto_unwritten {a : Nat} {f : Cx → State → State} {s : State}
    (h : gridRead s.grid a = none) : readCellInto a f s = uninitRead (f (freeCell s.freeCtr a) s) := by
  simp [readCellInto, cellBits, cellWritten, h]

/-! ## Banks -/

/-- The bits of a written bank, in ascending flat index. -/
theorem bankBits_written {s : State} {d : Nat} {v : Nat → Cx}
    (h : ∀ i, i < s.build.cells → gridRead s.grid (cellAddr d i) = some (v i)) :
    bankBits s d = (List.range s.build.cells).map v :=
  List.map_congr_left fun i hi => cellBits_written (h i (by simpa using hi))

/-- A bank is written when all its cells are. -/
theorem bankWritten_written {s : State} {d : Nat} {v : Nat → Cx}
    (h : ∀ i, i < s.build.cells → gridRead s.grid (cellAddr d i) = some (v i)) : bankWritten s d = true := by
  simp only [bankWritten, List.all_eq_true, List.mem_range]
  exact fun i hi => cellWritten_written (h i hi)

/-- A bank with an unwritten cell is not written. -/
theorem bankWritten_unwritten {s : State} {d i : Nat} (hi : i < s.build.cells)
    (h : gridRead s.grid (cellAddr d i) = none) : bankWritten s d = false := by
  rw [bankWritten, List.all_eq_false]
  exact ⟨i, by simpa using hi, by simp [cellWritten, h]⟩

@[simp] theorem bankBits_length (s : State) (d : Nat) : (bankBits s d).length = s.build.cells := by simp [bankBits]

/-- Rewriting a bank either records an unwritten read and writes no cell, or writes the whole bank. -/
theorem rewriteBank_cases (d src : Nat) (f : List Cx → List Cx) (s : State) :
    (bankWritten s src = false ∧ rewriteBank d src f s = uninitRead s) ∨
    (bankWritten s src = true ∧ rewriteBank d src f s = writeBank s d (f (bankBits s src))) := by
  cases h : bankWritten s src
  · exact .inl ⟨rfl, by simp [rewriteBank, h]⟩
  · exact .inr ⟨rfl, by simp [rewriteBank, h]⟩

/-- Rewriting from a written bank. -/
theorem rewriteBank_written {d src : Nat} {f : List Cx → List Cx} {s : State} {v : Nat → Cx}
    (h : ∀ i, i < s.build.cells → gridRead s.grid (cellAddr src i) = some (v i)) :
    rewriteBank d src f s = writeBank s d (f ((List.range s.build.cells).map v)) := by
  simp [rewriteBank, bankWritten_written h, bankBits_written h]

/-- The cells of a bank after it is written. -/
theorem writeBank_inside {s : State} {d i : Nat} {vs : List Cx} (h : i < vs.length) :
    gridRead (writeBank s d vs).grid (cellAddr d i) = vs[i]? := by
  rw [writeBank_grid, ← cellAddr_add d i, gridRead_gridWriteFrom_inside _ _ _ _ h]

/-- Every other cell after a bank is written. -/
theorem writeBank_outside {s : State} {d a : Nat} {vs : List Cx}
    (h : a < cellAddr d 0 ∨ cellAddr d vs.length ≤ a) : gridRead (writeBank s d vs).grid a = gridRead s.grid a := by
  rw [writeBank_grid, gridRead_gridWriteFrom_outside _ _ _ _ (by rwa [cellAddr_add])]

@[simp] theorem scaleCells_length (f : F64) (vs : List Cx) : (scaleCells f vs).length = vs.length := by
  simp [scaleCells]

/-! ## Every command -/

/-- What no command changes, whatever its end: every register and input the host owns, and the build. -/
def Kept (s t : State) : Prop :=
  t.build = s.build ∧ t.cmd = s.cmd ∧ t.opa = s.opa ∧ t.opb = s.opb ∧ t.renormEps = s.renormEps ∧ t.irqEn = s.irqEn ∧
    t.latOpa = s.latOpa ∧ t.latOpb = s.latOpb ∧ t.latEps = s.latEps ∧ t.resetPin = s.resetPin ∧ t.events = s.events ∧
    t.resp = s.resp

theorem kept_raiseError (e : ErrCode) (s : State) : Kept s (raiseError e s) := by simp [Kept]

theorem kept_readCellInto {a : Nat} {f : Cx → State → State} {s : State} (h : ∀ v, Kept s (f v s)) :
    Kept s (readCellInto a f s) := by
  simpa [Kept, readCellInto] using h (cellBits s a)

theorem kept_rewriteBank (d src : Nat) (f : List Cx → List Cx) (s : State) : Kept s (rewriteBank d src f s) := by
  rcases rewriteBank_cases d src f s with ⟨-, h⟩ | ⟨-, h⟩ <;> simp [h, Kept]

theorem kept_renormBank (d : Nat) (s : State) : Kept s (renormBank d s) := by
  unfold renormBank
  simp only
  split
  · simp [Kept]
  · simpa [Kept] using kept_rewriteBank d d _ (setRes0 (sumSquares (bankBits s d)) s)

theorem kept_perform {c : Option ErrCode} {f : State → State} {s t : State} (h : perform c f s = .next t)
    (hf : Kept s (f s)) : Kept s t := by
  rcases perform_cases h with ⟨e, -, rfl⟩ | ⟨-, rfl⟩
  · exact kept_raiseError e s
  · simpa [Kept] using hf

/-- Every command answers a next state. -/
theorem exec_answers (i : Instr) (s : State) : ∃ t, exec i s = .next t := by
  have h : ∀ (c : Option ErrCode) (f : State → State), ∃ t, perform c f s = .next t := by
    intro c f; cases c <;> exact ⟨_, rfl⟩
  cases i <;> simp only [exec, execGet, execSet, execMag2, execMag, execPhase, execZeroCell, execScale, execCopy, execSumsq, execRenorm,
    execFftFwd, execFftInv] <;> exact h _ _

/-- No command changes what the host owns (30_encoding.md R97, 60_exceptions.md R181). -/
theorem exec_kept {i : Instr} {s t : State} (h : exec i s = .next t) : Kept s t := by
  cases i <;> simp only [exec, execGet, execSet, execMag2, execMag, execPhase, execZeroCell, execScale, execCopy, execSumsq, execRenorm,
    execFftFwd, execFftInv] at h
  case get d x y => exact kept_perform h (kept_readCellInto fun v => by simp [Kept])
  case set d x y => exact kept_perform h (by simp [Kept])
  case mag2 d x y => exact kept_perform h (kept_readCellInto fun v => by simp [Kept])
  case mag d x y => exact kept_perform h (kept_readCellInto fun v => by simp [Kept])
  case phase d x y => exact kept_perform h (kept_readCellInto fun v => by simp [Kept])
  case zeroCell d x y => exact kept_perform h (by simp [Kept])
  case scale d => exact kept_perform h (kept_rewriteBank _ _ _ _)
  case copy d src => exact kept_perform h (kept_rewriteBank _ _ _ _)
  case sumsq d => exact kept_perform h (by simp [Kept])
  case renorm d => exact kept_perform h (kept_renormBank _ _)
  case fftFwd d => exact kept_perform h (by simpa [Kept] using kept_rewriteBank d d (fft2dFwd s.build.log2n) s)
  case fftInv d => exact kept_perform h (by simpa [Kept] using kept_rewriteBank d d (fft2dInv s.build.log2n) s)

/-! ## The host's side -/

@[simp] theorem abortPending_build (s : State) : (abortPending s).build = s.build := by
  unfold abortPending; split <;> [split <;> simp; rfl]

@[simp] theorem abortPending_faultlog (s : State) : (abortPending s).faultlog = s.faultlog := by
  unfold abortPending; split <;> [split <;> simp; rfl]

@[simp] theorem abortPending_events (s : State) : (abortPending s).events = s.events := by
  unfold abortPending; split <;> [split <;> simp; rfl]

@[simp] theorem abortPending_resetPin (s : State) : (abortPending s).resetPin = s.resetPin := by
  unfold abortPending; split <;> [split <;> simp; rfl]

/-- With no command pending there is nothing to abort. -/
theorem abortPending_idle {s : State} (h : s.status.busy = false) : abortPending s = s := by simp [abortPending, h]

/-- The address of a register of the map is its offset in the register space (20_memory.md R77). -/
theorem offsetOf_reg (b : Build) (r : Reg) : offsetOf b (b.base + BitVec.ofNat 64 r.offset) = some r.offset := by
  have h : b.base + BitVec.ofNat 64 r.offset - b.base = BitVec.ofNat 64 r.offset := by
    rw [BitVec.add_comm, BitVec.add_sub_cancel]
  unfold offsetOf
  rw [h]
  cases r <;> rfl

theorem regAt_offset (r : Reg) : regAt r.offset = some r := by cases r <;> rfl

theorem legalAccess_reg (r : Reg) : legalAccess r.offset 8 = true := by cases r <;> rfl

@[simp] theorem bytesOfNat_length (k v : Nat) : (bytesOfNat k v).length = k := by
  induction k generalizing v with
  | zero => rfl
  | succ k ih => simp [bytesOfNat, ih]

/-- The bytes of a number give it back, up to the bytes taken (20_memory.md R73). -/
theorem natOfBytes_bytesOfNat (k v : Nat) : natOfBytes (bytesOfNat k v) = v % 2 ^ (8 * k) := by
  induction k generalizing v with
  | zero => simp [bytesOfNat, natOfBytes, Nat.mod_one]
  | succ k ih =>
    simp only [bytesOfNat, natOfBytes, ih, BitVec.toNat_ofNat]
    rw [Nat.mul_succ, Nat.add_comm (8 * k) 8, Nat.pow_add, Nat.mod_mul]

/-- `WR <REG>, v` (30_encoding.md R102) writes `v` to that register. -/
theorem hostWrite_reg {s : State} (b : Build) (hb : b = s.build) (r : Reg) (v : Word) (hp : s.resetPin = false) :
    hostWrite (b.base + BitVec.ofNat 64 r.offset) (bytesOfNat 8 v.toNat) s = { writeReg s v r with resp := .done } := by
  subst b
  have hv : BitVec.ofNat 64 (natOfBytes (bytesOfNat 8 v.toNat)) = v := by
    rw [natOfBytes_bytesOfNat]
    apply BitVec.eq_of_toNat_eq
    rw [BitVec.toNat_ofNat]
    have := v.isLt
    omega
  simp [hostWrite, offsetOf_reg, hp, legalAccess_reg, writeOffset, regAt_offset, hv]

/-! ## The step -/

/-- What a step is: the next event, or with none left the engine's turn, of a legal configuration (10_state.md R30). -/
theorem step_cases {s t : State} (h : step s = .next t) :
    s.build.wf = true ∧
      ((s.events = [] ∧ engineStep s = .next t) ∨
        ∃ e es, s.events = e :: es ∧ eventStep e { s with events := es } = .next t) := by
  unfold step nextTurn at h
  split at h
  · refine ⟨‹_›, ?_⟩
    split at h
    · exact .inl ⟨‹_›, h⟩
    · exact .inr ⟨_, _, ‹_›, h⟩
  · cases h

/-- What the engine's turn is: nothing, the error of a word that does not decode, or the decoded command
(30_encoding.md R97). -/
theorem engineStep_cases {s t : State} (h : engineStep s = .next t) :
    ((s.resetPin = true ∨ s.status.busy = false) ∧ t = s) ∨
      (s.resetPin = false ∧ s.status.busy = true ∧
        ((∃ e, decode s.cmd = .error e ∧ t = raiseError (decodeErrCode e) s) ∨
          ∃ i, decode s.cmd = .ok i ∧ exec i s = .next t)) := by
  unfold engineStep at h
  split at h
  · rename_i hg
    exact .inl ⟨by simpa using hg, by simpa using h.symm⟩
  · rename_i hg
    refine .inr ⟨?_, ?_, ?_⟩
    · cases hp : s.resetPin
      · rfl
      · exact absurd (by simp [hp]) hg
    · cases hb : s.status.busy
      · exact absurd (by simp [hb]) hg
      · rfl
    · split at h
      · exact .inr ⟨_, ‹_›, h⟩
      · exact .inl ⟨_, ‹_›, by simpa using h.symm⟩

/-- A pending command that decodes is what the engine's turn performs (30_encoding.md R97). -/
theorem engineStep_decoded {s : State} {i : Instr} (hp : s.resetPin = false) (hb : s.status.busy = true)
    (hd : decode s.cmd = .ok i) : engineStep s = exec i s := by
  simp [engineStep, hp, hb, hd]

end Sys2Proof.Laws
end

