-- ==== Sys2Proof/Laws/PerInstr.lean ====
section
/-! SUPPORT. The family TableRow: the word of every command carries the opcode of its row in spec/opcode_table.json, and zeros
in the bits the row's mask fixes to zero. -/

namespace Sys2Proof.Laws

/-- The opcode of a command's row of the table (30_encoding.md R98). -/
def opcodeOf : Instr → Nat
  | .get _ _ _ => 0x01
  | .set _ _ _ => 0x02
  | .mag2 _ _ _ => 0x03
  | .mag _ _ _ => 0x04
  | .phase _ _ _ => 0x05
  | .zeroCell _ _ _ => 0x06
  | .scale _ => 0x10
  | .copy _ _ => 0x11
  | .sumsq _ => 0x12
  | .renorm _ => 0x13
  | .fftFwd _ => 0x20
  | .fftInv _ => 0x21

/-- The fields of a packed word are what was packed, where they fit (30_encoding.md R91). -/
theorem packWord_fields {op d s x y : Nat} (hop : op < 256) (hd : d < 16) (hs : s < 16) (hx : x < 65536)
    (hy : y < 65536) :
    fieldOp (packWord op d s x y) = op ∧ fieldD (packWord op d s x y) = d ∧ fieldS (packWord op d s x y) = s ∧
      fieldX (packWord op d s x y) = x ∧ fieldY (packWord op d s x y) = y ∧ fieldRsv (packWord op d s x y) = 0 := by
  have hlt : op + d * 2 ^ 8 + s * 2 ^ 12 + x * 2 ^ 16 + y * 2 ^ 32 < 2 ^ 64 := by omega
  have hn : (packWord op d s x y).toNat = op + d * 2 ^ 8 + s * 2 ^ 12 + x * 2 ^ 16 + y * 2 ^ 32 := by
    rw [packWord, BitVec.toNat_ofNat, Nat.mod_eq_of_lt hlt]
  unfold fieldOp fieldD fieldS fieldX fieldY fieldRsv
  rw [hn]
  refine ⟨?_, ?_, ?_, ?_, ?_, ?_⟩ <;> omega

/-- The command's word has its row's opcode, and zero in every bit that the row fixes to zero. -/
def TableRow.Statement (i : Instr) : Prop :=
  i.wf = true →
    fieldOp (encode i) = opcodeOf i ∧ fieldRsv (encode i) = 0 ∧
      (match i with
      | .copy _ _ => fieldX (encode i) = 0 ∧ fieldY (encode i) = 0
      | .scale _ | .sumsq _ | .renorm _ | .fftFwd _ | .fftInv _ =>
        fieldS (encode i) = 0 ∧ fieldX (encode i) = 0 ∧ fieldY (encode i) = 0
      | .get _ _ _ | .set _ _ _ | .mag2 _ _ _ | .mag _ _ _ | .phase _ _ _ | .zeroCell _ _ _ => fieldS (encode i) = 0)

theorem TableRow.get (d x y : Nat) : TableRow.Statement (.get d x y) := by
  intro h
  simp only [Instr.wf, wfCell, Bool.and_eq_true, decide_eq_true_eq] at h
  have p := packWord_fields (op := 0x01) (s := 0) (by decide) h.1.1 (by decide) h.1.2 h.2
  exact ⟨p.1, p.2.2.2.2.2, p.2.2.1⟩

theorem TableRow.set (d x y : Nat) : TableRow.Statement (.set d x y) := by
  intro h
  simp only [Instr.wf, wfCell, Bool.and_eq_true, decide_eq_true_eq] at h
  have p := packWord_fields (op := 0x02) (s := 0) (by decide) h.1.1 (by decide) h.1.2 h.2
  exact ⟨p.1, p.2.2.2.2.2, p.2.2.1⟩

theorem TableRow.mag2 (d x y : Nat) : TableRow.Statement (.mag2 d x y) := by
  intro h
  simp only [Instr.wf, wfCell, Bool.and_eq_true, decide_eq_true_eq] at h
  have p := packWord_fields (op := 0x03) (s := 0) (by decide) h.1.1 (by decide) h.1.2 h.2
  exact ⟨p.1, p.2.2.2.2.2, p.2.2.1⟩

theorem TableRow.mag (d x y : Nat) : TableRow.Statement (.mag d x y) := by
  intro h
  simp only [Instr.wf, wfCell, Bool.and_eq_true, decide_eq_true_eq] at h
  have p := packWord_fields (op := 0x04) (s := 0) (by decide) h.1.1 (by decide) h.1.2 h.2
  exact ⟨p.1, p.2.2.2.2.2, p.2.2.1⟩

theorem TableRow.phase (d x y : Nat) : TableRow.Statement (.phase d x y) := by
  intro h
  simp only [Instr.wf, wfCell, Bool.and_eq_true, decide_eq_true_eq] at h
  have p := packWord_fields (op := 0x05) (s := 0) (by decide) h.1.1 (by decide) h.1.2 h.2
  exact ⟨p.1, p.2.2.2.2.2, p.2.2.1⟩

theorem TableRow.zeroCell (d x y : Nat) : TableRow.Statement (.zeroCell d x y) := by
  intro h
  simp only [Instr.wf, wfCell, Bool.and_eq_true, decide_eq_true_eq] at h
  have p := packWord_fields (op := 0x06) (s := 0) (by decide) h.1.1 (by decide) h.1.2 h.2
  exact ⟨p.1, p.2.2.2.2.2, p.2.2.1⟩

theorem TableRow.scale (d : Nat) : TableRow.Statement (.scale d) := by
  intro h
  simp only [Instr.wf, wfGrid, decide_eq_true_eq] at h
  have p := packWord_fields (op := 0x10) (s := 0) (x := 0) (y := 0) (by decide) h (by decide) (by decide) (by decide)
  exact ⟨p.1, p.2.2.2.2.2, p.2.2.1, p.2.2.2.1, p.2.2.2.2.1⟩

theorem TableRow.copy (d s : Nat) : TableRow.Statement (.copy d s) := by
  intro h
  simp only [Instr.wf, wfCopy, Bool.and_eq_true, decide_eq_true_eq] at h
  have p := packWord_fields (op := 0x11) (x := 0) (y := 0) (by decide) h.1 h.2 (by decide) (by decide)
  exact ⟨p.1, p.2.2.2.2.2, p.2.2.2.1, p.2.2.2.2.1⟩

theorem TableRow.sumsq (d : Nat) : TableRow.Statement (.sumsq d) := by
  intro h
  simp only [Instr.wf, wfGrid, decide_eq_true_eq] at h
  have p := packWord_fields (op := 0x12) (s := 0) (x := 0) (y := 0) (by decide) h (by decide) (by decide) (by decide)
  exact ⟨p.1, p.2.2.2.2.2, p.2.2.1, p.2.2.2.1, p.2.2.2.2.1⟩

theorem TableRow.renorm (d : Nat) : TableRow.Statement (.renorm d) := by
  intro h
  simp only [Instr.wf, wfGrid, decide_eq_true_eq] at h
  have p := packWord_fields (op := 0x13) (s := 0) (x := 0) (y := 0) (by decide) h (by decide) (by decide) (by decide)
  exact ⟨p.1, p.2.2.2.2.2, p.2.2.1, p.2.2.2.1, p.2.2.2.2.1⟩

theorem TableRow.fftFwd (d : Nat) : TableRow.Statement (.fftFwd d) := by
  intro h
  simp only [Instr.wf, wfGrid, decide_eq_true_eq] at h
  have p := packWord_fields (op := 0x20) (s := 0) (x := 0) (y := 0) (by decide) h (by decide) (by decide) (by decide)
  exact ⟨p.1, p.2.2.2.2.2, p.2.2.1, p.2.2.2.1, p.2.2.2.2.1⟩

theorem TableRow.fftInv (d : Nat) : TableRow.Statement (.fftInv d) := by
  intro h
  simp only [Instr.wf, wfGrid, decide_eq_true_eq] at h
  have p := packWord_fields (op := 0x21) (s := 0) (x := 0) (y := 0) (by decide) h (by decide) (by decide) (by decide)
  exact ⟨p.1, p.2.2.2.2.2, p.2.2.1, p.2.2.2.1, p.2.2.2.2.1⟩

end Sys2Proof.Laws
end

