-- ==== Sys2Proof/Laws/Taylor.lean ====
section
/-! SUPPORT. The Taylor sums of sine and cosine differ from them by at most the next term. -/

namespace Sys2Proof.Laws

/-- The Taylor sum of the cosine to `k` terms. -/
noncomputable def cosSum (k : ℕ) (x : ℝ) : ℝ := ∑ i ∈ Finset.range k, (-1) ^ i * (x ^ (2 * i) / (2 * i).factorial)

/-- The Taylor sum of the sine to `k` terms. -/
noncomputable def sinSum (k : ℕ) (x : ℝ) : ℝ := ∑ i ∈ Finset.range k, (-1) ^ i * (x ^ (2 * i + 1) / (2 * i + 1).factorial)

theorem hasDerivAt_sinSum (k : ℕ) (x : ℝ) : HasDerivAt (sinSum k) (cosSum k x) x := by
  unfold sinSum cosSum
  refine HasDerivAt.fun_sum fun i _ => ?_
  have := ((hasDerivAt_pow (2 * i + 1) x).div_const ((2 * i + 1).factorial : ℝ)).const_mul ((-1 : ℝ) ^ i)
  refine this.congr_deriv ?_
  rw [Nat.factorial_succ]; push_cast; field_simp

theorem hasDerivAt_cosSum (k : ℕ) (x : ℝ) : HasDerivAt (cosSum (k + 1)) (-sinSum k x) x := by
  have e : cosSum (k + 1) = fun x : ℝ => (∑ i ∈ Finset.range k, (-1 : ℝ) ^ (i + 1) * (x ^ (2 * (i + 1)) / (2 * (i + 1)).factorial)) + 1 := by
    funext y; unfold cosSum; rw [Finset.sum_range_succ']; simp
  rw [e]
  have h : HasDerivAt (fun x : ℝ => ∑ i ∈ Finset.range k, (-1) ^ (i + 1) * (x ^ (2 * (i + 1)) / (2 * (i + 1)).factorial))
      (∑ i ∈ Finset.range k, -((-1) ^ i * (x ^ (2 * i + 1) / (2 * i + 1).factorial))) x := by
    refine HasDerivAt.fun_sum fun i _ => ?_
    have := ((hasDerivAt_pow (2 * (i + 1)) x).div_const ((2 * (i + 1)).factorial : ℝ)).const_mul ((-1 : ℝ) ^ (i + 1))
    refine this.congr_deriv ?_
    rw [show 2 * (i + 1) = (2 * i + 1) + 1 by ring, Nat.factorial_succ]; push_cast; field_simp; simp only [pow_succ]; simp; ring
  refine (h.add_const 1).congr_deriv ?_
  rw [sinSum, Finset.sum_neg_distrib]

theorem sign_of_deriv {f g : ℝ → ℝ} (h0 : f 0 = 0) (hd : ∀ x, HasDerivAt f (g x) x) (hg : ∀ x, 0 ≤ x → 0 ≤ g x) {x : ℝ}
    (hx : 0 ≤ x) : 0 ≤ f x := by
  have hm : MonotoneOn f (Set.Ici 0) :=
    monotoneOn_of_deriv_nonneg (convex_Ici 0) (fun y _ => (hd y).continuousAt.continuousWithinAt)
      (fun y _ => (hd y).differentiableAt.differentiableWithinAt) fun y hy => by
        rw [(hd y).deriv]; exact hg y (le_of_lt (by simpa using hy))
  have := hm (by simp) (by simpa using hx) hx
  rwa [h0] at this

theorem cosSum_zero (k : ℕ) : cosSum (k + 1) 0 = 1 := by
  unfold cosSum; rw [Finset.sum_range_succ']; simp

theorem sinSum_zero (k : ℕ) : sinSum k 0 = 0 := by simp [sinSum]

/-- The Taylor sums lie on alternating sides. -/
theorem taylor_sides (k : ℕ) : (∀ x : ℝ, 0 ≤ x → 0 ≤ (-1) ^ (k + 1) * (Real.cos x - cosSum (k + 1) x)) ∧
    ∀ x : ℝ, 0 ≤ x → 0 ≤ (-1) ^ (k + 1) * (Real.sin x - sinSum (k + 1) x) := by
  have sinOf : ∀ k, (∀ x : ℝ, 0 ≤ x → 0 ≤ (-1) ^ (k + 1) * (Real.cos x - cosSum (k + 1) x)) →
      ∀ x : ℝ, 0 ≤ x → 0 ≤ (-1) ^ (k + 1) * (Real.sin x - sinSum (k + 1) x) := fun k h x hx =>
    sign_of_deriv (f := fun x => (-1) ^ (k + 1) * (Real.sin x - sinSum (k + 1) x)) (by simp [sinSum_zero])
      (fun y => ((Real.hasDerivAt_sin y).sub (hasDerivAt_sinSum (k + 1) y)).const_mul _) h hx
  induction k with
  | zero =>
    have h : ∀ x : ℝ, 0 ≤ x → 0 ≤ (-1) ^ (0 + 1) * (Real.cos x - cosSum (0 + 1) x) := fun x _ => by
      have := Real.cos_le_one x
      simp [cosSum]; linarith
    exact ⟨h, sinOf 0 h⟩
  | succ k ih =>
    have h : ∀ x : ℝ, 0 ≤ x → 0 ≤ (-1) ^ (k + 1 + 1) * (Real.cos x - cosSum (k + 1 + 1) x) := fun x hx =>
      sign_of_deriv (f := fun x => (-1) ^ (k + 1 + 1) * (Real.cos x - cosSum (k + 1 + 1) x))
        (g := fun x => (-1) ^ (k + 1) * (Real.sin x - sinSum (k + 1) x)) (by simp [cosSum_zero])
        (fun y => (((Real.hasDerivAt_cos y).sub (hasDerivAt_cosSum (k + 1) y)).const_mul _).congr_deriv
          (by rw [pow_succ]; ring)) ih.2 hx
    exact ⟨h, sinOf (k + 1) h⟩

theorem abs_sub_le_of_sides {a s t : ℝ} (k : ℕ) (h1 : 0 ≤ (-1) ^ k * (a - s)) (h2 : 0 ≤ (-1) ^ (k + 1) * (a - (s + (-1) ^ k * t))) :
    |a - s| ≤ t := by
  rcases Nat.even_or_odd k with he | ho
  · rw [pow_succ, he.neg_one_pow] at *
    rw [abs_le]; constructor <;> linarith
  · rw [pow_succ, ho.neg_one_pow] at *
    rw [abs_le]; constructor <;> linarith

/-- The remainder of the Taylor sums is at most the next term. -/
theorem abs_cos_sub_cosSum {k : ℕ} (hk : 0 < k) {x : ℝ} (hx : 0 ≤ x) : |Real.cos x - cosSum k x| ≤ x ^ (2 * k) / (2 * k).factorial := by
  obtain ⟨k, rfl⟩ := Nat.exists_eq_succ_of_ne_zero (by omega : k ≠ 0)
  refine abs_sub_le_of_sides (k + 1) ((taylor_sides k).1 x hx) ?_
  have := (taylor_sides (k + 1)).1 x hx
  rwa [cosSum, Finset.sum_range_succ, ← cosSum] at this

theorem abs_sin_sub_sinSum {k : ℕ} (hk : 0 < k) {x : ℝ} (hx : 0 ≤ x) :
    |Real.sin x - sinSum k x| ≤ x ^ (2 * k + 1) / (2 * k + 1).factorial := by
  obtain ⟨k, rfl⟩ := Nat.exists_eq_succ_of_ne_zero (by omega : k ≠ 0)
  refine abs_sub_le_of_sides (k + 1) ((taylor_sides k).2 x hx) ?_
  have := (taylor_sides (k + 1)).2 x hx
  rwa [sinSum, Finset.sum_range_succ, ← sinSum] at this

end Sys2Proof.Laws
end

