-- ==== Sys2Proof/Laws/Trig.lean ====
section
/-! SUPPORT. The enclosures of Machine/Trig.lean are sound and narrow, and rounding an enclosed number gives the value nearest to
it. -/

namespace Sys2Proof.Laws

open Sys2Proof.Machine

/-! ## Enclosures of the arctangent and of π -/

/-- A real number lies between the two ends of an enclosure, in units of 2^-p. -/
def Encloses (e : Nat × Nat) (p : Nat) (θ : ℝ) : Prop := (e.1 : ℝ) ≤ θ * 2 ^ p ∧ θ * 2 ^ p ≤ (e.2 : ℝ)

/-- A floored quotient is at most the quotient, and less than one unit short. -/
theorem floor_bounds (a b : Nat) (hb : 0 < b) : ((a / b : Nat) : ℝ) ≤ a / b ∧ (a : ℝ) / b ≤ (a / b : Nat) + 1 := by
  have hb' : (0 : ℝ) < b := by exact_mod_cast hb
  refine ⟨Nat.cast_div_le, ?_⟩
  rw [div_le_iff₀ hb']
  have := Nat.lt_div_mul_add hb (a := a)
  have h : a ≤ (a / b + 1) * b := by rw [Nat.add_mul, Nat.one_mul]; exact this.le
  exact_mod_cast h

/-- The sum of the floored terms is at most the sum of the terms, and less than two units a term short. -/
theorem atanSum_bounds {num den : Nat} {x S : ℝ} (hd : 0 < den) (hx : 0 ≤ x) (hx1 : x ≤ 1)
    (hr : (num : ℝ) / den = x ^ 2 / (1 + x ^ 2)) :
    ∀ (fuel i t acc : Nat), (t : ℝ) ≤ S * eulerTerm x i → S * eulerTerm x i ≤ t + 2 →
      (atanSum num den fuel (i + 1) t acc : ℝ) ≤ acc + ∑ k ∈ Finset.range fuel, S * eulerTerm x (i + k) ∧
      acc + ∑ k ∈ Finset.range fuel, S * eulerTerm x (i + k) ≤ atanSum num den fuel (i + 1) t acc + 2 * fuel := by
  intro fuel
  induction fuel with
  | zero => intro i t acc _ _; simp [atanSum]
  | succ fuel ih =>
    intro i t acc h1 h2
    have hdr : (0 : ℝ) < den := by exact_mod_cast hd
    have hhalf : x ^ 2 / (1 + x ^ 2) ≤ 1 / 2 := by
      rw [div_le_div_iff₀ (by positivity) (by norm_num)]; nlinarith
    set c : ℝ := (2 * i + 2) / (2 * i + 3) with hc
    have hc0 : 0 ≤ c := by positivity
    have hc1 : c ≤ 1 := by rw [hc, div_le_one (by positivity)]; linarith
    have hq : ((t * (2 * (i + 1)) * num : Nat) : ℝ) / (((2 * (i + 1) + 1) * den : Nat) : ℝ) =
        t * c * (x ^ 2 / (1 + x ^ 2)) := by
      rw [← hr, hc]; push_cast; field_simp; ring
    obtain ⟨f1, f2⟩ := floor_bounds (t * (2 * (i + 1)) * num) ((2 * (i + 1) + 1) * den) (by positivity)
    rw [hq] at f1 f2
    have hr0 : 0 ≤ c * (x ^ 2 / (1 + x ^ 2)) := by positivity
    have hr1 : c * (x ^ 2 / (1 + x ^ 2)) ≤ 1 / 2 := by
      calc _ ≤ 1 * (1 / 2 : ℝ) := by gcongr
        _ = _ := by ring
    have e : S * eulerTerm x (i + 1) = S * eulerTerm x i * (c * (x ^ 2 / (1 + x ^ 2))) := by
      rw [eulerTerm]; ring
    have g1 : ((t * (2 * (i + 1)) * num / ((2 * (i + 1) + 1) * den) : Nat) : ℝ) ≤ S * eulerTerm x (i + 1) := by
      rw [e]; have := mul_le_mul_of_nonneg_right h1 hr0; linarith
    have g2 : S * eulerTerm x (i + 1) ≤ ((t * (2 * (i + 1)) * num / ((2 * (i + 1) + 1) * den) : Nat) : ℝ) + 2 := by
      rw [e]; have := mul_le_mul_of_nonneg_right h2 hr0; linarith
    obtain ⟨k1, k2⟩ := ih (i + 1) _ (acc + t) g1 g2
    have hsum : ∑ k ∈ Finset.range (fuel + 1), S * eulerTerm x (i + k) =
        (∑ k ∈ Finset.range fuel, S * eulerTerm x (i + 1 + k)) + S * eulerTerm x i := by
      rw [Finset.sum_range_succ']; simp [Nat.add_assoc, Nat.add_comm 1]
    rw [atanSum, hsum]
    push_cast at *
    constructor <;> linarith

/-- The enclosure of the arctangent of a ratio up to 1 is sound. -/
theorem atanEnc_encloses {n d : Nat} (hd : 0 < d) (hnd : n ≤ d) (p : Nat) :
    Encloses (atanEnc n d p) p (Real.arctan ((n : ℝ) / d)) := by
  have hdr : (0 : ℝ) < d := by exact_mod_cast hd
  set x : ℝ := (n : ℝ) / d with hxdef
  have hx : 0 ≤ x := by positivity
  have hx1 : x ≤ 1 := by rw [hxdef, div_le_one hdr]; exact_mod_cast hnd
  have hden : 0 < n * n + d * d := by positivity
  have hdenr : (0 : ℝ) < (n : ℝ) * n + d * d := by positivity
  have hr : ((n * n : Nat) : ℝ) / ((n * n + d * d : Nat) : ℝ) = x ^ 2 / (1 + x ^ 2) := by
    rw [hxdef]; push_cast; field_simp; ring
  have hS : (0 : ℝ) ≤ 2 ^ p := by positivity
  have h0 : (((n * d) <<< p : Nat) : ℝ) / ((n * n + d * d : Nat) : ℝ) = 2 ^ p * eulerTerm x 0 := by
    rw [eulerTerm, hxdef, Nat.shiftLeft_eq]; push_cast; field_simp; ring
  obtain ⟨f1, f2⟩ := floor_bounds ((n * d) <<< p) (n * n + d * d) hden
  rw [h0] at f1 f2
  obtain ⟨b1, b2⟩ := atanSum_bounds (S := 2 ^ p) hden hx hx1 hr (p + 2) 0 _ 0 f1 (by linarith)
  simp only [Nat.cast_zero, zero_add, ← Finset.mul_sum] at b1 b2
  have hlow := euler_le_arctan hx (p + 2)
  have hup := arctan_le_euler hx hx1 (p + 2)
  have hterm := eulerTerm_le hx hx1 (p + 2)
  have hp : (2 : ℝ) ^ p * (1 / 2) ^ (p + 2 + 1) = 1 / 8 := by
    rw [pow_add, pow_add, ← mul_assoc, ← mul_assoc, ← mul_pow]; norm_num
  have m1 := mul_le_mul_of_nonneg_left hlow hS
  have m2 := mul_le_mul_of_nonneg_left hup hS
  have m3 := mul_le_mul_of_nonneg_left hterm hS
  rw [hp] at m3
  unfold Encloses atanEnc
  simp only
  push_cast at *
  constructor <;> nlinarith

theorem piEnc_encloses (p : Nat) : Encloses (piEnc p) p Real.pi := by
  obtain ⟨h1, h2⟩ := atanEnc_encloses (n := 1) (d := 1) one_pos le_rfl p
  simp only [Nat.cast_one, div_one, Real.arctan_one] at h1 h2
  unfold Encloses piEnc
  push_cast
  constructor <;> linarith

theorem sub_bounds {a b : Nat} {u v : ℝ} (ha : (a : ℝ) ≤ u) (hb : v ≤ b) (h : v ≤ u) : ((a - b : Nat) : ℝ) ≤ u - v := by
  rcases Nat.le_total b a with hab | hab
  · rw [Nat.cast_sub hab]; linarith
  · rw [Nat.sub_eq_zero_of_le hab]; simpa using h

theorem le_sub_bounds {a b : Nat} {u v : ℝ} (ha : u ≤ a) (hb : (b : ℝ) ≤ v) : u - v ≤ ((a - b : Nat) : ℝ) := by
  have : (a : ℝ) - b ≤ ((a - b : Nat) : ℝ) := by
    rw [sub_le_iff_le_add]; exact_mod_cast (by omega : a ≤ a - b + b)
  linarith

theorem atanEncAny_encloses {n d : Nat} (hn : 0 < n) (hd : 0 < d) (p : Nat) :
    Encloses (atanEncAny n d p) p (Real.arctan ((n : ℝ) / d)) := by
  unfold atanEncAny
  split
  · exact atanEnc_encloses hd ‹_› p
  · have hnr : (0 : ℝ) < n := by exact_mod_cast hn
    have hdr : (0 : ℝ) < d := by exact_mod_cast hd
    have e : Real.arctan ((n : ℝ) / d) = Real.pi / 2 - Real.arctan ((d : ℝ) / n) := by
      rw [← inv_div]; exact Real.arctan_inv_of_pos (by positivity)
    obtain ⟨h1, h2⟩ := atanEnc_encloses hn (by omega : d ≤ n) p
    obtain ⟨p1, p2⟩ := piEnc_encloses p
    obtain ⟨f1, f2⟩ := floor_bounds (piEnc p).1 2 two_pos
    obtain ⟨g1, g2⟩ := floor_bounds (piEnc p).2 2 two_pos
    have hle : Real.arctan ((d : ℝ) / n) ≤ Real.pi / 2 := (Real.arctan_lt_pi_div_two _).le
    have hS : (0 : ℝ) ≤ 2 ^ p := by positivity
    have m := mul_le_mul_of_nonneg_right hle hS
    push_cast at f1 f2 g1 g2
    rw [e]
    unfold Encloses
    rw [sub_mul]
    exact ⟨sub_bounds (by linarith) h2 m, le_sub_bounds (by push_cast; linarith) h1⟩

/-- The angle in `[0, π]` of the point of height `n` and width `d`, to the left of the origin or not. -/
noncomputable def angleOf (left : Bool) (n d : Nat) : ℝ :=
  if left then Real.pi - Real.arctan ((n : ℝ) / d) else Real.arctan ((n : ℝ) / d)

theorem angleEnc_encloses (left : Bool) {n d : Nat} (hn : 0 < n) (hd : 0 < d) (p : Nat) :
    Encloses (angleEnc left n d p) p (angleOf left n d) := by
  obtain ⟨h1, h2⟩ := atanEncAny_encloses hn hd p
  cases left
  · exact ⟨h1, h2⟩
  · obtain ⟨p1, p2⟩ := piEnc_encloses p
    have hle : Real.arctan ((n : ℝ) / d) ≤ Real.pi := by
      have := Real.arctan_lt_pi_div_two ((n : ℝ) / d); have := Real.pi_pos; linarith
    have m := mul_le_mul_of_nonneg_right hle (show (0 : ℝ) ≤ 2 ^ p by positivity)
    unfold Encloses angleEnc angleOf
    simp only [if_true, sub_mul]
    exact ⟨sub_bounds p1 h2 m, le_sub_bounds p2 h1⟩

/-- The exact angle of a point in units, by the signs and magnitudes of its coordinates. -/
theorem arg_units {n d : Nat} (hn : 0 < n) (hd : 0 < d) (up left : Bool) :
    Complex.arg ⟨if left then -(d : ℝ) else d, if up then (n : ℝ) else -n⟩ = if up then angleOf left n d else -angleOf left n d := by
  have hnr : (0 : ℝ) < n := by exact_mod_cast hn
  have hdr : (0 : ℝ) < d := by exact_mod_cast hd
  set φ := Real.arctan ((n : ℝ) / d) with hφ
  have h0 : 0 < φ := Real.arctan_pos.2 (by positivity)
  have h1 : φ < Real.pi / 2 := Real.arctan_lt_pi_div_two _
  set ρ : ℝ := d * Real.sqrt (1 + ((n : ℝ) / d) ^ 2) with hρ
  have hs : 0 < Real.sqrt (1 + ((n : ℝ) / d) ^ 2) := Real.sqrt_pos.2 (by positivity)
  have hρ0 : 0 < ρ := by positivity
  have hc : ρ * Real.cos φ = d := by rw [hφ, Real.cos_arctan, hρ]; field_simp
  have hsn : ρ * Real.sin φ = n := by rw [hφ, Real.sin_arctan, hρ]; field_simp
  have hπ := Real.pi_pos
  have key : ∀ θ a b : ℝ, θ ∈ Set.Ioc (-Real.pi) Real.pi → ρ * Real.cos θ = a → ρ * Real.sin θ = b → Complex.arg ⟨a, b⟩ = θ := by
    intro θ a b hθ ha hb
    rw [← Complex.arg_mul_cos_add_sin_mul_I hρ0 hθ]
    congr 1
    apply Complex.ext
    · simp [← ha, Complex.cos_ofReal_re, Complex.sin_ofReal_re, Complex.sin_ofReal_im]
    · simp [← hb, Complex.cos_ofReal_im, Complex.sin_ofReal_re]
  unfold angleOf
  cases up <;> cases left <;> simp only [Bool.false_eq_true, if_true, if_false]
  · exact key _ _ _ ⟨by linarith, by linarith⟩ (by rw [Real.cos_neg]; exact hc) (by rw [Real.sin_neg, mul_neg, hsn])
  · exact key _ _ _ ⟨by linarith, by linarith⟩ (by rw [Real.cos_neg, Real.cos_pi_sub, mul_neg, hc])
      (by rw [Real.sin_neg, Real.sin_pi_sub, mul_neg, hsn])
  · exact key _ _ _ ⟨by linarith, by linarith⟩ hc hsn
  · exact key _ _ _ ⟨by linarith, by linarith⟩ (by rw [Real.cos_pi_sub, mul_neg, hc]) (by rw [Real.sin_pi_sub, hsn])

/-! ## Widths -/

theorem atanEncAny_width (n d p : Nat) : (atanEncAny n d p).2 ≤ (atanEncAny n d p).1 + (6 * p + 20) := by
  have w : ∀ n d, (atanEnc n d p).2 = (atanEnc n d p).1 + (2 * p + 6) := fun n d => by simp only [atanEnc]; omega
  have h := w 1 1
  unfold atanEncAny
  split
  · rw [w]; omega
  · have h2 := w d n
    simp only [piEnc]; omega

/-- The ends of an enclosure of an angle lie at most `14 p + 44` units apart. -/
theorem angleEnc_width (left : Bool) (n d p : Nat) : (angleEnc left n d p).2 ≤ (angleEnc left n d p).1 + (14 * p + 44) := by
  have h1 := atanEncAny_width n d p
  have h2 : (atanEnc 1 1 p).2 = (atanEnc 1 1 p).1 + (2 * p + 6) := by simp only [atanEnc]; omega
  cases left <;> simp only [angleEnc, piEnc, if_true, Bool.false_eq_true, if_false] <;> omega

/-! ## Rounding an enclosed number -/

/-- The magnitude of a code is nearest to `v` units among the finite ones, up to `w` units. -/
def NearestUpTo (v w : ℝ) (m : Nat) : Prop := ∀ k, k < infMag → |v - magUnits m| ≤ |v - magUnits k| + w

theorem roundMag_nearestUpTo (num : Nat) {den : Nat} (hd : 0 < den) (hr : roundMag num den < infMag) :
    NearestUpTo ((num : ℝ) / den) 0 (roundMag num den) := by
  intro k hk
  have hdr : (0 : ℝ) < den := by exact_mod_cast hd
  have h := (roundMag_nearest num hd hr hk).1
  have e : ∀ m : Nat, (num : ℝ) / den - magUnits m = ((num : ℤ) - magUnits m * den : ℤ) / (den : ℝ) := fun m => by
    push_cast; field_simp
  rw [add_zero, e, e, abs_div, abs_div, ← Int.cast_abs, ← Int.cast_abs]
  gcongr

theorem NearestUpTo.mono {v w w' : ℝ} {m : Nat} (h : NearestUpTo v w m) (hw : w ≤ w') : NearestUpTo v w' m := fun k hk => by
  have := h k hk; linarith

/-- What is nearest to a number is nearest to a close one, up to twice the distance. -/
theorem NearestUpTo.close {v v' w : ℝ} {m : Nat} (h : NearestUpTo v 0 m) (hv : |v' - v| ≤ w) : NearestUpTo v' (2 * w) m := by
  intro k hk
  have h1 := h k hk
  have h2 := abs_sub_le v' v (magUnits m)
  have h3 := abs_sub_le v v' (magUnits k)
  rw [abs_sub_comm v v'] at h3
  linarith

/-- What is nearest to both ends of an interval is nearest to all of it. -/
theorem NearestUpTo.between {a b v : ℝ} {m : Nat} (ha : NearestUpTo a 0 m) (hb : NearestUpTo b 0 m) (h1 : a ≤ v) (h2 : v ≤ b) :
    NearestUpTo v 0 m := by
  intro k hk
  have ka := ha k hk
  have kb := hb k hk
  rw [add_zero] at *
  rw [← sq_le_sq] at *
  rcases le_total (magUnits m : ℝ) (magUnits k) with h | h <;> nlinarith

/-- With a sign, what is nearest in magnitude is nearest among all finite patterns. -/
theorem NearestUpTo.signed {θ w : ℝ} {m : Nat} (hθ : 0 ≤ θ) (h : NearestUpTo θ w m) (neg : Bool) (hm : m < 2 ^ 63) (z : F64)
    (hz : isFinite z = true) :
    |(if neg then -θ else θ) - sunits (ofSignMag neg m)| ≤ |(if neg then -θ else θ) - sunits z| + w := by
  have hk := h (magBits z) (by simpa [isFinite] using hz)
  have h1 : |(if neg then -θ else θ) - sunits (ofSignMag neg m)| = |θ - magUnits m| := by
    unfold sunits units
    rw [isNeg_ofSignMag hm, magBits_ofSignMag hm]
    cases neg
    · simp
    · simp only [if_true]; push_cast
      rw [← abs_neg]; congr 1; ring
  have hu : (0 : ℝ) ≤ magUnits (magBits z) := Nat.cast_nonneg _
  have h2 : |θ - magUnits (magBits z)| ≤ |(if neg then -θ else θ) - sunits z| := by
    unfold sunits units
    rw [abs_le]
    cases neg <;> cases isNeg z <;> simp <;> rcases le_total (magUnits (magBits z) : ℝ) θ with h | h
    all_goals
      first
        | rw [abs_of_nonneg (by linarith)]
        | rw [abs_of_nonpos (by linarith)]
      constructor <;> linarith
  rw [h1]; linarith

theorem oneUnits_pos : (0 : ℝ) < (oneUnits : ℝ) := by
  rw [Nat.cast_pos, oneUnits, Nat.one_shiftLeft]; positivity

theorem cast_shift_units (a : Nat) : ((a <<< 1074 : Nat) : ℝ) = a * (oneUnits : ℝ) := by
  rw [← Nat.cast_mul, oneUnits, Nat.shiftLeft_eq, Nat.one_shiftLeft]

theorem cast_one_shift (p : Nat) : ((1 <<< p : Nat) : ℝ) = 2 ^ p := by
  rw [Nat.one_shiftLeft]; push_cast; rfl

theorem Encloses.units {e : Nat × Nat} {p : Nat} {θ : ℝ} (h : Encloses e p θ) :
    e.1 * oneUnits / 2 ^ p ≤ θ * oneUnits ∧
      θ * oneUnits ≤ e.2 * oneUnits / 2 ^ p := by
  have hp : (0 : ℝ) < 2 ^ p := by positivity
  rw [div_le_iff₀ hp, le_div_iff₀ hp]
  constructor
  · calc (e.1 : ℝ) * oneUnits ≤ θ * 2 ^ p * oneUnits := mul_le_mul_of_nonneg_right h.1 oneUnits_pos.le
      _ = _ := by ring
  · calc θ * oneUnits * 2 ^ p = θ * 2 ^ p * oneUnits := by ring
      _ ≤ _ := mul_le_mul_of_nonneg_right h.2 oneUnits_pos.le

/-- The rounding of the lower end of an enclosure. -/
def lowEnd (enc : Nat → Nat × Nat) (p : Nat) : Nat := roundMag ((enc p).1 <<< 1074) (1 <<< p)

/-- The rounding of its upper end. -/
def highEnd (enc : Nat → Nat × Nat) (p : Nat) : Nat := roundMag ((enc p).2 <<< 1074) (1 <<< p)

theorem roundEnclosed_nil (enc : Nat → Nat × Nat) (upper : Bool) (p : Nat) :
    roundEnclosed enc upper p [] =
      if lowEnd enc p = highEnd enc p then lowEnd enc p else if upper then highEnd enc p else lowEnd enc p := rfl

theorem roundEnclosed_cons (enc : Nat → Nat × Nat) (upper : Bool) (p q : Nat) (qs : List Nat) :
    roundEnclosed enc upper p (q :: qs) =
      if lowEnd enc p = highEnd enc p then lowEnd enc p else roundEnclosed enc upper q qs := rfl

theorem lowEnd_nearest {enc : Nat → Nat × Nat} {p : Nat} (h : lowEnd enc p < infMag) :
    NearestUpTo ((enc p).1 * oneUnits / 2 ^ p) 0 (lowEnd enc p) := by
  have := roundMag_nearestUpTo _ (by rw [Nat.one_shiftLeft]; positivity) h
  rwa [cast_shift_units, cast_one_shift] at this

theorem highEnd_nearest {enc : Nat → Nat × Nat} {p : Nat} (h : highEnd enc p < infMag) :
    NearestUpTo ((enc p).2 * oneUnits / 2 ^ p) 0 (highEnd enc p) := by
  have := roundMag_nearestUpTo _ (by rw [Nat.one_shiftLeft]; positivity) h
  rwa [cast_shift_units, cast_one_shift] at this

theorem lowEnd_le_highEnd {enc : Nat → Nat × Nat} {p : Nat} (h : (enc p).1 ≤ (enc p).2) : lowEnd enc p ≤ highEnd enc p := by
  have pos : 0 < 1 <<< p := by rw [Nat.one_shiftLeft]; positivity
  refine roundMag_mono pos pos (Nat.mul_le_mul_right _ ?_)
  rw [Nat.shiftLeft_eq, Nat.shiftLeft_eq]; exact Nat.mul_le_mul_right _ h

/-- `roundEnclosed` gives the value nearest to the enclosed number, up to twice the width of the last enclosure: exactly nearest
wherever an enclosure decides. -/
theorem roundEnclosed_nearest {enc : Nat → Nat × Nat} {θ w : ℝ} (upper : Bool) (henc : ∀ q, Encloses (enc q) q θ) (hw : 0 ≤ w) :
    ∀ (ps : List Nat) (p : Nat), roundEnclosed enc upper p ps < infMag →
      (∀ q, (p :: ps).getLast (List.cons_ne_nil _ _) = q →
        ((enc q).2 : ℝ) * oneUnits ≤ (enc q).1 * oneUnits + w * 2 ^ q) →
      NearestUpTo (θ * oneUnits) (2 * w) (roundEnclosed enc upper p ps) := by
  intro ps
  have decided : ∀ q, lowEnd enc q = highEnd enc q → lowEnd enc q < infMag →
      NearestUpTo (θ * oneUnits) (2 * w) (lowEnd enc q) := fun q h hlt => by
    have b := highEnd_nearest (h ▸ hlt)
    rw [← h] at b
    exact ((lowEnd_nearest hlt).between b (henc q).units.1 (henc q).units.2).mono (by linarith)
  induction ps with
  | nil =>
    intro p hlt hwid
    obtain ⟨u1, u2⟩ := (henc p).units
    have hp : (0 : ℝ) < 2 ^ p := by positivity
    have hwd : (enc p).2 * (oneUnits : ℝ) / 2 ^ p ≤ (enc p).1 * oneUnits / 2 ^ p + w := by
      rw [div_add' _ _ _ hp.ne', div_le_div_iff_of_pos_right hp]; exact hwid p rfl
    rw [roundEnclosed_nil] at hlt ⊢
    by_cases h : lowEnd enc p = highEnd enc p
    · rw [if_pos h] at hlt ⊢; exact decided p h hlt
    · rw [if_neg h] at hlt ⊢
      cases upper
      · simp only [Bool.false_eq_true, if_false] at hlt ⊢
        exact (lowEnd_nearest hlt).close (by rw [abs_le]; constructor <;> linarith)
      · simp only [if_true] at hlt ⊢
        exact (highEnd_nearest hlt).close (by rw [abs_le]; constructor <;> linarith)
  | cons q qs ih =>
    intro p hlt hwid
    rw [roundEnclosed_cons] at hlt ⊢
    by_cases h : lowEnd enc p = highEnd enc p
    · rw [if_pos h] at hlt ⊢; exact decided p h hlt
    · rw [if_neg h] at hlt ⊢; exact ih q hlt fun r hr => hwid r (by simpa using hr)

/-- What `roundEnclosed` gives lies between bounds on the rounded ends. -/
theorem roundEnclosed_bounds {enc : Nat → Nat × Nat} (upper : Bool) (henc : ∀ q, (enc q).1 ≤ (enc q).2) {lo hi : Nat} :
    ∀ (ps : List Nat) (p : Nat), (∀ q ∈ p :: ps, lo ≤ lowEnd enc q ∧ highEnd enc q ≤ hi) →
      lo ≤ roundEnclosed enc upper p ps ∧ roundEnclosed enc upper p ps ≤ hi := by
  intro ps
  induction ps with
  | nil =>
    intro p h
    have h1 := h p (by simp)
    have h2 := lowEnd_le_highEnd (henc p)
    rw [roundEnclosed_nil]
    split
    · omega
    · cases upper <;> simp only [Bool.false_eq_true, if_false, if_true] <;> omega
  | cons q qs ih =>
    intro p h
    have h1 := h p (by simp)
    have h2 := lowEnd_le_highEnd (henc p)
    rw [roundEnclosed_cons]
    split
    · omega
    · exact ih q fun r hr => h r (List.mem_cons_of_mem _ hr)

/-! ## The arctangent of a tiny ratio -/

theorem arctan_cubic {x : ℝ} (hx : 0 ≤ x) :
    x - x ^ 3 / 3 ≤ Real.arctan x ∧ Real.arctan x ≤ x - x ^ 3 / 3 + x ^ 5 / 5 := by
  have hd3 : ∀ y : ℝ, HasDerivAt (fun y : ℝ => y - y ^ 3 / 3) (1 - y ^ 2) y := fun y =>
    ((hasDerivAt_id y).sub ((hasDerivAt_pow 3 y).div_const 3)).congr_deriv (by ring)
  have hd5 : ∀ y : ℝ, HasDerivAt (fun y : ℝ => y - y ^ 3 / 3 + y ^ 5 / 5) (1 - y ^ 2 + y ^ 4) y := fun y =>
    ((hd3 y).add ((hasDerivAt_pow 5 y).div_const 5)).congr_deriv (by ring)
  have h1 := sign_of_deriv (f := fun y => Real.arctan y - (y - y ^ 3 / 3)) (by simp)
    (fun y => (Real.hasDerivAt_arctan y).sub (hd3 y)) (fun y _ => by
      rw [sub_nonneg, le_div_iff₀ (by positivity)]; nlinarith [sq_nonneg (y ^ 2)]) hx
  have h2 := sign_of_deriv (f := fun y => (y - y ^ 3 / 3 + y ^ 5 / 5) - Real.arctan y) (by simp)
    (fun y => (hd5 y).sub (Real.hasDerivAt_arctan y)) (fun y _ => by
      rw [sub_nonneg, div_le_iff₀ (by positivity)]; nlinarith [sq_nonneg (y ^ 3)]) hx
  constructor <;> linarith

/-- The two bounds that `atanTiny` rounds. -/
theorem atanTiny_eq (n d : Nat) (upper : Bool) :
    atanTiny n d upper =
      if roundMag ((3 * n * d ^ 2 - n ^ 3) <<< 1074) (3 * d ^ 3) =
          roundMag ((15 * n * d ^ 4 - 5 * n ^ 3 * d ^ 2 + 3 * n ^ 5) <<< 1074) (15 * d ^ 5)
      then roundMag ((3 * n * d ^ 2 - n ^ 3) <<< 1074) (3 * d ^ 3)
      else if upper then roundMag ((15 * n * d ^ 4 - 5 * n ^ 3 * d ^ 2 + 3 * n ^ 5) <<< 1074) (15 * d ^ 5)
      else roundMag ((3 * n * d ^ 2 - n ^ 3) <<< 1074) (3 * d ^ 3) := rfl

/-- `atanTiny` gives the value nearest to the arctangent, up to `2 q^5 / 5`. -/
theorem atanTiny_nearest {n d : Nat} (hd : 0 < d) (hnd : n ≤ d) (upper : Bool) (hlt : atanTiny n d upper < infMag) :
    NearestUpTo (Real.arctan ((n : ℝ) / d) * oneUnits) (2 * (((n : ℝ) / d) ^ 5 / 5 * oneUnits)) (atanTiny n d upper) := by
  have hdr : (0 : ℝ) < d := by exact_mod_cast hd
  set x : ℝ := (n : ℝ) / d with hxdef
  have hx : 0 ≤ x := by positivity
  have hx5 : (0 : ℝ) ≤ x ^ 5 / 5 := by positivity
  have hP := oneUnits_pos.le
  obtain ⟨c1, c2⟩ := arctan_cubic hx
  have m1 := mul_le_mul_of_nonneg_right c1 hP
  have m2 := mul_le_mul_of_nonneg_right c2 hP
  have hn3 : n ^ 3 ≤ 3 * n * d ^ 2 := by
    calc n ^ 3 = n * n ^ 2 := by ring
      _ ≤ 3 * n * d ^ 2 := Nat.mul_le_mul (by omega) (Nat.pow_le_pow_left hnd 2)
  have hn5 : 5 * n ^ 3 * d ^ 2 ≤ 15 * n * d ^ 4 := by
    calc 5 * n ^ 3 * d ^ 2 = 5 * d ^ 2 * n ^ 3 := by ring
      _ ≤ 5 * d ^ 2 * (3 * n * d ^ 2) := Nat.mul_le_mul_left _ hn3
      _ = _ := by ring
  have e1 : (((3 * n * d ^ 2 - n ^ 3) <<< 1074 : Nat) : ℝ) / ((3 * d ^ 3 : Nat) : ℝ) = (x - x ^ 3 / 3) * oneUnits := by
    rw [cast_shift_units, Nat.cast_sub hn3, hxdef]
    generalize (oneUnits : ℝ) = u
    push_cast
    field_simp
    try ring
  have e2 : (((15 * n * d ^ 4 - 5 * n ^ 3 * d ^ 2 + 3 * n ^ 5) <<< 1074 : Nat) : ℝ) / ((15 * d ^ 5 : Nat) : ℝ) =
      (x - x ^ 3 / 3 + x ^ 5 / 5) * oneUnits := by
    rw [cast_shift_units, Nat.cast_add, Nat.cast_sub hn5, hxdef]
    generalize (oneUnits : ℝ) = u
    push_cast
    field_simp
    try ring
  have k1 := roundMag_nearestUpTo ((3 * n * d ^ 2 - n ^ 3) <<< 1074) (den := 3 * d ^ 3) (by positivity)
  have k2 := roundMag_nearestUpTo ((15 * n * d ^ 4 - 5 * n ^ 3 * d ^ 2 + 3 * n ^ 5) <<< 1074) (den := 15 * d ^ 5) (by positivity)
  rw [e1] at k1
  rw [e2] at k2
  have hw := mul_nonneg hx5 hP
  rw [atanTiny_eq] at hlt ⊢
  generalize roundMag ((3 * n * d ^ 2 - n ^ 3) <<< 1074) (3 * d ^ 3) = lo at *
  generalize roundMag ((15 * n * d ^ 4 - 5 * n ^ 3 * d ^ 2 + 3 * n ^ 5) <<< 1074) (15 * d ^ 5) = hi at *
  by_cases h : lo = hi
  · rw [if_pos h] at hlt ⊢
    exact ((k1 hlt).between (h ▸ k2 (h ▸ hlt)) m1 m2).mono (by linarith)
  · rw [if_neg h] at hlt ⊢
    cases upper
    · simp only [Bool.false_eq_true, if_false] at hlt ⊢
      exact (k1 hlt).close (by rw [abs_le]; constructor <;> linarith)
    · simp only [if_true] at hlt ⊢
      exact (k2 hlt).close (by rw [abs_le]; constructor <;> linarith)

/-! ## The angle of a point -/

theorem shift_mul_le {a b c d : Nat} (k : Nat) (h : a * d ≤ b * c) : (a <<< k) * d ≤ (b <<< k) * c := by
  rw [Nat.shiftLeft_eq, Nat.shiftLeft_eq, Nat.mul_right_comm, Nat.mul_right_comm b]
  exact Nat.mul_le_mul_right _ h

/-- The enclosure of the arctangent of 1 does not depend on the units. -/
theorem atanEnc_diag {n : Nat} (hn : 0 < n) (p : Nat) : atanEnc n n p = atanEnc 1 1 p := by
  have hnn : 0 < n * n := by positivity
  have h : ∀ (fuel j t acc : Nat), atanSum (n * n) (n * n + n * n) fuel j t acc = atanSum 1 2 fuel j t acc := by
    intro fuel
    induction fuel with
    | zero => intros; rfl
    | succ fuel ih =>
      intro j t acc
      rw [atanSum, atanSum, ih]
      congr 1
      rw [show (2 * j + 1) * (n * n + n * n) = (2 * j + 1) * 2 * (n * n) by ring, Nat.mul_div_mul_right _ _ hnn, Nat.mul_one]
  have h0 : ((n * n) <<< p) / (n * n + n * n) = (1 <<< p) / 2 := by
    rw [Nat.shiftLeft_eq, Nat.shiftLeft_eq, Nat.one_mul, show n * n + n * n = 2 * (n * n) by ring, Nat.mul_comm (n * n),
      Nat.mul_div_mul_right _ _ hnn]
  simp only [atanEnc, h, h0, Nat.mul_one]

theorem angleEnc_diag (left : Bool) {n : Nat} (hn : 0 < n) : angleEnc left n n = angleEnc left 1 1 := by
  funext p
  simp only [angleEnc, atanEncAny, le_refl, if_true, atanEnc_diag hn]

theorem angleOf_pos (left : Bool) {n d : Nat} (hn : 0 < n) (hd : 0 < d) : 0 < angleOf left n d := by
  have hnr : (0 : ℝ) < n := by exact_mod_cast hn
  have hdr : (0 : ℝ) < d := by exact_mod_cast hd
  have h0 : 0 < Real.arctan ((n : ℝ) / d) := Real.arctan_pos.2 (by positivity)
  have h1 := Real.arctan_lt_pi_div_two ((n : ℝ) / d)
  have := Real.pi_pos
  unfold angleOf
  split <;> linarith

/-- To the left of the origin the angle is at least `π/2`, to the right at most that; it is at most `π`. -/
theorem angleOf_quadrant (left : Bool) {n d : Nat} (hn : 0 < n) (hd : 0 < d) :
    (left = false → angleOf left n d ≤ Real.pi / 2) ∧ (left = true → Real.pi / 2 ≤ angleOf left n d) ∧
      angleOf left n d ≤ Real.pi := by
  have hnr : (0 : ℝ) < n := by exact_mod_cast hn
  have hdr : (0 : ℝ) < d := by exact_mod_cast hd
  have h0 : 0 < Real.arctan ((n : ℝ) / d) := Real.arctan_pos.2 (by positivity)
  have h1 := Real.arctan_lt_pi_div_two ((n : ℝ) / d)
  unfold angleOf
  cases left
  · simp only [Bool.false_eq_true, if_false]
    exact ⟨fun _ => h1.le, by simp, by linarith⟩
  · simp only [if_true]
    exact ⟨by simp, fun _ => by linarith, by linarith⟩

/-- An enclosure of an angle rounds to no more than an upper bound of the angle does, its ends moved by their distance. -/
theorem highEnd_angleEnc_le {left : Bool} {n d a q : Nat} (hn : 0 < n) (hd : 0 < d) (h : angleOf left n d * 2 ^ q ≤ a) :
    highEnd (angleEnc left n d) q ≤ roundMag ((a + (14 * q + 44)) <<< 1074) (1 <<< q) := by
  have pos : 0 < 1 <<< q := by rw [Nat.one_shiftLeft]; positivity
  have h1 : ((angleEnc left n d q).1 : ℝ) ≤ a := (angleEnc_encloses left hn hd q).1.trans h
  have h2 := angleEnc_width left n d q
  have h3 : (angleEnc left n d q).1 ≤ a := by exact_mod_cast h1
  exact roundMag_mono pos pos (shift_mul_le _ (Nat.mul_le_mul_right _ (by omega)))

theorem le_lowEnd_angleEnc {left : Bool} {n d a q : Nat} (hn : 0 < n) (hd : 0 < d) (h : (a : ℝ) ≤ angleOf left n d * 2 ^ q) :
    roundMag ((a - (14 * q + 44)) <<< 1074) (1 <<< q) ≤ lowEnd (angleEnc left n d) q := by
  have pos : 0 < 1 <<< q := by rw [Nat.one_shiftLeft]; positivity
  have h1 : (a : ℝ) ≤ ((angleEnc left n d q).2 : ℝ) := h.trans (angleEnc_encloses left hn hd q).2
  have h2 := angleEnc_width left n d q
  have h3 : a ≤ (angleEnc left n d q).2 := by exact_mod_cast h1
  exact roundMag_mono pos pos (shift_mul_le _ (Nat.mul_le_mul_right _ (by omega)))

/-- At every precision tried, `π/2` and `π` round to their values even after the ends are moved. -/
theorem piEnc_rounds : ∀ q ∈ 128 :: trigPlaces,
    roundMag (((piEnc q).2 / 2 + 1 + (14 * q + 44)) <<< 1074) (1 <<< q) = halfPiMag ∧
      roundMag (((piEnc q).1 / 2 - (14 * q + 44)) <<< 1074) (1 <<< q) = halfPiMag ∧
      roundMag (((piEnc q).2 + (14 * q + 44)) <<< 1074) (1 <<< q) = piMag := by decide +kernel

theorem encloses_le {e : Nat × Nat} {p : Nat} {θ : ℝ} (h : Encloses e p θ) : e.1 ≤ e.2 := by
  exact_mod_cast h.1.trans h.2

theorem atanTiny_le_halfPi {n d : Nat} (hd : 0 < d) (hnd : n ≤ d) (upper : Bool) : atanTiny n d upper ≤ halfPiMag := by
  have b2 : n ^ 5 ≤ d ^ 5 := Nat.pow_le_pow_left hnd 5
  have b1 : n * d ^ 2 ≤ d ^ 3 := by rw [show d ^ 3 = d * d ^ 2 by ring]; exact Nat.mul_le_mul_right _ hnd
  have b3 : n * d ^ 4 ≤ d ^ 5 := by rw [show d ^ 5 = d * d ^ 4 by ring]; exact Nat.mul_le_mul_right _ hnd
  have h6 : roundMag (6 <<< 1074) 5 ≤ halfPiMag := by decide +kernel
  have lo : roundMag ((3 * n * d ^ 2 - n ^ 3) <<< 1074) (3 * d ^ 3) ≤ halfPiMag := by
    refine (roundMag_mono (by positivity) (by norm_num) (shift_mul_le _ ?_)).trans h6
    rw [Nat.mul_assoc 3]; omega
  have hi : roundMag ((15 * n * d ^ 4 - 5 * n ^ 3 * d ^ 2 + 3 * n ^ 5) <<< 1074) (15 * d ^ 5) ≤ halfPiMag := by
    refine (roundMag_mono (by positivity) (by norm_num) (shift_mul_le _ ?_)).trans h6
    rw [Nat.mul_assoc 15]; omega
  rw [atanTiny_eq]
  split
  · exact lo
  · split
    · exact hi
    · exact lo

/-- The rounded angle lies in the quadrant of the point, and within `RN(π)`. -/
theorem angleMag_quadrant (left : Bool) {n d : Nat} (hn : 0 < n) (hd : 0 < d) (upper : Bool) :
    (left = false → angleMag left n d upper ≤ halfPiMag) ∧ (left = true → halfPiMag ≤ angleMag left n d upper) ∧
      angleMag left n d upper ≤ piMag := by
  obtain ⟨q1, q2, q3⟩ := angleOf_quadrant left hn hd
  have henc := fun q => encloses_le (angleEnc_encloses left hn hd q)
  have up : ∀ q, Real.pi / 2 * 2 ^ q ≤ (((piEnc q).2 / 2 + 1 : Nat) : ℝ) := fun q => by
    have f := (floor_bounds (piEnc q).2 2 two_pos).2
    have := (piEnc_encloses q).2
    push_cast at f ⊢; linarith
  have down : ∀ q, (((piEnc q).1 / 2 : Nat) : ℝ) ≤ Real.pi / 2 * 2 ^ q := fun q => by
    have f := (floor_bounds (piEnc q).1 2 two_pos).1
    have := (piEnc_encloses q).1
    push_cast at f ⊢; linarith
  cases left
  · have key : angleMag false n d upper ≤ halfPiMag := by
      unfold angleMag
      split
      · rename_i h
        have h' : n <<< 64 < d := by simpa using h
        rw [Nat.shiftLeft_eq] at h'
        exact atanTiny_le_halfPi hd (by omega) upper
      · refine (roundEnclosed_bounds upper henc (lo := 0) trigPlaces 128 fun q hq => ⟨Nat.zero_le _, ?_⟩).2
        rw [← (piEnc_rounds q hq).1]
        refine highEnd_angleEnc_le hn hd ?_
        have := mul_le_mul_of_nonneg_right (q1 rfl) (show (0 : ℝ) ≤ 2 ^ q by positivity)
        linarith [up q]
    exact ⟨fun _ => key, by simp, key.trans (by decide)⟩
  · have key := roundEnclosed_bounds upper henc (lo := halfPiMag) (hi := piMag) trigPlaces 128 fun q hq => by
      have hp : (0 : ℝ) ≤ 2 ^ q := by positivity
      obtain ⟨-, r2, r3⟩ := piEnc_rounds q hq
      constructor
      · rw [← r2]
        refine le_lowEnd_angleEnc hn hd ?_
        have := mul_le_mul_of_nonneg_right (q2 rfl) hp
        linarith [down q]
      · rw [← r3]
        refine highEnd_angleEnc_le hn hd ?_
        have := mul_le_mul_of_nonneg_right q3 hp
        exact this.trans (piEnc_encloses q).2
    have e : angleMag true n d upper = roundEnclosed (angleEnc true n d) upper 128 trigPlaces := by simp [angleMag]
    rw [e]
    exact ⟨by simp, fun _ => key.1, key.2⟩

/-- On the diagonals the rounded angle is `RN(π/4)` or `RN(3π/4)`. -/
theorem angleMag_diag (left : Bool) {n : Nat} (hn : 0 < n) (upper : Bool) :
    angleMag left n n upper = if left then threeQuarterPiMag else quarterPiMag := by
  have e : angleMag left n n upper = roundEnclosed (angleEnc left 1 1) upper 128 trigPlaces := by
    rw [angleMag, if_neg, angleEnc_diag left hn]
    rw [Nat.shiftLeft_eq]; simp; omega
  rw [e, trigPlaces, roundEnclosed_cons, if_pos]
  · cases left <;> decide +kernel
  · cases left <;> decide +kernel

/-- Twice a fifth of the fifth power of a tiny ratio is far below its arctangent. -/
theorem fifth_le_arctan {x : ℝ} (hx0 : 0 ≤ x) (hxs : x ≤ 1 / 2 ^ 64) : 2 * (x ^ 5 / 5) ≤ Real.arctan x / 2 ^ 200 := by
  have hc := (arctan_cubic hx0).1
  have hx4 : x ^ 4 ≤ (1 / 2 ^ 64) ^ 4 := by gcongr
  have hx2 : x ^ 2 ≤ (1 / 2 ^ 64) ^ 2 := by gcongr
  have hat : x / 2 ≤ Real.arctan x := by nlinarith
  have h5 : 2 * (x ^ 5 / 5) ≤ x / 2 / 2 ^ 200 := by
    rw [show x ^ 5 = x * x ^ 4 by ring]; nlinarith
  exact h5.trans (by gcongr)

/-- The width of the last enclosure is far below an angle of at least `2^-66`. -/
theorem width_le_angle {u θ : ℝ} (hu : 0 ≤ u) (hθ : 1 / 2 ^ 66 ≤ θ) : 2 * (14380 * u / 2 ^ 1024) ≤ θ * u / 2 ^ 200 := by
  have e : (2 : ℝ) ^ 1024 = 2 ^ 15 * 2 ^ 66 * 2 ^ 200 * 2 ^ 743 := by rw [← pow_add, ← pow_add, ← pow_add]
  have h1 : (1 : ℝ) ≤ 2 ^ 743 := one_le_pow₀ one_le_two
  have g : (2 : ℝ) ^ 15 * 2 ^ 66 * 2 ^ 200 ≤ 2 ^ 1024 := by rw [e]; exact le_mul_of_one_le_right (by positivity) h1
  have m := mul_le_mul_of_nonneg_right hθ hu
  calc 2 * (14380 * u / 2 ^ 1024) ≤ 2 * (14380 * u / (2 ^ 15 * 2 ^ 66 * 2 ^ 200)) := by gcongr
    _ ≤ θ * u / 2 ^ 200 := by norm_num at m ⊢; linarith

/-- The rounded angle is nearest to the exact one, up to a 2^-200th of it. -/
theorem angleMag_nearest (left : Bool) {n d : Nat} (hn : 0 < n) (hd : 0 < d) (upper : Bool) :
    NearestUpTo (angleOf left n d * oneUnits) (angleOf left n d * oneUnits / 2 ^ 200) (angleMag left n d upper) := by
  have hnr : (0 : ℝ) < n := by exact_mod_cast hn
  have hdr : (0 : ℝ) < d := by exact_mod_cast hd
  have hP := oneUnits_pos
  have hlt : angleMag left n d upper < infMag := lt_of_le_of_lt (angleMag_quadrant left hn hd upper).2.2 (by decide)
  unfold angleMag at hlt ⊢
  split at hlt
  · rename_i h
    rw [if_pos h]
    simp only [Bool.and_eq_true, Bool.not_eq_true', decide_eq_true_eq] at h
    obtain ⟨rfl, h⟩ := h
    have h' : (n : ℝ) * 2 ^ 64 ≤ d := by rw [Nat.shiftLeft_eq] at h; exact_mod_cast h.le
    rw [Nat.shiftLeft_eq] at h
    refine (atanTiny_nearest hd (by omega) upper hlt).mono ?_
    set x : ℝ := (n : ℝ) / d with hx
    have hx0 : 0 < x := by positivity
    have hxs : x ≤ 1 / 2 ^ 64 := by rw [hx, div_le_div_iff₀ hdr (by positivity)]; linarith
    have hfin := fifth_le_arctan hx0.le hxs
    have m := mul_le_mul_of_nonneg_right hfin hP.le
    simp only [angleOf, Bool.false_eq_true, if_false]
    rw [← hx]
    generalize (oneUnits : ℝ) = u at m ⊢
    linarith
  · rename_i h
    rw [if_neg h]
    have hang : 1 / 2 ^ 66 ≤ angleOf left n d := by
      cases left
      · have h' : d ≤ n * 2 ^ 64 := by rw [Nat.shiftLeft_eq] at h; simpa using h
        have hr : (d : ℝ) ≤ n * 2 ^ 64 := by exact_mod_cast h'
        have hx : (1 : ℝ) / 2 ^ 64 ≤ (n : ℝ) / d := by rw [div_le_div_iff₀ (by positivity) hdr]; linarith
        have c : (1 : ℝ) / 2 ^ 66 ≤ Real.arctan (1 / 2 ^ 64) :=
          le_trans (by norm_num) (arctan_cubic (x := 1 / 2 ^ 64) (by positivity)).1
        simp only [angleOf, Bool.false_eq_true, if_false]
        exact c.trans (Real.arctan_strictMono.monotone hx)
      · have := (angleOf_quadrant true hn hd).2.1 rfl
        have := Real.pi_gt_three
        norm_num; linarith
    refine (roundEnclosed_nearest (w := 14380 * (oneUnits : ℝ) / 2 ^ 1024) upper (angleEnc_encloses left hn hd)
      (div_nonneg (mul_nonneg (by norm_num) hP.le) (by positivity)) trigPlaces
      128 hlt ?_).mono ?_
    · intro q hq
      have hq' : q = 1024 := hq.symm
      have hw := angleEnc_width left n d q
      have hwr : ((angleEnc left n d q).2 : ℝ) ≤ (angleEnc left n d q).1 + 14380 := by
        have : (angleEnc left n d q).2 ≤ (angleEnc left n d q).1 + 14380 := by omega
        exact_mod_cast this
      rw [hq'] at hwr ⊢
      rw [div_mul_cancel₀ _ (by positivity)]
      have := mul_le_mul_of_nonneg_right hwr hP.le
      linarith
    · exact width_le_angle hP.le hang

/-! ## Sine and cosine -/

/-- The terms of the Taylor series from power `j` on, in units of `S`. -/
noncomputable def taylorTerm (S x : ℝ) (j i : ℕ) : ℝ := S * (x ^ (j + 2 * i) / (j + 2 * i).factorial)

theorem taylorTerm_succ (S x : ℝ) (j i : ℕ) : taylorTerm S x j (i + 1) = taylorTerm S x (j + 2) i := by
  unfold taylorTerm; rw [show j + 2 * (i + 1) = j + 2 + 2 * i by ring]

theorem taylorTerm_next (S x : ℝ) (j : ℕ) :
    taylorTerm S x (j + 2) 0 = taylorTerm S x j 0 * (x ^ 2 / ((j + 1) * (j + 2))) := by
  unfold taylorTerm
  simp only [Nat.mul_zero, Nat.add_zero]
  rw [Nat.factorial_succ, Nat.factorial_succ]
  push_cast
  field_simp
  ring

/-- The floored step from one term to the next. -/
theorem floor_term (t x p j : Nat) :
    (((t * x * x / ((j + 1) * (j + 2))) >>> (2 * p) : Nat) : ℝ) ≤ t * (((x : ℝ) / 2 ^ p) ^ 2 / ((j + 1) * (j + 2))) ∧
      t * (((x : ℝ) / 2 ^ p) ^ 2 / ((j + 1) * (j + 2))) ≤
        (((t * x * x / ((j + 1) * (j + 2))) >>> (2 * p) : Nat) : ℝ) + 1 := by
  have e : (t : ℝ) * (((x : ℝ) / 2 ^ p) ^ 2 / ((j + 1) * (j + 2))) =
      ((t * x * x : Nat) : ℝ) / (((j + 1) * (j + 2) * 2 ^ (2 * p) : Nat) : ℝ) := by
    push_cast; rw [show 2 * p = p * 2 by ring, pow_mul]; field_simp
  rw [e, Nat.shiftRight_eq_div_pow, Nat.div_div_eq_div_mul]
  exact floor_bounds _ _ (by positivity)

/-- The two sums differ by the alternating sum of the terms, up to two units a term. -/
theorem trigSum_bounds {x p : Nat} (hx : (x : ℝ) / 2 ^ p ≤ 8 / 5) :
    ∀ (fuel j t pos neg : Nat) (e : ℝ), 0 ≤ e → e ≤ 2 → (e = 0 ∨ 1 ≤ j) →
      (t : ℝ) ≤ taylorTerm (2 ^ p) (x / 2 ^ p) j 0 → taylorTerm (2 ^ p) (x / 2 ^ p) j 0 ≤ t + e →
      |((trigSum x p fuel j t pos neg).1 : ℝ) - (trigSum x p fuel j t pos neg).2 -
        (-1) ^ fuel * ((pos : ℝ) - neg +
          ∑ i ∈ Finset.range fuel, (-1) ^ i * taylorTerm (2 ^ p) (x / 2 ^ p) j i)| ≤ 2 * fuel := by
  intro fuel
  induction fuel with
  | zero => intro j t pos neg e _ _ _ _ _; simp [trigSum]
  | succ fuel ih =>
    intro j t pos neg e he he2 hj h1 h2
    set X : ℝ := (x : ℝ) / 2 ^ p with hX
    have hX0 : 0 ≤ X := by positivity
    set c : ℝ := X ^ 2 / ((j + 1) * (j + 2)) with hc
    have hc0 : 0 ≤ c := by positivity
    have hec : e * c ≤ 1 := by
      rcases hj with rfl | hj
      · simp
      · have hj' : (1 : ℝ) ≤ j := by exact_mod_cast hj
        have : c ≤ 1 / 2 := by
          rw [hc, div_le_iff₀ (by positivity)]; nlinarith
        nlinarith
    obtain ⟨f1, f2⟩ := floor_term t x p j
    rw [← hX, ← hc] at f1 f2
    have hn := taylorTerm_next (2 ^ p) X j
    rw [← hc] at hn
    have g1 := mul_le_mul_of_nonneg_right h1 hc0
    have g2 := mul_le_mul_of_nonneg_right h2 hc0
    have k := ih (j + 2) ((t * x * x / ((j + 1) * (j + 2))) >>> (2 * p)) neg (pos + t) 2 (by norm_num) le_rfl
      (.inr (by omega)) (by rw [hn]; linarith) (by rw [hn]; nlinarith)
    rw [trigSum, Finset.sum_range_succ']
    have hs : ∑ i ∈ Finset.range fuel, (-1 : ℝ) ^ (i + 1) * taylorTerm (2 ^ p) X j (i + 1) =
        -∑ i ∈ Finset.range fuel, (-1) ^ i * taylorTerm (2 ^ p) X (j + 2) i := by
      rw [← Finset.sum_neg_distrib]
      refine Finset.sum_congr rfl fun i _ => ?_
      rw [taylorTerm_succ, pow_succ]; ring
    rw [hs]
    set A : ℝ := ∑ i ∈ Finset.range fuel, (-1 : ℝ) ^ i * taylorTerm (2 ^ p) X (j + 2) i
    set P : ℝ := ((trigSum x p fuel (j + 2) ((t * x * x / ((j + 1) * (j + 2))) >>> (2 * p)) neg (pos + t)).1 : ℝ)
    set N : ℝ := ((trigSum x p fuel (j + 2) ((t * x * x / ((j + 1) * (j + 2))) >>> (2 * p)) neg (pos + t)).2 : ℝ)
    set τ : ℝ := taylorTerm (2 ^ p) X j 0
    push_cast at *
    have hsg : |(-1 : ℝ) ^ fuel * (τ - t)| ≤ 2 := by
      rw [abs_mul, abs_pow, abs_neg, abs_one, one_pow, one_mul, abs_of_nonneg (by linarith)]; linarith
    have hrw : P - N - (-1) ^ (fuel + 1) * ((pos : ℝ) - neg + (-A + (-1) ^ 0 * τ)) =
        (P - N - (-1) ^ fuel * ((neg : ℝ) - (pos + t) + A)) + (-1) ^ fuel * (τ - t) := by
      rw [pow_succ]; ring
    rw [hrw]
    have := abs_add_le (P - N - (-1) ^ fuel * ((neg : ℝ) - (pos + t) + A)) ((-1) ^ fuel * (τ - t))
    linarith

theorem eight_pow_le (m : ℕ) : 8 ^ m ≤ 2 ^ 57 * m.factorial := by
  induction m with
  | zero => norm_num
  | succ m ih =>
    rcases Nat.lt_or_ge m 7 with h | h
    · have h1 : 8 ^ (m + 1) ≤ 8 ^ 8 := Nat.pow_le_pow_right (by norm_num) (by omega)
      have h2 : 1 ≤ (m + 1).factorial := Nat.factorial_pos _
      calc 8 ^ (m + 1) ≤ 8 ^ 8 := h1
        _ ≤ 2 ^ 57 * 1 := by norm_num
        _ ≤ _ := Nat.mul_le_mul_left _ h2
    · rw [pow_succ, Nat.factorial_succ]
      calc 8 ^ m * 8 ≤ 2 ^ 57 * m.factorial * (m + 1) := Nat.mul_le_mul ih (by omega)
        _ = _ := by ring

/-- The first term left out is less than a unit. -/
theorem taylor_rest {X : ℝ} (h0 : 0 ≤ X) (h2 : X ≤ 2) (p m : ℕ) (hm : p + 57 ≤ 2 * m) : 2 ^ p * (X ^ m / m.factorial) ≤ 1 := by
  have hf : (0 : ℝ) < m.factorial := by exact_mod_cast m.factorial_pos
  rw [← mul_div_assoc, div_le_one hf]
  have h8 : (8 : ℝ) ^ m ≤ 2 ^ 57 * m.factorial := by exact_mod_cast eight_pow_le m
  have hx : X ^ m ≤ 2 ^ m := by gcongr
  have hp : (2 : ℝ) ^ p * 2 ^ 57 ≤ 2 ^ (2 * m) := by
    rw [← pow_add]; exact pow_le_pow_right₀ (by norm_num) hm
  have e : (8 : ℝ) ^ m = 2 ^ (2 * m) * 2 ^ m := by rw [pow_mul, ← mul_pow]; norm_num
  have h3 : (2 : ℝ) ^ p * 2 ^ m * 2 ^ 57 ≤ m.factorial * 2 ^ 57 := by
    calc (2 : ℝ) ^ p * 2 ^ m * 2 ^ 57 = (2 ^ p * 2 ^ 57) * 2 ^ m := by ring
      _ ≤ 2 ^ (2 * m) * 2 ^ m := by gcongr
      _ = 8 ^ m := e.symm
      _ ≤ 2 ^ 57 * m.factorial := h8
      _ = _ := by ring
  have h4 : (2 : ℝ) ^ p * 2 ^ m ≤ m.factorial := le_of_mul_le_mul_right h3 (by positivity)
  calc 2 ^ p * X ^ m ≤ 2 ^ p * 2 ^ m := by gcongr
    _ ≤ _ := h4

/-- The cosine or the sine of `2π t / 2^l`. -/
noncomputable def trigOf (cosine : Bool) (l t : Nat) : ℝ :=
  if cosine then Real.cos (2 * Real.pi * t / 2 ^ l) else Real.sin (2 * Real.pi * t / 2 ^ l)

/-- The enclosures of sine and cosine in the first quadrant are sound. -/
theorem trigEnc_encloses (cosine : Bool) {l t : Nat} (ht : 4 * t ≤ 2 ^ l) (p : Nat) :
    Encloses (trigEnc cosine l t p) p (trigOf cosine l t) := by
  have hS : (0 : ℝ) < 2 ^ p := by positivity
  have hl : (0 : ℝ) < 2 ^ l := by positivity
  have htr : 4 * (t : ℝ) ≤ 2 ^ l := by exact_mod_cast ht
  set θ : ℝ := 2 * Real.pi * t / 2 ^ l with hθ
  have hπ := Real.pi_pos
  have hθ0 : 0 ≤ θ := by positivity
  have hθ1 : θ ≤ Real.pi / 2 := by rw [hθ, div_le_div_iff₀ hl two_pos]; nlinarith
  obtain ⟨p1, p2⟩ := piEnc_encloses p
  set x := (2 * t * (piEnc p).1) >>> l with hx
  set X : ℝ := (x : ℝ) / 2 ^ p with hX
  have hX0 : 0 ≤ X := by positivity
  have ht0 : (0 : ℝ) ≤ t := Nat.cast_nonneg t
  have hxθ : (x : ℝ) ≤ θ * 2 ^ p := by
    rw [hx, Nat.shiftRight_eq_div_pow]
    have f := (floor_bounds (2 * t * (piEnc p).1) (2 ^ l) (by positivity)).1
    push_cast at f
    refine f.trans ?_
    rw [div_le_iff₀ hl, hθ]
    have e : 2 * Real.pi * t / 2 ^ l * 2 ^ p * 2 ^ l = 2 * t * (Real.pi * 2 ^ p) := by field_simp
    rw [e]; gcongr
  have hXθ : X ≤ θ := by rw [hX, div_le_iff₀ hS]; exact hxθ
  have hX1 : X ≤ 8 / 5 := by have := Real.pi_lt_d2; linarith
  have hwid : θ * 2 ^ p - x ≤ ((((2 * t * (piEnc p).2) >>> l) + 1 - x : Nat) : ℝ) := by
    refine le_sub_bounds ?_ le_rfl
    rw [Nat.shiftRight_eq_div_pow]
    have f := (floor_bounds (2 * t * (piEnc p).2) (2 ^ l) (by positivity)).2
    push_cast at f ⊢
    refine le_trans ?_ f
    rw [le_div_iff₀ hl, hθ]
    have e : 2 * Real.pi * t / 2 ^ l * 2 ^ p * 2 ^ l = 2 * t * (Real.pi * 2 ^ p) := by field_simp
    rw [e]; gcongr
  set K := 2 * (p / 8 + 8) with hK
  have hdist : |θ - X| * 2 ^ p = θ * 2 ^ p - x := by
    rw [abs_of_nonneg (by linarith), hX]; field_simp
  -- the value, the sums and the error, for either function
  have main : ∀ (v vX s : ℝ) (P N : Nat), 0 ≤ v → |v - vX| ≤ |θ - X| → 2 ^ p * |vX - s| ≤ 1 →
      |(P : ℝ) - N - 2 ^ p * s| ≤ 2 * K →
      Encloses (P - N - ((((2 * t * (piEnc p).2) >>> l) + 1 - x) + 6 * (p / 8 + 8) + 2),
        P - N + ((((2 * t * (piEnc p).2) >>> l) + 1 - x) + 6 * (p / 8 + 8) + 2)) p v := by
    intro v vX s P N hv h1 h2 h3
    set W := ((2 * t * (piEnc p).2) >>> l) + 1 - x
    have hKr : (K : ℝ) = 2 * ((p / 8 + 8 : Nat) : ℝ) := by rw [hK]; push_cast; ring
    have d1 : |v * 2 ^ p - vX * 2 ^ p| ≤ θ * 2 ^ p - x := by
      rw [← sub_mul, abs_mul, abs_of_pos hS, ← hdist]; gcongr
    have d2 : |vX * 2 ^ p - 2 ^ p * s| ≤ 1 := by
      rw [mul_comm vX, ← mul_sub, abs_mul, abs_of_pos hS]; exact h2
    rw [abs_le] at d1 d2 h3
    rw [hKr] at h3
    have hv' : 0 ≤ v * 2 ^ p := by positivity
    have hPN : (P : ℝ) - N ≤ ((P - N : Nat) : ℝ) := le_sub_bounds le_rfl le_rfl
    have hE : ((W + 6 * (p / 8 + 8) + 2 : Nat) : ℝ) = W + 6 * ((p / 8 + 8 : Nat) : ℝ) + 2 := by push_cast; ring
    have hc0 : (0 : ℝ) ≤ ((p / 8 + 8 : Nat) : ℝ) := Nat.cast_nonneg _
    constructor
    · show ((P - N - (W + 6 * (p / 8 + 8) + 2) : Nat) : ℝ) ≤ v * 2 ^ p
      rcases Nat.le_total (N + (W + 6 * (p / 8 + 8) + 2)) P with h | h
      · rw [Nat.sub_sub, Nat.cast_sub h, Nat.cast_add, hE]; linarith [d1.1, d2.1, h3.2]
      · rw [Nat.sub_sub, Nat.sub_eq_zero_of_le h]; simpa using hv'
    · show v * 2 ^ p ≤ ((P - N + (W + 6 * (p / 8 + 8) + 2) : Nat) : ℝ)
      rw [Nat.cast_add, hE]; linarith [d1.2, d2.2, h3.1]
  have heven : (-1 : ℝ) ^ K = 1 := by rw [hK, pow_mul]; norm_num
  have hKpos : 0 < K := by omega
  cases cosine
  · have hb := trigSum_bounds (x := x) (p := p) hX1 K 1 x 0 0 0 le_rfl (by norm_num) (.inl rfl)
      (by simp only [taylorTerm]; simp; rw [mul_div_cancel₀ _ hS.ne']) (by simp only [taylorTerm]; simp; rw [mul_div_cancel₀ _ hS.ne'])
    rw [heven, one_mul, Nat.cast_zero, sub_zero, zero_add] at hb
    have hs : ∑ i ∈ Finset.range K, (-1 : ℝ) ^ i * taylorTerm (2 ^ p) X 1 i = 2 ^ p * sinSum K X := by
      rw [sinSum, Finset.mul_sum]
      refine Finset.sum_congr rfl fun i _ => ?_
      rw [taylorTerm, Nat.add_comm 1]; ring
    rw [← hX, hs] at hb
    have hr := abs_sin_sub_sinSum hKpos hX0
    have hr2 := taylor_rest hX0 (by linarith) p (2 * K + 1) (by omega)
    refine main (trigOf false l t) (Real.sin X) (sinSum K X) _ _ ?_ ?_ ?_ hb
    · simp only [trigOf, Bool.false_eq_true, if_false]; rw [← hθ]
      exact Real.sin_nonneg_of_nonneg_of_le_pi hθ0 (by linarith)
    · simp only [trigOf, Bool.false_eq_true, if_false]; rw [← hθ]; exact Real.abs_sin_sub_sin_le _ _
    · exact (mul_le_mul_of_nonneg_left hr hS.le).trans hr2
  · have hb := trigSum_bounds (x := x) (p := p) hX1 K 0 (1 <<< p) 0 0 0 le_rfl (by norm_num) (.inl rfl)
      (by rw [cast_one_shift]; simp [taylorTerm]) (by rw [cast_one_shift]; simp [taylorTerm])
    rw [heven, one_mul, Nat.cast_zero, sub_zero, zero_add] at hb
    have hs : ∑ i ∈ Finset.range K, (-1 : ℝ) ^ i * taylorTerm (2 ^ p) X 0 i = 2 ^ p * cosSum K X := by
      rw [cosSum, Finset.mul_sum]
      refine Finset.sum_congr rfl fun i _ => ?_
      rw [taylorTerm, Nat.zero_add]; ring
    rw [← hX, hs] at hb
    have hr := abs_cos_sub_cosSum hKpos hX0
    have hr2 := taylor_rest hX0 (by linarith) p (2 * K) (by omega)
    refine main (trigOf true l t) (Real.cos X) (cosSum K X) _ _ ?_ ?_ ?_ hb
    · simp only [trigOf, if_true]; rw [← hθ]
      exact Real.cos_nonneg_of_neg_pi_div_two_le_of_le (by linarith) hθ1
    · simp only [trigOf, if_true]; rw [← hθ]; exact Real.abs_cos_sub_cos_le _ _
    · exact (mul_le_mul_of_nonneg_left hr hS.le).trans hr2

theorem trigEnc_width (cosine : Bool) {l t : Nat} (ht : 4 * t ≤ 2 ^ l) (p : Nat) :
    (trigEnc cosine l t p).2 ≤ (trigEnc cosine l t p).1 + 2 * (8 * p + 26 + 6 * (p / 8 + 8) + 2) := by
  have hpi : (piEnc p).2 = (piEnc p).1 + 4 * (2 * p + 6) := by simp only [piEnc, atanEnc]; omega
  have hw : (2 * t * (piEnc p).2) >>> l ≤ (2 * t * (piEnc p).1) >>> l + 4 * (2 * p + 6) + 1 := by
    rw [Nat.shiftRight_eq_div_pow, Nat.shiftRight_eq_div_pow, hpi]
    have hpos : 0 < 2 ^ l := by positivity
    refine Nat.le_of_lt_succ ((Nat.div_lt_iff_lt_mul hpos).2 ?_)
    have h1 := Nat.lt_div_mul_add hpos (a := 2 * t * (piEnc p).1)
    have h2 : 2 * t * (4 * (2 * p + 6)) ≤ 2 ^ l * (4 * (2 * p + 6)) := Nat.mul_le_mul_right _ (by omega)
    have e : (2 * t * (piEnc p).1 / 2 ^ l + 4 * (2 * p + 6) + 1 + 1) * 2 ^ l =
        2 * t * (piEnc p).1 / 2 ^ l * 2 ^ l + 2 ^ l + 2 ^ l * (4 * (2 * p + 6)) + 2 ^ l := by ring
    rw [Nat.mul_add, Nat.succ_eq_add_one, e]; omega
  simp only [trigEnc]
  omega

/-! ## The twiddle constants -/

theorem trigOf_le_one (cosine : Bool) (l t : Nat) : trigOf cosine l t ≤ 1 := by
  cases cosine
  · exact Real.sin_le_one _
  · exact Real.cos_le_one _

theorem trigMag_lt (cosine : Bool) {l t : Nat} (ht : 4 * t ≤ 2 ^ l) : trigMag cosine l t < infMag := by
  have big : ∀ q ∈ 128 :: trigPlaces,
      roundMag (((1 <<< q) + 2 * (8 * q + 26 + 6 * (q / 8 + 8) + 2)) <<< 1074) (1 <<< q) ≤ piMag := by decide +kernel
  have key := roundEnclosed_bounds (Config.twiddleUpper l t) (fun q => encloses_le (trigEnc_encloses cosine ht q)) (lo := 0)
    trigPlaces 128 fun q hq => by
      have pos : 0 < 1 <<< q := by rw [Nat.one_shiftLeft]; positivity
      have h1 : ((trigEnc cosine l t q).1 : ℝ) ≤ ((1 <<< q : Nat) : ℝ) := by
        rw [cast_one_shift]
        have := mul_le_mul_of_nonneg_right (trigOf_le_one cosine l t) (show (0 : ℝ) ≤ 2 ^ q by positivity)
        linarith [(trigEnc_encloses cosine ht q).1]
      have h2 : (trigEnc cosine l t q).1 ≤ 1 <<< q := by exact_mod_cast h1
      have h3 := trigEnc_width cosine ht q
      refine ⟨Nat.zero_le _, le_trans ?_ (big q hq)⟩
      exact roundMag_mono pos pos (shift_mul_le _ (Nat.mul_le_mul_right _ (by omega)))
  exact lt_of_le_of_lt key.2 (by decide)

/-- A rounded cosine or sine of the first quadrant is nearest to the exact one, up to 2^-1000. -/
theorem trigMag_nearest (cosine : Bool) {l t : Nat} (ht : 4 * t ≤ 2 ^ l) :
    NearestUpTo (trigOf cosine l t * oneUnits) (oneUnits / 2 ^ 1000) (trigMag cosine l t) := by
  have hP := oneUnits_pos
  refine (roundEnclosed_nearest (w := 18072 * (oneUnits : ℝ) / 2 ^ 1024) (Config.twiddleUpper l t) (trigEnc_encloses cosine ht)
    (div_nonneg (mul_nonneg (by norm_num) hP.le) (by positivity)) trigPlaces 128 (trigMag_lt cosine ht) ?_).mono ?_
  · intro q hq
    have hq' : q = 1024 := hq.symm
    have hw := trigEnc_width cosine ht q
    have hwr : ((trigEnc cosine l t q).2 : ℝ) ≤ (trigEnc cosine l t q).1 + 18072 := by
      have : (trigEnc cosine l t q).2 ≤ (trigEnc cosine l t q).1 + 18072 := by omega
      exact_mod_cast this
    rw [hq'] at hwr ⊢
    rw [div_mul_cancel₀ _ (by positivity)]
    have := mul_le_mul_of_nonneg_right hwr hP.le
    linarith
  · have e : (2 : ℝ) ^ 1024 = 2 ^ 24 * 2 ^ 1000 := by rw [← pow_add]
    rw [e, ← div_div, mul_div_assoc']
    refine div_le_div_of_nonneg_right ?_ (by positivity)
    generalize (oneUnits : ℝ) = u at hP ⊢
    norm_num; linarith

/-- The entry at N/8 has the same enclosures in every size. -/
theorem trigEnc_eighth (cosine : Bool) (l p : Nat) : trigEnc cosine (l + 3) (2 ^ l) p = trigEnc cosine 3 1 p := by
  have h : ∀ a : Nat, (2 * 2 ^ l * a) >>> (l + 3) = (2 * 1 * a) >>> 3 := fun a => by
    rw [Nat.shiftRight_eq_div_pow, Nat.shiftRight_eq_div_pow, pow_add,
      show 2 * 2 ^ l * a = 2 ^ l * (2 * 1 * a) by ring, Nat.mul_div_mul_left _ _ (by positivity)]
  simp only [trigEnc, h]

theorem trigMag_eighth (cosine : Bool) (l : Nat) : trigMag cosine (l + 3) (2 ^ l) = 0x3FE6A09E667F3BCD := by
  have e : trigEnc cosine (l + 3) (2 ^ l) = trigEnc cosine 3 1 := funext (trigEnc_eighth cosine l)
  unfold trigMag
  rw [e, trigPlaces, roundEnclosed_cons, if_pos]
  · cases cosine <;> decide +kernel
  · cases cosine <;> decide +kernel

end Sys2Proof.Laws
end

