-- ==== Sys2Proof/Tests/Slice0.lean ====
section
/-! SUPPORT. Tests of the model against spec/95_test_vectors.md and the worked examples of the rules, the ill-formed terms each
check of WellFormed refuses, and a witness for the hypotheses of every statement of Certificates/Slice0/Obligations.lean. -/

namespace Sys2Proof.Tests

open Sys2Proof.Machine Sys2Proof.Safety

-- One kernel evaluation at a time: as parallel tasks they would each hold a thread and its stack.
set_option Elab.async false

/-! ## Helpers -/

/-- A block of side 2 with four banks, as the programs of 95_test_vectors.md section 3 use. -/
def build2 : Build := { log2n := 1, nbanks := 4, base := 0x1000 }

/-- A block with bank 0 holding the cells `vs` in flat order, a command pending. -/
def bank0 (b : Build) (vs : List Cx) : State :=
  { State.resetOf b with
    grid := gridWriteFrom [] (cellAddr 0 0) vs, status := { Status.zero with busy := true }, latEps := Config.epsReset }

/-- Real cells. -/
def reals (vs : List F64) : List Cx := vs.map fun v => ⟨v, 0⟩

/-- The next state of an outcome. -/
def nextOf (o : Host.Outcome State Fault Refusal) : Option State :=
  match o with
  | .next t => some t
  | .fault _ => none
  | .refused _ => none

/-- The cells of bank 0 after a command. -/
def cellsAfter (i : Instr) (s : State) : Option (List (Option Cx)) := (nextOf (exec i s)).map fun t => bankContents t 0

/-- RES0 after a command. -/
def res0After (i : Instr) (s : State) : Option F64 := (nextOf (exec i s)).map fun t => t.res0

/-- STATUS after the engine's turn on a word, in the block of 95_test_vectors.md section 2.8. -/
def statusAfterWord (w : Nat) : Option Word :=
  (nextOf (step (State.reset.withFetchWord 64 w))).map fun t => t.status.toWord

/-! ## WellFormed refuses ill-formed terms -/

theorem test_wf_cell_bank : Instr.wf (.get 16 0 0) = false := by decide
theorem test_wf_cell_x : Instr.wf (.set 0 65536 0) = false := by decide
theorem test_wf_cell_y : Instr.wf (.phase 0 0 65536) = false := by decide
theorem test_wf_grid_bank : Instr.wf (.scale 16) = false := by decide
theorem test_wf_copy_dest : Instr.wf (.copy 16 0) = false := by decide
theorem test_wf_copy_source : Instr.wf (.copy 0 16) = false := by decide
theorem test_wf_out_of_range_is_encodable : Instr.wf (.get 15 65535 65535) = true := by decide

/-! ## Decoding: words of 95_test_vectors.md section 2.1 -/

theorem test_decode_get : decode 0x0000000000010001 = .ok (.get 0 1 0) := rfl
theorem test_decode_set : decode 0x0000000300000102 = .ok (.set 1 0 3) := rfl
theorem test_decode_mag2 : decode 0x0000000700040203 = .ok (.mag2 2 4 7) := rfl
theorem test_decode_mag : decode 0x0000000000000304 = .ok (.mag 3 0 0) := rfl
theorem test_decode_phase : decode 0x00000000FFFF0005 = .ok (.phase 0 0xFFFF 0) := rfl
theorem test_decode_zero_cell : decode 0x0000000100070206 = .ok (.zeroCell 2 7 1) := rfl
theorem test_decode_scale : decode 0x0000000000000110 = .ok (.scale 1) := rfl
theorem test_decode_copy : decode 0x0000000000003011 = .ok (.copy 0 3) := rfl
theorem test_decode_sumsq : decode 0x0000000000000212 = .ok (.sumsq 2) := rfl
theorem test_decode_renorm : decode 0x0000000000000013 = .ok (.renorm 0) := rfl
theorem test_decode_fft_fwd : decode 0x0000000000000320 = .ok (.fftFwd 3) := rfl
theorem test_decode_fft_inv : decode 0x0000000000000021 = .ok (.fftInv 0) := rfl
theorem test_decode_zero_word : decode 0 = .error .badOp := rfl
theorem test_encode_set : encode (.set 0 3 5) = 0x0000000500030002 := rfl
theorem test_decode_bytes : decodeTableWord 64 0x0000000500030002 = some (.set 0 3 5) := rfl
theorem test_decode_short_bytes : decodeBytes [0x01, 0x00] = .error .badLength := rfl

/-! ## Cell commands: section 2.2 and the examples of R110-R115 -/

theorem test_get_keeps_signalling_nan :
    (nextOf (exec (.get 0 1 0) (bank0 build2 [Cx.zero, ⟨0x7FF0000000000001, 0x8000000000000000⟩]))).map
      (fun t => (t.res0, t.res1, t.status.toWord)) = some (0x7FF0000000000001, 0x8000000000000000, 0x2) := by
  decide +kernel

/-- EA-27: UNINIT_READ. -/
theorem test_get_unwritten :
    (nextOf (exec (.get 0 0 0) (bank0 build2 []))).map (fun t => (t.faultlog, t.status.toWord)) =
      some ([.uninitRead], 0x2) := by decide +kernel

/-- R111's example at flat index 3N, with N = 4. -/
theorem test_set_stores_at_row_three :
    (nextOf (exec (.set 1 0 3) { State.reset with latOpa := 0x4000000000000000, latOpb := 0x8000000000000000 })).map
      (fun t => gridRead t.grid (cellAddr 1 12)) = some (some ⟨0x4000000000000000, 0x8000000000000000⟩) := by
  decide +kernel

/-- EA-18: a subnormal square. -/
theorem test_mag2_subnormal :
    res0After (.mag2 0 0 0) (bank0 build2 [⟨0x1E659843E8C86A09, 0⟩]) = some 0x0000000000000002 := by decide +kernel

/-- EA-21: an infinite part with a NaN part. -/
theorem test_mag2_nan :
    res0After (.mag2 0 0 0) (bank0 build2 [⟨0x7FF0000000000000, 0x7FF0000000000001⟩]) = some 0x7FF8000000000000 := by
  decide +kernel

/-- EA-18: the root of the rounded square. -/
theorem test_mag_not_hypot :
    res0After (.mag 0 0 0) (bank0 build2 [⟨0x1E659843E8C86A09, 0⟩]) = some 0x1E66A09E667F3BCD := by decide +kernel

/-- EA-1. -/
theorem test_mag_three_four :
    res0After (.mag 0 0 0) (bank0 build2 [⟨0x4008000000000000, 0x4010000000000000⟩]) = some 0x4014000000000000 := by
  decide +kernel

/-- EA-4: the imaginary part is the first argument. -/
theorem test_phase_fourth_quadrant :
    res0After (.phase 0 0 0) (bank0 build2 [⟨0x3FF8000000000000, 0xC000000000000000⟩]) = some 0xBFEDAC670561BB4F := by
  decide +kernel

/-- EA-3. -/
theorem test_phase_second_quadrant :
    res0After (.phase 0 0 0) (bank0 build2 [⟨0xBFF0000000000000, 0x3FF0000000000000⟩]) = some 0x4002D97C7F3321D2 := by
  decide +kernel

/-- EA-25. -/
theorem test_zero_cell_clears :
    (cellsAfter (.zeroCell 0 0 0) (bank0 build2 [⟨0x7FF8000000000000, 0xFFF0000000000000⟩])).map (·.head?) =
      some (some (some Cx.zero)) := by decide +kernel

/-! ## Whole-grid commands: sections 2.3 to 2.6 -/

/-- SC-3: scaling by +0 does not clear infinities or NaNs. -/
theorem test_scale_by_zero :
    cellsAfter (.scale 0) (bank0 build2 [⟨0x3FF8000000000000, 0x8000000000000000⟩,
        ⟨0x7FF0000000000000, 0xC000000000000000⟩, ⟨0x7FF0000000000001, 0x3FF0000000000000⟩,
        ⟨0x0000000000000001, 0x7FE1CCF385EBC8A0⟩]) =
      some [some ⟨0, 0x8000000000000000⟩, some ⟨0x7FF8000000000000, 0x8000000000000000⟩,
        some ⟨0x7FF8000000000000, 0⟩, some ⟨0, 0⟩] := by decide +kernel

/-- CP-3 and the fault log: an unwritten source. -/
theorem test_copy_unwritten_source :
    (nextOf (exec (.copy 0 3) (bank0 build2 (reals [1, 2, 3, 4])))).map (fun t => (t.grid.length, t.faultlog)) =
      some (4, [.uninitRead]) := by decide +kernel

/-- CP-1: a signalling NaN is copied. -/
theorem test_copy_bits :
    (nextOf (exec (.copy 1 0) (bank0 build2 (reals [1, 0x7FF0000000000001, 3, 4])))).map
      (fun t => bankContents t 1) = some ((reals [1, 0x7FF0000000000001, 3, 4]).map some) := by decide +kernel

/-- SS-6 and SS-7: the order of the cells is observable. -/
theorem test_sumsq_order :
    res0After (.sumsq 0) (bank0 build2 (reals
        [0x3FF0000000000000, 0x3E45798EE2308C3A, 0x3E45798EE2308C3A, 0x3E45798EE2308C3A])) =
      some 0x3FF0000000000000 ∧
    res0After (.sumsq 0) (bank0 build2 (reals
        [0x3E45798EE2308C3A, 0x3E45798EE2308C3A, 0x3E45798EE2308C3A, 0x3FF0000000000000])) =
      some 0x3FF0000000000001 := by decide +kernel

/-- RN-2. -/
theorem test_renorm_three_four :
    cellsAfter (.renorm 0) (bank0 build2 [⟨0x4008000000000000, 0x4010000000000000⟩, Cx.zero, Cx.zero, Cx.zero]) =
      some [some ⟨0x3FE3333333333334, 0x3FE999999999999A⟩, some Cx.zero, some Cx.zero, some Cx.zero] := by
  decide +kernel

/-- RN-6: the near-zero guard. -/
theorem test_renorm_guard :
    (nextOf (exec (.renorm 0) (bank0 build2 (reals [0x3DA5FD7FE1796495, 0, 0, 0])))).map
      (fun t => (t.res0, t.status.toWord, gridRead t.grid 0)) =
      some (0x3B5E392010175EE5, 0x1000A, some ⟨0x3DA5FD7FE1796495, 0⟩) := by decide +kernel

/-! ## Transforms: section 2.7 -/

/-- FFT-17: rows before columns is observable. -/
theorem test_fft_fwd_pass_order :
    cellsAfter (.fftFwd 0) (bank0 build2 (reals
        [0x3FB999999999999A, 0x3FC999999999999A, 0x3FD3333333333333, 0x3FD999999999999A])) =
      some ((reals [0x3FF0000000000000, 0xBFC999999999999B, 0xBFD9999999999998, 0x3C80000000000000]).map some) := by
  decide +kernel

/-- FFT-10: signed zeros. -/
theorem test_fft_fwd_signed_zeros :
    cellsAfter (.fftFwd 0) (bank0 build2 (List.replicate 4 ⟨0x8000000000000000, 0x8000000000000000⟩)) =
      some [some ⟨0, 0⟩, some ⟨0, 0x8000000000000000⟩, some ⟨0x8000000000000000, 0⟩, some ⟨0, 0⟩] := by decide +kernel

/-- FFT-13's line with N = 4: the inverse of an impulse at 1, one pass of scaling by 1/4. -/
theorem test_fft_inv_line :
    fft1dInv 2 (reals [0, 0x3FF0000000000000, 0, 0]) =
      [⟨0x3FD0000000000000, 0⟩, ⟨0, 0x3FD0000000000000⟩, ⟨0xBFD0000000000000, 0⟩, ⟨0, 0xBFD0000000000000⟩] := by
  decide +kernel

/-- FFT-2's second half: the inverse gives back 1, 2, 3, 4. -/
theorem test_fft_inv_round_trip :
    cellsAfter (.fftInv 0) (bank0 build2 (reals
        [0x4024000000000000, 0xC000000000000000, 0xC010000000000000, 0x0000000000000000])) =
      some ((reals [0x3FF0000000000000, 0x4000000000000000, 0x4008000000000000, 0x4010000000000000]).map some) := by
  decide +kernel

/-- FFT-7 and FFT-11: 16 at (0,0) of a side of 4 gives 1 in every cell, and a side of 1 makes a NaN canonical. -/
theorem test_fft_inv_vectors :
    cellsAfter (.fftInv 0) (bank0 { log2n := 2, nbanks := 4, base := 0 } (reals (0x4030000000000000 :: List.replicate 15 0))) =
      some (List.replicate 16 (some ⟨0x3FF0000000000000, 0⟩)) ∧
    cellsAfter (.fftInv 0) (bank0 { log2n := 0, nbanks := 2, base := 0 } [⟨0x7FF0000000000001, 0x8000000000000000⟩]) =
      some [some ⟨0x7FF8000000000000, 0x8000000000000000⟩] := by decide +kernel

/-- R152: a twiddle constant for N = 16. -/
theorem test_twiddle_sixteen : twc 4 1 = 0x3FED906BCF328D46 := by decide +kernel

/-- The cosines for N = 8 from section 2.7 of 95_test_vectors.md. -/
theorem test_twiddle_eight : (List.range 4).map (twc 3) =
    [0x3FF0000000000000, 0x3FE6A09E667F3BCD, 0x0000000000000000, 0xBFE6A09E667F3BCD] := by decide +kernel

/-- R33: OPB is read at 0x30. -/
theorem test_read_opb : readOffset { State.reset with opb := 7 } 0x30 = 7 := by decide

/-- R221: a reset after the host's last step is not waited for; a host access left, or BUSY = 1, keeps the run going. -/
theorem test_run_ended :
    ended { State.reset with events := [.engine, .resetAssert] } = true ∧
      ended { State.reset with events := [.resetAssert, .hostRead 0x18 8] } = false ∧
      ended (State.reset.withFetchWord 64 0x01) = false := by decide

/-- R165 on the bank of FFT-17. -/
theorem test_round_trip_law :
    roundTrips 1 (reals [0x3FB999999999999A, 0x3FC999999999999A, 0x3FD3333333333333, 0x3FD999999999999A]) = true := by
  decide +kernel

/-- R140 on RN-2's bank after RENORM. -/
theorem test_normalisation_law :
    normalised (bank0 build2 [⟨0x3FE3333333333334, 0x3FE999999999999A⟩, Cx.zero, Cx.zero, Cx.zero]) 0 = true := by
  decide +kernel

/-! ## Errors, registers and resets: sections 2.8 and 2.9 -/

/-- ERR-1, ERR-4, ERR-8, ERR-9. -/
theorem test_error_priority :
    [0, 0xFFFF000000000002, 0x0000000900000F02, 0x0000000000040002].map statusAfterWord =
      [some 0x0106, some 0x0206, some 0x0306, some 0x0406] := by decide +kernel

/-- ERR-14. -/
theorem test_acknowledge_error :
    ({ Status.zero with done := true, err := true, errCode := 4 }.writeOneToClear 0x04).toWord = 0x0002 := by decide

/-- REG-2, in the block of that section. -/
theorem test_config_word : configWord Build.default = 0x0402 := by decide

/-- REG-9: a 4-byte read at offset 0x18. -/
theorem test_narrow_read_is_bus_error :
    (hostRead 0x18 4 State.reset).resp = .busError ∧ (hostRead 0x18 4 State.reset).faultlog = [.busError] := by decide

/-- REG-11: the bytes of 2.5 on the bus. -/
theorem test_little_endian :
    (hostRead 0x28 8 { State.reset with opa := 0x4004000000000000 }).resp = .data [0, 0, 0, 0, 0, 0, 0x04, 0x40] := by
  decide

/-- P6, run B: a soft reset while SCALE is pending unwrites bank 0. -/
theorem test_abort_scale :
    (softReset { bank0 build2 (reals [1, 2, 3, 4]) with cmd := 0x10 }).grid = [] := by decide +kernel

/-! ## Witnesses: concrete states and operands that meet the hypotheses of each statement -/

/-- A block of side 2 with bank 0 written, SCALE b0 pending and no event. -/
def ready : State := { bank0 build2 (reals [0, 0x3FF0000000000000, 0x4000000000000000, 0x4008000000000000]) with cmd := 0x10 }

/-- The cells of `ready`'s bank 0. -/
def readyCell (i : Nat) : Cx := (reals [0, 0x3FF0000000000000, 0x4000000000000000, 0x4008000000000000]).getD i Cx.zero

theorem witness_DecodeInvertsEncode : Instr.wf (.get 15 65535 65535) = true ∧ Instr.wf (.copy 15 15) = true := by decide

theorem witness_EncodeInvertsDecode : decode 0x0000FFFFFFFF0F06 = .ok (.zeroCell 15 0xFFFF 0xFFFF) := rfl

theorem witness_RejectedWords :
    decode 0x22 = .error .badOp ∧ decode 0x0001000000000001 = .error .rsvd ∧ decode 0x1010 = .error .rsvd ∧
      decode 0x0000000100000011 = .error .rsvd ∧ decode 0xF011 = .ok (.copy 0 15) := ⟨rfl, rfl, rfl, rfl, rfl⟩

theorem witness_StepPerformsDecodedCommand :
    ready.build.wf = true ∧ ready.resetPin = false ∧ ready.status.busy = true ∧ decode ready.cmd = .ok (.scale 0) :=
  ⟨rfl, rfl, rfl, rfl⟩

theorem witness_PlacedWordRunsNext :
    State.reset.build.wf = true ∧ decode (BitVec.ofNat 64 (0x0000000500030002 % 2 ^ 64)) = .ok (.set 0 3 5) :=
  ⟨rfl, rfl⟩

theorem witness_StepWhenNotEnabled :
    (State.reset.build.wf = true ∧ State.reset.status.busy = false) ∧
      ((hardReset ready).build.wf = true ∧ (hardReset ready).resetPin = true) ∧
      Build.wf { log2n := 16, nbanks := 4, base := 0 } = false ∧ Build.wf { log2n := 2, nbanks := 17, base := 0 } = false ∧
      Build.wf { log2n := 15, nbanks := 16, base := 0x100 } = true ∧
      Build.wf { log2n := 0, nbanks := 1, base := 0 } = false := by decide

theorem witness_CheckOrderSelectsError :
    (ready.build.wf = true ∧ ready.resetPin = false ∧ ready.status.busy = true) ∧
      wordError ready.build 0x00 = some .badOp ∧ wordError ready.build 0x1010 = some .rsvd ∧
      wordError ready.build 0x4011 = some .bank ∧ wordError ready.build 0x20001 = some .range ∧
      wordError ready.build ready.cmd = none := by decide +kernel

theorem witness_FaultLogOnlyGrows : (nextOf (step ready)).isSome = true := by decide +kernel

theorem witness_StepKeepsInv : Inv ready ∧ (nextOf (step ready)).isSome = true :=
  ⟨⟨by decide +kernel, by decide +kernel, by decide +kernel, by decide +kernel, by decide +kernel, by decide +kernel⟩,
    by decide +kernel⟩

theorem witness_InvAtReset : Build.wf { log2n := 15, nbanks := 16, base := 0xFF00 } = true := by decide

theorem witness_HardReset :
    (hardReset ready).build.wf = true ∧ (hardReset ready).resetPin = true ∧
      offsetOf (hardReset ready).build 0x1000 = some 0 ∧ offsetOf (hardReset ready).build 0x10FF = some 255 := by decide

theorem witness_SoftReset :
    ready.build.wf = true ∧ ready.resetPin = false ∧ ready.status.busy = true ∧ State.reset.status.busy = false ∧
      (0x1 : Word).getLsbD 0 = true ∧ (0xFE : Word).getLsbD 0 = false := by decide

/-- `ready` with another command pending. -/
def pendingWord (w : Word) : State := { ready with cmd := w }

theorem witness_AbortUnwritesTargets :
    ready.build.wf = true ∧ ready.status.busy = true ∧ 1 < ready.build.n ∧ 0 < ready.build.nbanks ∧
      decode (pendingWord 0x0000000100010002).cmd = .ok (.set 0 1 1) ∧ decode ready.cmd = .ok (.scale 0) ∧
      decode (pendingWord 0x1011).cmd = .ok (.copy 0 1) ∧
      wordError ready.build (pendingWord 0x20002).cmd = some .range ∧ decode (pendingWord 0x01).cmd = .ok (.get 0 0 0) :=
  ⟨rfl, rfl, by decide, by decide, rfl, rfl, rfl, by decide +kernel, rfl⟩

/-- The bus statements: a legal build out of reset, with BUSY = 0 and ERR = 0, with BUSY = 1, and with ERR = 1. -/
theorem witness_CmdWriteAcceptedOrDropped :
    (State.reset.build.wf = true ∧ State.reset.resetPin = false ∧ State.reset.status.busy = false ∧
      State.reset.status.err = false) ∧ ready.status.busy = true ∧
      (raiseError .range State.reset).status.err = true := by decide

theorem witness_StatusWriteClearsOnes : State.reset.build.wf = true ∧ State.reset.resetPin = false := by decide

theorem witness_OperandRegistersReadBack : ready.build.wf = true ∧ ready.resetPin = false := by decide

theorem witness_IrqEnKeepsFourBits : State.reset.build.wf = true ∧ State.reset.resetPin = false := by decide

theorem witness_HardwiredRegisters :
    State.reset.build.wf = true ∧ (State.resetOf { log2n := 15, nbanks := 16, base := 0 }).build.wf = true := by decide

/-- Boundary offsets of the reserved range, and a CTRL value with bit 0 clear. -/
theorem witness_ReservedReadZeroIgnoreWrites :
    (0x58 ≤ 0xF8 ∧ 0x58 % 8 = 0) ∧ (0xF8 % 8 = 0 ∧ 0x58 ≤ 0xF8) ∧ (0x2 : Word).getLsbD 0 = false := by decide

theorem witness_IllegalAccessIsBusError :
    (State.reset.build.wf = true ∧ State.reset.resetPin = false) ∧
      (offsetOf State.reset.build 0x18 = some 0x18 ∧ ¬ (4 = 8 ∧ 0x18 % 8 = 0)) ∧
      (offsetOf State.reset.build 0x1C = some 0x1C ∧ ¬ (8 = 8 ∧ 0x1C % 8 = 0)) ∧ offsetOf State.reset.build 0xFF = some 0xFF := by
  decide

theorem witness_BusIsLittleEndian :
    ready.build.wf = true ∧ ready.resetPin = false ∧ offsetOf ready.build 0x1028 = some 0x28 ∧ 0x28 % 8 = 0 ∧
      (List.replicate 8 (0xA5 : Byte)).length = 8 ∧
      (0xFFF : BitVec 64).toNat < ready.build.base.toNat ∧ ready.build.base.toNat + 256 ≤ (0x1100 : BitVec 64).toNat ∧
      (0xFF < 256 ∧ (0x10FF : BitVec 64).toNat = ready.build.base.toNat + 0xFF) := by decide

theorem witness_written_cell :
    0 < ready.build.nbanks ∧ 1 < ready.build.n ∧
      gridRead ready.grid (cellAddr 0 (1 * ready.build.n + 1)) = some ⟨0x4008000000000000, 0⟩ := by decide +kernel

/-- The hypotheses of GetReturnsCell and MagnitudeAndPhaseResults are the same. -/
theorem witness_GetReturnsCell :
    0 < ready.build.nbanks ∧ 0 < ready.build.n ∧
      gridRead ready.grid (cellAddr 0 (0 * ready.build.n + 0)) = some ⟨0, 0⟩ := by decide +kernel

theorem witness_MagnitudeAndPhaseResults :
    0 < ready.build.nbanks ∧ 1 < ready.build.n ∧
      gridRead ready.grid (cellAddr 0 (0 * ready.build.n + 1)) = some ⟨0x3FF0000000000000, 0⟩ := by decide +kernel

theorem witness_SetStoresLatches : 3 < ready.build.nbanks ∧ 1 < ready.build.n ∧ 0 < ready.build.n := by decide

theorem witness_ZeroCellStoresZero : 0 < ready.build.nbanks ∧ 0 < ready.build.n ∧ 1 < ready.build.n := by decide

theorem witness_UnwrittenCellIsLogged :
    1 < ready.build.nbanks ∧ 1 < ready.build.n ∧ gridRead ready.grid (cellOperand ready.build 1 1 0) = none := by
  decide +kernel

theorem witness_CellCommandsFrame :
    (nextOf (exec (.set 0 1 1) ready)).isSome = true ∧ (nextOf (exec (.get 9 0 0) ready)).isSome = true := by
  decide +kernel

/-- A bank all of whose cells are written: for SCALE, COPY, SUMSQ and the transforms. -/
theorem witness_written_bank :
    ready.build.wf = true ∧ 0 < ready.build.nbanks ∧
      ∀ i, i < ready.build.cells → gridRead ready.grid (cellAddr 0 i) = some (readyCell i) := by decide +kernel

theorem witness_ScaleMultipliesEveryCell :
    0 < ready.build.nbanks ∧ ∀ i, i < ready.build.cells → gridRead ready.grid (cellAddr 0 i) = some (readyCell i) :=
  witness_written_bank.2

theorem witness_CopyCopiesEveryCell :
    3 < ready.build.nbanks ∧ 0 < ready.build.nbanks ∧
      ∀ i, i < ready.build.cells → gridRead ready.grid (cellAddr 0 i) = some (readyCell i) :=
  ⟨by decide, witness_written_bank.2⟩

theorem witness_SumsqAccumulatesInOrder :
    0 < ready.build.nbanks ∧ ∀ i, i < ready.build.cells → gridRead ready.grid (cellAddr 0 i) = some (readyCell i) :=
  witness_written_bank.2

theorem witness_TransformsReplaceBank :
    ready.build.wf = true ∧ 0 < ready.build.nbanks ∧
      ∀ i, i < ready.build.cells → gridRead ready.grid (cellAddr 0 i) = some (readyCell i) := witness_written_bank

theorem witness_RenormScalesBank :
    (∀ i, i < ready.build.cells → gridRead ready.grid (cellAddr 0 i) = some (readyCell i)) ∧
      flt (fsqrt (sumSquares ((List.range ready.build.cells).map readyCell))) ready.latEps = false := by decide +kernel

/-- `ready` with a threshold above the root of its bank's sum. -/
def guarded : State := { ready with latEps := 0x4024000000000000 }

theorem witness_RenormGuardWarns :
    (∀ i, i < guarded.build.cells → gridRead guarded.grid (cellAddr 0 i) = some (readyCell i)) ∧
      flt (fsqrt (sumSquares ((List.range guarded.build.cells).map readyCell))) guarded.latEps = true := by decide +kernel

theorem witness_UnwrittenBankIsNotRewritten :
    0 < ready.build.nbanks ∧ 1 < ready.build.nbanks ∧ 3 < ready.build.cells ∧
      gridRead ready.grid (cellAddr 1 3) = none := by decide +kernel

theorem witness_OtherBanksUntouched :
    ready.build.wf = true ∧ (nextOf (exec (.copy 1 0) ready)).isSome = true ∧ ∀ src, Instr.copy 1 0 ≠ .copy 2 src := by
  refine ⟨by decide, by decide +kernel, fun src => by simp⟩

theorem witness_PrimitivesRoundToNearestEven :
    (isFinite 0x0000000000000001 = true ∧ isFinite 0x7FEFFFFFFFFFFFFF = true ∧ isZero 0x0000000000000001 = false) ∧
      isFinite (fsub 0xFFEFFFFFFFFFFFFF 0x7FEFFFFFFFFFFFFF) = false ∧
      (isFinite (fmul 0x8000000000000001 0x3FE0000000000000) = true ∧
        sunits 0x8000000000000001 * sunits 0x3FE0000000000000 ≠ 0) := by decide +kernel

theorem witness_SquareRootRoundsToNearest :
    isFinite 0x4000000000000000 = true ∧ isNeg 0x4000000000000000 = false := by decide +kernel

theorem witness_ArithmeticNaNsAreCanonical :
    isNaN 0xFFF0000000000001 = true ∧ isNaN (fadd 0x3FF0000000000000 0xFFF0000000000001) = true ∧
      isNaN (fsqrt 0xBFF0000000000000) = true := by decide +kernel

theorem witness_InfinitiesAndInvalidOperations :
    (isNaN 0xFFF0000000000000 = false ∧ isInf 0xFFF0000000000000 = true ∧ isNeg 0xFFF0000000000000 = true ∧
      isZero 0xFFF0000000000000 = false) ∧
      (isNaN 0x7FF0000000000000 = false ∧ isInf 0x7FF0000000000000 = true ∧ isNeg 0x7FF0000000000000 = false) ∧
      (isNaN 0x8000000000000000 = false ∧ isZero 0x8000000000000000 = true ∧ isFinite 0x8000000000000000 = true) ∧
      (isFinite 0x7FEFFFFFFFFFFFFF = true ∧ isZero 0x7FEFFFFFFFFFFFFF = false) := by decide +kernel

theorem witness_SignsOfZeroResults :
    (isNeg 0x3FF0000000000000 ≠ isNeg 0xBFF0000000000000 ∧
      sunits 0x3FF0000000000000 + sunits 0xBFF0000000000000 = 0) ∧ isFinite 0x3FF0000000000000 = true ∧
      isFinite 0xBFF0000000000000 = true ∧ isZero 0x8000000000000000 = true ∧ isZero 0x3FF0000000000000 = false := by
  decide +kernel

theorem witness_ComparisonIsOrdered :
    isNaN 0x7FF8000000000000 = true ∧ isFinite 0x3FF0000000000000 = true ∧ isZero 0x8000000000000000 = true ∧
      (isNaN 0x7FF0000000000000 = false ∧ (0x7FF0000000000000 : F64) ≠ 0xFFF0000000000000) ∧
      (isNaN 0x7FEFFFFFFFFFFFFF = false ∧ (0x7FEFFFFFFFFFFFFF : F64) ≠ 0x7FF0000000000000) := by decide +kernel

theorem witness_SquaredMagnitudesNotNegative :
    ∀ v ∈ [Cx.zero, ⟨0x8000000000000000, 0x8000000000000000⟩], isZero v.re = true ∧ isZero v.im = true := by
  decide +kernel

theorem witness_Atan2SpecialCases :
    (isNaN 0x8000000000000000 = false ∧ isZero 0x8000000000000000 = true ∧ isNeg 0x8000000000000000 = true) ∧
      (isZero 0x0000000000000000 = true ∧ isNeg 0x0000000000000000 = false) ∧
      (isFinite 0x3FF0000000000000 = true ∧ isZero 0x3FF0000000000000 = false) ∧ isInf 0xFFF0000000000000 = true := by
  decide +kernel

/-- Operands that are not NaN; finite nonzero ones of either sign of `x`, on a diagonal and beside it, and the extremes; a finite value. -/
theorem witness_PhaseLiesInRange :
    (isNaN 0xFFF0000000000000 = false ∧ isNaN 0x0000000000000001 = false) ∧
      ([0x0000000000000001, 0x3FF0000000000000, 0xBFF0000000000000, 0xFFEFFFFFFFFFFFFF].all fun a =>
        isFinite a && !isZero a) = true ∧
      isNeg 0x3FF0000000000000 = false ∧ isNeg 0xBFF0000000000000 = true ∧
      magBits 0xBFF0000000000000 = magBits 0x3FF0000000000000 ∧ isFinite 0x8000000000000000 = true := by
  decide +kernel

/-- The first and the last index of the first quadrant and the last of all, in the smallest and the largest size that have them; a
finite value. -/
theorem witness_TwiddleRomValues :
    (0 < 1 ∧ 4 * 1 < 2 ^ 3) ∧ (0 < 8191 ∧ 4 * 8191 < 2 ^ 15) ∧ 2 * 0 < 2 ^ 0 ∧ 2 * 16383 < 2 ^ 15 ∧
      isFinite 0x7FEFFFFFFFFFFFFF = true := by decide +kernel

theorem witness_BitReversalOfLine :
    6 < 2 ^ 3 ∧ 0 < 3 ∧ (List.replicate 8 Cx.zero).length = 2 ^ 3 ∧ 0 < 2 ^ 0 := by decide

theorem witness_InverseScaling : 15 ≤ 15 ∧ 32767 < 2 ^ 15 := by decide

theorem witness_PassesTransformLines :
    (∀ v : List Cx, (fft1dFwd 1 v).length = 2) ∧ 1 < 2 ∧ (List.replicate 4 Cx.zero).length = 2 * 2 :=
  ⟨fun v => by simp [fft1dFwd, fftLine, fftStage, bflyBlock], by decide, by decide⟩

/-- The last butterfly of the first stage, and the last of the last, of a line of eight elements. -/
theorem witness_StagesAreButterflies :
    (List.range 8).length = 2 ^ 3 ∧
      (0 < 3 ∧ 3 < 2 ^ (3 - (0 + 1)) ∧ 0 < 2 ^ 0 ∧ (List.range 8)[3 * 2 ^ (0 + 1) + 0]? = some 6 ∧
        (List.range 8)[3 * 2 ^ (0 + 1) + 0 + 2 ^ 0]? = some 7) ∧
      (2 < 3 ∧ 0 < 2 ^ (3 - (2 + 1)) ∧ 3 < 2 ^ 2 ∧ (List.range 8)[0 * 2 ^ (2 + 1) + 3]? = some 3 ∧
        (List.range 8)[0 * 2 ^ (2 + 1) + 3 + 2 ^ 2]? = some 7) := by decide

/-- 3 is a fourth root of unity modulo 10, with square -1 and inverse 7. -/
theorem witness_LineTransformIsExactDft :
    ([1, 2, 3, 4] : List (ZMod 10)).length = 2 ^ 2 ∧ (3 : ZMod 10) ^ (2 ^ (2 - 1)) = -1 := by decide

theorem witness_LineTransformsInvertExactly :
    ([1, 2, 3, 4] : List (ZMod 10)).length = 2 ^ 2 ∧ (3 : ZMod 10) * 7 = 1 ∧ (3 : ZMod 10) ^ (2 ^ (2 - 1)) = -1 := by
  decide

end Sys2Proof.Tests
end

section
/-! PROOFS. Patterns of binary64 by class and sign, and what negation does to each. -/

namespace Sys2Proof.Proofs

open Sys2Proof.Machine Sys2Proof.Laws

/-! ## Negation -/

/-- 00_scope.md R20, bit by bit. -/
theorem getLsbD_fneg (a : F64) (i : Nat) : (fneg a).getLsbD i = if i = 63 then !a.getLsbD i else a.getLsbD i := by
  have hbit : (0x8000000000000000 : F64) = BitVec.twoPow 64 63 := by decide
  rw [fneg, hbit, BitVec.getLsbD_xor, BitVec.getLsbD_twoPow]
  by_cases h63 : i = 63
  · simp [h63]
  · simp [h63, Ne.symm h63]

theorem isNeg_eq_getLsbD (a : F64) : isNeg a = a.getLsbD 63 := by
  rw [isNeg, ← BitVec.msb_eq_getLsbD_last, BitVec.msb_eq_decide]

@[simp] theorem isNeg_fneg (a : F64) : isNeg (fneg a) = !isNeg a := by
  rw [isNeg_eq_getLsbD, isNeg_eq_getLsbD, getLsbD_fneg, if_pos rfl]

@[simp] theorem magBits_fneg (a : F64) : magBits (fneg a) = magBits a := by
  unfold magBits fneg
  rw [BitVec.toNat_xor, Nat.xor_mod_two_pow]
  simp

@[simp] theorem isNaN_fneg (a : F64) : isNaN (fneg a) = isNaN a := by simp [isNaN]
@[simp] theorem isInf_fneg (a : F64) : isInf (fneg a) = isInf a := by simp [isInf]
@[simp] theorem isZero_fneg (a : F64) : isZero (fneg a) = isZero a := by simp [isZero]
@[simp] theorem isFinite_fneg (a : F64) : isFinite (fneg a) = isFinite a := by simp [isFinite]

@[simp] theorem sunits_fneg (a : F64) : sunits (fneg a) = -sunits a := by
  unfold sunits units
  rw [isNeg_fneg, magBits_fneg]
  cases isNeg a <;> simp

/-! ## A pattern and its sign and magnitude -/

/-- Two patterns of one sign and one magnitude are the same. -/
theorem eq_ofSignMag {a : F64} {neg : Bool} {m : Nat} (hs : isNeg a = neg) (hm : magBits a = m) : a = ofSignMag neg m := by
  rw [← hs, ← hm, ofSignMag_self]

theorem fneg_ofSignMag (neg : Bool) {m : Nat} (h : m < 2 ^ 63) : fneg (ofSignMag neg m) = ofSignMag (!neg) m :=
  eq_ofSignMag (by rw [isNeg_fneg, isNeg_ofSignMag h]) (by rw [magBits_fneg, magBits_ofSignMag h])

/-- No magnitude up to infinity's is a NaN. -/
theorem isNaN_ofSignMag (neg : Bool) {m : Nat} (h : m ≤ infMag) : isNaN (ofSignMag neg m) = false := by
  rw [isNaN, magBits_ofSignMag (h.trans_lt (by decide)), decide_eq_false (Nat.not_lt.2 h)]

theorem isFinite_ofSignMag (neg : Bool) {m : Nat} (h : m < 2 ^ 63) : isFinite (ofSignMag neg m) = decide (m < infMag) := by
  rw [isFinite, magBits_ofSignMag h]

/-- A pattern is even where its magnitude bits are. -/
theorem getLsbD_zero_ofSignMag (neg : Bool) {m : Nat} (h : m < 2 ^ 63) : (ofSignMag neg m).getLsbD 0 = decide (m % 2 = 1) := by
  rw [BitVec.getLsbD, toNat_ofSignMag h, Nat.testBit_zero]
  rw [decide_eq_decide]
  cases neg <;> simp only [if_true, Bool.false_eq_true, if_false] <;> omega

/-! ## Classes of patterns -/

theorem not_nan_of_inf {a : F64} (h : isInf a = true) : isNaN a = false := by
  simp only [isInf, isNaN, decide_eq_true_eq, decide_eq_false_iff_not] at *; omega

theorem not_zero_of_inf {a : F64} (h : isInf a = true) : isZero a = false := by
  rw [isInf, decide_eq_true_eq] at h
  rw [isZero, h]; decide

theorem not_nan_of_finite {a : F64} (h : isFinite a = true) : isNaN a = false := ((isFinite_iff a).1 h).1

theorem not_inf_of_finite {a : F64} (h : isFinite a = true) : isInf a = false := ((isFinite_iff a).1 h).2

theorem finite_of_zero {a : F64} (h : isZero a = true) : isFinite a = true := by
  rw [isZero, decide_eq_true_eq] at h
  rw [isFinite, h]; decide

/-! ## Units -/

theorem units_eq_zero_iff (a : F64) : units a = 0 ↔ isZero a = true := by
  rw [isZero, decide_eq_true_eq, units]
  constructor
  · intro h
    by_contra h0
    have := magUnits_pos (Nat.pos_of_ne_zero h0)
    omega
  · intro h; rw [h]; rfl

theorem units_pos {a : F64} (h : isZero a = false) : 0 < units a := by
  rw [Nat.pos_iff_ne_zero, ne_eq, units_eq_zero_iff, h]; decide

@[simp] theorem natAbs_sunits (a : F64) : (sunits a).natAbs = units a := by
  unfold sunits; split <;> simp

theorem sunits_eq_zero_iff (a : F64) : sunits a = 0 ↔ isZero a = true := by
  rw [← Int.natAbs_eq_zero, natAbs_sunits, units_eq_zero_iff]

/-- The sign of a value that is not zero is that of its number of units. -/
theorem decide_sunits_neg {a : F64} (h : sunits a ≠ 0) : decide (sunits a < 0) = isNeg a := by
  unfold sunits at *
  cases hs : isNeg a <;> simp only [hs, if_true, Bool.false_eq_true, if_false] at h ⊢
  · simp
  · simp only [decide_eq_true_eq]; omega

/-- Settles O48: the bits of a negation are `getLsbD_fneg`. -/
theorem negationFlipsSignBit : Obligations.NegationFlipsSignBit := fun a i _ => getLsbD_fneg a i

end Sys2Proof.Proofs
end

section
/-! PROOFS. What each arithmetic primitive gives, by the classes of its operands (00_scope.md R13, R15, R17). -/

namespace Sys2Proof.Proofs

open Sys2Proof.Machine Sys2Proof.Laws

/-! ## Sum -/

theorem fadd_nan {a b : F64} (h : isNaN a = true ∨ isNaN b = true) : fadd a b = qNaN := by
  rw [fadd, if_pos (by simpa using h)]

theorem fadd_inf_inf {a b : F64} (ha : isInf a = true) (hb : isInf b = true) :
    fadd a b = if isNeg a = isNeg b then a else qNaN := by
  simp only [fadd, not_nan_of_inf, ha, hb]
  by_cases h : isNeg a = isNeg b <;> simp [h]

theorem fadd_inf_finite {a b : F64} (ha : isInf a = true) (hb : isFinite b = true) : fadd a b = a := by
  simp [fadd, not_nan_of_inf ha, not_nan_of_finite hb, not_inf_of_finite hb, ha]

theorem fadd_finite_inf {a b : F64} (ha : isFinite a = true) (hb : isInf b = true) : fadd a b = b := by
  simp [fadd, not_nan_of_inf hb, not_nan_of_finite ha, not_inf_of_finite ha, hb]

/-- An exact zero sum is `-0` only where both operands are negative. -/
theorem fadd_cancel {a b : F64} (ha : isFinite a = true) (hb : isFinite b = true) (h : sunits a + sunits b = 0) :
    fadd a b = ofSignMag (isNeg a && isNeg b) 0 := by
  simp [fadd, not_nan_of_finite, not_inf_of_finite, ha, hb, h]

theorem fadd_finite {a b : F64} (ha : isFinite a = true) (hb : isFinite b = true) (h : sunits a + sunits b ≠ 0) :
    fadd a b = ofSignMag (decide (sunits a + sunits b < 0)) (roundMag (sunits a + sunits b).natAbs 1) := by
  simp [fadd, not_nan_of_finite, not_inf_of_finite, ha, hb, h]

/-! ## Product -/

theorem fmul_nan {a b : F64} (h : isNaN a = true ∨ isNaN b = true) : fmul a b = qNaN := by
  rw [fmul, if_pos (by simpa using h)]

theorem fmul_comm (a b : F64) : fmul a b = fmul b a := by
  unfold fmul
  rw [Bool.or_comm (isNaN a), Bool.or_comm (isInf a), Bool.or_comm (isZero a), bne_comm, Nat.mul_comm]

theorem fmul_inf_zero {a b : F64} (ha : isInf a = true) (hb : isZero b = true) : fmul a b = qNaN := by
  simp [fmul, ha, hb]

theorem fmul_inf_nonzero {a b : F64} (ha : isInf a = true) (hn : isNaN b = false) (hb : isZero b = false) :
    fmul a b = ofSignMag (isNeg a != isNeg b) infMag := by
  simp [fmul, not_nan_of_inf, not_zero_of_inf, ha, hn, hb]

theorem fmul_finite {a b : F64} (ha : isFinite a = true) (hb : isFinite b = true) :
    fmul a b = ofSignMag (isNeg a != isNeg b) (roundMag (units a * units b) oneUnits) := by
  simp [fmul, not_nan_of_finite, not_inf_of_finite, ha, hb]

/-! ## Quotient -/

theorem fdiv_nan {a b : F64} (h : isNaN a = true ∨ isNaN b = true) : fdiv a b = qNaN := by
  rw [fdiv, if_pos (by simpa using h)]

theorem fdiv_inf_inf {a b : F64} (ha : isInf a = true) (hb : isInf b = true) : fdiv a b = qNaN := by
  simp [fdiv, ha, hb]

theorem fdiv_inf_finite {a b : F64} (ha : isInf a = true) (hb : isFinite b = true) :
    fdiv a b = ofSignMag (isNeg a != isNeg b) infMag := by
  simp [fdiv, not_nan_of_inf, not_nan_of_finite, not_inf_of_finite, ha, hb]

theorem fdiv_finite_inf {a b : F64} (ha : isFinite a = true) (hb : isInf b = true) :
    fdiv a b = ofSignMag (isNeg a != isNeg b) 0 := by
  simp [fdiv, not_nan_of_inf, not_nan_of_finite, not_inf_of_finite, ha, hb]

theorem fdiv_zero_zero {a b : F64} (ha : isZero a = true) (hb : isZero b = true) : fdiv a b = qNaN := by
  simp [fdiv, not_inf_of_finite, finite_of_zero, ha, hb]

theorem fdiv_nonzero_zero {a b : F64} (hn : isNaN a = false) (ha : isZero a = false) (hb : isZero b = true) :
    fdiv a b = ofSignMag (isNeg a != isNeg b) infMag := by
  simp [fdiv, not_nan_of_finite, not_inf_of_finite, finite_of_zero, hn, ha, hb]

theorem fdiv_finite {a b : F64} (ha : isFinite a = true) (hb : isFinite b = true) (hz : isZero b = false) :
    fdiv a b = ofSignMag (isNeg a != isNeg b) (roundMag (units a * oneUnits) (units b)) := by
  simp [fdiv, not_nan_of_finite, not_inf_of_finite, ha, hb, hz]

/-! ## Square root -/

theorem fsqrt_nan {a : F64} (h : isNaN a = true) : fsqrt a = qNaN := by rw [fsqrt, if_pos h]

theorem fsqrt_zero {a : F64} (h : isZero a = true) : fsqrt a = a := by
  simp [fsqrt, not_nan_of_finite (finite_of_zero h), h]

theorem fsqrt_negative {a : F64} (hz : isZero a = false) (hs : isNeg a = true) : fsqrt a = qNaN := by
  simp [fsqrt, hz, hs]

theorem fsqrt_inf {a : F64} (h : isInf a = true) (hs : isNeg a = false) : fsqrt a = a := by
  simp [fsqrt, not_nan_of_inf h, h, hs]

theorem fsqrt_finite {a : F64} (h : isFinite a = true) (hz : isZero a = false) (hs : isNeg a = false) :
    fsqrt a = ofSignMag false (roundMag (2 * isqrt (units a * oneUnits) +
      if isqrt (units a * oneUnits) * isqrt (units a * oneUnits) = units a * oneUnits then 0 else 1) 2) := by
  simp [fsqrt, not_nan_of_finite, not_inf_of_finite, h, hz, hs]

/-! ## NaN results -/

/-- A value is infinite or finite where it is not a NaN. -/
theorem inf_or_finite {a : F64} (h : isNaN a = false) : isInf a = true ∨ isFinite a = true := by
  rw [isFinite_iff, h]; simp

/-- A pattern that is the canonical NaN if it is a NaN. -/
def NaNCanonical (r : F64) : Prop := isNaN r = true → r = qNaN

theorem nanCanonical_qNaN : NaNCanonical qNaN := fun _ => rfl

theorem nanCanonical_ofSignMag (neg : Bool) {m : Nat} (h : m ≤ infMag) : NaNCanonical (ofSignMag neg m) := fun hn => by
  rw [isNaN_ofSignMag neg h] at hn; cases hn

theorem nanCanonical_inf {a : F64} (h : isInf a = true) : NaNCanonical a := fun hn => by
  rw [not_nan_of_inf h] at hn; cases hn

theorem fadd_nanCanonical (a b : F64) : NaNCanonical (fadd a b) := by
  by_cases h : isNaN a = true ∨ isNaN b = true
  · rw [fadd_nan h]; exact nanCanonical_qNaN
  simp only [not_or, Bool.not_eq_true] at h
  rcases inf_or_finite h.1 with ha | ha <;> rcases inf_or_finite h.2 with hb | hb
  · rw [fadd_inf_inf ha hb]
    split
    · exact nanCanonical_inf ha
    · exact nanCanonical_qNaN
  · rw [fadd_inf_finite ha hb]; exact nanCanonical_inf ha
  · rw [fadd_finite_inf ha hb]; exact nanCanonical_inf hb
  · by_cases ht : sunits a + sunits b = 0
    · rw [fadd_cancel ha hb ht]; exact nanCanonical_ofSignMag _ (by decide)
    · rw [fadd_finite ha hb ht]; exact nanCanonical_ofSignMag _ (roundMag_le _ _)

theorem fmul_nanCanonical (a b : F64) : NaNCanonical (fmul a b) := by
  unfold fmul
  split
  · exact nanCanonical_qNaN
  · split
    · split
      · exact nanCanonical_qNaN
      · exact nanCanonical_ofSignMag _ le_rfl
    · exact nanCanonical_ofSignMag _ (roundMag_le _ _)

theorem fdiv_nanCanonical (a b : F64) : NaNCanonical (fdiv a b) := by
  have inf := fun neg => nanCanonical_ofSignMag neg le_rfl
  unfold fdiv
  repeat' split
  · exact nanCanonical_qNaN
  · exact nanCanonical_qNaN
  · exact inf _
  · exact nanCanonical_ofSignMag _ (by decide)
  · exact nanCanonical_qNaN
  · exact inf _
  · exact nanCanonical_ofSignMag _ (roundMag_le _ _)

theorem fsqrt_nanCanonical (a : F64) : NaNCanonical (fsqrt a) := by
  by_cases hn : isNaN a = true
  · rw [fsqrt_nan hn]; exact nanCanonical_qNaN
  rw [Bool.not_eq_true] at hn
  have self : NaNCanonical a := fun h => by rw [hn] at h; cases h
  unfold fsqrt
  repeat' split
  · exact nanCanonical_qNaN
  · exact self
  · exact nanCanonical_qNaN
  · exact self
  · exact nanCanonical_ofSignMag _ (roundMag_le _ _)

theorem atan2_nan {y x : F64} (h : isNaN y = true ∨ isNaN x = true) : atan2 y x = qNaN := by
  rw [atan2, if_pos (by simpa using h)]

/-- Every arctangent is the canonical NaN or has the sign of its first operand and a magnitude within `RN(π)`
(00_scope.md R21). -/
theorem atan2_signed {y x : F64} (hy : isNaN y = false) (hx : isNaN x = false) :
    ∃ m, m ≤ piMag ∧ atan2 y x = ofSignMag (isNeg y) m := by
  unfold atan2
  rw [hy, hx]
  simp only [Bool.or_false, Bool.false_eq_true, if_false]
  split
  · exact ⟨_, by split <;> decide, rfl⟩
  split
  · exact ⟨_, by (repeat' split) <;> decide, rfl⟩
  split
  · exact ⟨_, by decide, rfl⟩
  · rename_i hzy _ hzx
    simp only [Bool.or_eq_true, not_or, Bool.not_eq_true] at hzy hzx
    exact ⟨_, (angleMag_quadrant _ (units_pos hzy) (units_pos hzx.1) _).2.2, rfl⟩

theorem atan2_nanCanonical (y x : F64) : NaNCanonical (atan2 y x) := by
  by_cases h : isNaN y = true ∨ isNaN x = true
  · rw [atan2_nan h]; exact nanCanonical_qNaN
  simp only [not_or, Bool.not_eq_true] at h
  obtain ⟨m, hm, he⟩ := atan2_signed h.1 h.2
  rw [he]; exact nanCanonical_ofSignMag _ (hm.trans (by decide))

/-- Settles O44, each primitive by its own canonicity lemma; a difference is a sum with the operand negated. -/
theorem arithmeticNaNsAreCanonical : Obligations.ArithmeticNaNsAreCanonical := by
  intro a b
  have two {f : F64 → F64 → F64} (hc : NaNCanonical (f a b)) (hn : isNaN a = true ∨ isNaN b = true → f a b = qNaN) :
      (isNaN (f a b) = true → f a b = qNaN) ∧ (isNaN a = true → f a b = qNaN) ∧ (isNaN b = true → f a b = qNaN) :=
    ⟨hc, fun h => hn (.inl h), fun h => hn (.inr h)⟩
  refine ⟨?_, fsqrt_nanCanonical a, fsqrt_nan⟩
  simp only [List.forall_mem_cons]
  exact ⟨two (fadd_nanCanonical a b) fadd_nan,
    two (f := fsub) (fadd_nanCanonical a (fneg b)) fun h => fadd_nan (by rwa [isNaN_fneg]),
    two (fmul_nanCanonical a b) fmul_nan, two (fdiv_nanCanonical a b) fdiv_nan, two (atan2_nanCanonical a b) atan2_nan,
    by simp⟩

end Sys2Proof.Proofs
end

section
/-! PROOFS. Infinities, invalid operations, the signs of zeros, and the order of the comparison (00_scope.md R13, R17, R18). -/

namespace Sys2Proof.Proofs

open Sys2Proof.Machine Sys2Proof.Laws

/-- The infinity whose sign is the exclusive-or of two signs. -/
theorem signedInf_eq (s t : Bool) :
    ofSignMag (s != t) infMag = if s = t then (0x7FF0000000000000 : F64) else 0xFFF0000000000000 := by
  cases s <;> cases t <;> rfl

/-- The zero whose sign is the exclusive-or of two signs. -/
theorem signedZero_eq (s t : Bool) :
    ofSignMag (s != t) 0 = if s = t then (0x0000000000000000 : F64) else 0x8000000000000000 := by
  cases s <;> cases t <;> rfl

/-! ## Infinities and invalid operations -/

theorem fsub_inf_inf {a b : F64} (ha : isInf a = true) (hb : isInf b = true) :
    fsub a b = if isNeg a = isNeg b then qNaN else a := by
  rw [fsub, fadd_inf_inf ha (by rwa [isInf_fneg]), isNeg_fneg]
  cases isNeg a <;> cases isNeg b <;> rfl

theorem fsub_inf_finite {a b : F64} (ha : isInf a = true) (hb : isFinite b = true) : fsub a b = a :=
  fadd_inf_finite ha (by rwa [isFinite_fneg])

theorem fsub_finite_inf {a b : F64} (ha : isFinite a = true) (hb : isInf b = true) : fsub a b = fneg b :=
  fadd_finite_inf ha (by rwa [isInf_fneg])

/-- Settles O45, clause by clause from what each primitive gives on a class of operands. -/
theorem infinitiesAndInvalidOperations : Obligations.InfinitiesAndInvalidOperations := by
  intro a b hna hnb signedInf signedZero
  have inf : ofSignMag (isNeg a != isNeg b) infMag = signedInf := signedInf_eq _ _
  have zero : ofSignMag (isNeg b != isNeg a) 0 = signedZero := by rw [bne_comm]; exact signedZero_eq _ _
  refine ⟨fun ha hb => ⟨fadd_inf_inf ha hb, fsub_inf_inf ha hb, fdiv_inf_inf ha hb⟩, fun ha hb => ?_, fun ha hb => ?_,
    fun ha hb => ?_, fdiv_zero_zero, fun ha hb => ?_, fsqrt_negative, fsqrt_inf, fsqrt_zero⟩
  · exact ⟨fadd_inf_finite ha hb, fadd_finite_inf hb ha, fsub_inf_finite ha hb, fsub_finite_inf hb ha,
      (fdiv_inf_finite ha hb).trans inf, (fdiv_finite_inf hb ha).trans zero⟩
  · rw [fmul_comm b a]; exact ⟨fmul_inf_zero ha hb, fmul_inf_zero ha hb⟩
  · have h := (fmul_inf_nonzero ha hnb hb).trans inf
    rw [fmul_comm b a]; exact ⟨h, h⟩
  · exact (fdiv_nonzero_zero hna ha hb).trans inf

/-! ## Signs of zeros -/

theorem fsub_self {a : F64} (ha : isFinite a = true) : fsub a a = 0 := by
  rw [fsub, fadd_cancel ha (by rwa [isFinite_fneg]) (by simp), isNeg_fneg]
  simp only [Bool.and_not_self]; rfl

/-- A product of finite values of which one is zero is a zero. -/
theorem fmul_zero_factor {a b : F64} (ha : isFinite a = true) (hb : isFinite b = true)
    (hz : isZero a = true ∨ isZero b = true) : fmul a b = ofSignMag (isNeg a != isNeg b) 0 := by
  have hp : units a * units b = 0 := by rwa [mul_eq_zero, units_eq_zero_iff, units_eq_zero_iff]
  rw [fmul_finite ha hb, hp, roundMag_zero]

/-- A zero over anything that is neither zero nor a NaN is a zero. -/
theorem fdiv_zero_nonzero {a b : F64} (ha : isZero a = true) (hn : isNaN b = false) (hb : isZero b = false) :
    fdiv a b = ofSignMag (isNeg a != isNeg b) 0 := by
  rcases inf_or_finite hn with h | h
  · exact fdiv_finite_inf (finite_of_zero ha) h
  · rw [fdiv_finite (finite_of_zero ha) h hb, (units_eq_zero_iff a).2 ha, Nat.zero_mul, roundMag_zero]

/-- Settles O46: each clause is a sum that cancels, a product with a zero factor or a zero over a nonzero value. -/
theorem signsOfZeroResults : Obligations.SignsOfZeroResults := by
  refine ⟨fun a b ha hb hs ht => ?_, fun a ha => fsub_self ha, ?_, ?_, ?_, fun a b ha hb hz => ?_, fun a b ha hn hb => ?_⟩
  · rw [fadd_cancel ha hb ht]
    have : (isNeg a && isNeg b) = false := by revert hs; cases isNeg a <;> cases isNeg b <;> simp
    rw [this]; rfl
  · exact fadd_cancel (by decide) (by decide) (by decide)
  · exact fadd_cancel (by decide) (by decide) (by decide)
  · exact fadd_cancel (by decide) (by decide) (by decide)
  · rw [fmul_zero_factor ha hb hz, signedZero_eq]
  · rw [fdiv_zero_nonzero ha hn hb, signedZero_eq]

/-! ## Comparison -/

theorem flt_nan {a b : F64} (h : isNaN a = true ∨ isNaN b = true) : flt a b = false := by
  rcases h with h | h <;> simp [flt, h]

theorem flt_ordered {a b : F64} (ha : isNaN a = false) (hb : isNaN b = false) : flt a b = decide (ordKey a < ordKey b) := by
  simp [flt, ha, hb]

/-- On every pattern the order of the keys is that of the numbers of units. -/
theorem ordKey_lt_iff (a b : F64) : ordKey a < ordKey b ↔ sunits a < sunits b := by
  have zero (m : Nat) : magUnits m = 0 ↔ m = 0 := magUnits_strictMono.injective.eq_iff (a := m) (b := 0)
  have lt (m k : Nat) : magUnits m < magUnits k ↔ m < k := magUnits_strictMono.lt_iff_lt
  have za := zero (magBits a)
  have zb := zero (magBits b)
  have lab := lt (magBits a) (magBits b)
  have lba := lt (magBits b) (magBits a)
  unfold ordKey sunits units
  cases isNeg a <;> cases isNeg b <;> simp only [if_true, Bool.false_eq_true, if_false] <;> omega

theorem ordKey_zero {a : F64} (h : isZero a = true) : ordKey a = 0 := by
  rw [isZero, decide_eq_true_eq] at h
  unfold ordKey; rw [h]; simp

theorem ordKey_posInf : ordKey 0x7FF0000000000000 = infMag := by decide

theorem ordKey_negInf : ordKey 0xFFF0000000000000 = -infMag := by decide

/-- The magnitude bits of a value that is not a NaN are at most infinity's. -/
theorem magBits_le_of_not_nan {a : F64} (h : isNaN a = false) : magBits a ≤ infMag := by
  rwa [isNaN, decide_eq_false_iff_not, Nat.not_lt] at h

/-- The keys lie between those of the infinities. -/
theorem ordKey_mem_Icc {a : F64} (h : isNaN a = false) : -(infMag : Int) ≤ ordKey a ∧ ordKey a ≤ infMag := by
  have := magBits_le_of_not_nan h
  unfold ordKey; split <;> omega

/-- Only minus infinity has the least key. -/
theorem eq_negInf_of_ordKey {a : F64} (h : ordKey a = -infMag) : a = 0xFFF0000000000000 := by
  unfold ordKey at h
  split at h
  · rename_i hs; exact eq_ofSignMag (m := infMag) hs (by omega)
  · simp only [infMag] at h; omega

/-- Only plus infinity has the greatest key. -/
theorem eq_posInf_of_ordKey {a : F64} (h : ordKey a = infMag) : a = 0x7FF0000000000000 := by
  unfold ordKey at h
  split at h
  · simp only [infMag] at h; omega
  · rename_i hs; exact eq_ofSignMag (neg := false) (m := infMag) (by simpa using hs) (by omega)

/-- A comparison is false where the first key is not below the second, a NaN or not. -/
theorem flt_eq_false {a b : F64} (h : isNaN a = false → isNaN b = false → ordKey b ≤ ordKey a) : flt a b = false := by
  simp only [flt, Bool.and_eq_false_iff, Bool.not_eq_false', decide_eq_false_iff_not, not_lt]
  cases ha : isNaN a
  · cases hb : isNaN b
    · exact .inr (h ha hb)
    · exact .inl (.inr rfl)
  · exact .inl (.inl rfl)

/-- Settles O47, on finite values by `ordKey_lt_iff`, at the infinities by the range of the keys. -/
theorem comparisonIsOrdered : Obligations.ComparisonIsOrdered := by
  intro a b
  refine ⟨flt_nan, fun ha hb => ?_, fun ha hb => ?_, fun hb hne => ?_, fun ha hne => ?_, ?_, ?_⟩
  · rw [flt_ordered (not_nan_of_finite ha) (not_nan_of_finite hb), decide_eq_decide.2 (ordKey_lt_iff a b)]
  · exact flt_eq_false fun _ _ => by rw [ordKey_zero ha, ordKey_zero hb]
  · rw [flt_ordered (by decide) hb, ordKey_negInf, decide_eq_true_eq]
    exact lt_of_le_of_ne (ordKey_mem_Icc hb).1 fun h => hne (eq_negInf_of_ordKey h.symm)
  · rw [flt_ordered ha (by decide), ordKey_posInf, decide_eq_true_eq]
    exact lt_of_le_of_ne (ordKey_mem_Icc ha).2 fun h => hne (eq_posInf_of_ordKey h)
  · exact flt_eq_false fun h _ => by rw [ordKey_negInf]; exact (ordKey_mem_Icc h).1
  · exact flt_eq_false fun _ h => by rw [ordKey_posInf]; exact (ordKey_mem_Icc h).2

end Sys2Proof.Proofs
end

section
/-! PROOFS. Rounding of a signed exact result: the nearest value, ties to even, overflow past the midpoint, the sign
(00_scope.md R13, R16). -/

namespace Sys2Proof.Proofs

open Sys2Proof.Machine Sys2Proof.Laws

/-! ## Overflow -/

/-- The magnitude bits of the largest finite value, odd; twice the midpoint between it and the next code. -/
theorem last_finite : ∃ last, infMag = last + 1 ∧ last % 2 = 1 ∧
    magUnits last + magUnits (last + 1) = 2 * ((2 ^ 54 - 1) * 2 ^ 2044) :=
  ⟨0x7FEFFFFFFFFFFFFF, by decide +kernel⟩

/-- A magnitude overflows exactly from the midpoint past the largest finite value on. -/
theorem infMag_le_roundMag_iff (num : Nat) {den : Nat} (hd : 0 < den) :
    infMag ≤ roundMag num den ↔ (2 ^ 54 - 1) * 2 ^ 2044 * den ≤ num := by
  obtain ⟨last, hlast, hodd, hmid⟩ := last_finite
  obtain ⟨c, hlo, hhi, up, hr, hup⟩ := roundMag_eq num hd
  have mono {i j : Nat} (h : i ≤ j) : magUnits i * den ≤ magUnits j * den :=
    Nat.mul_le_mul_right _ (magUnits_strictMono.monotone h)
  have hgap : magUnits last * den < magUnits (last + 1) * den := Nat.mul_lt_mul_of_pos_right (magUnits_lt_succ last) hd
  replace hmid : magUnits last * den + magUnits (last + 1) * den = 2 * ((2 ^ 54 - 1) * 2 ^ 2044 * den) := by
    rw [← Nat.add_mul, hmid, Nat.mul_assoc]
  generalize (2 ^ 54 - 1) * 2 ^ 2044 * den = mid at hmid ⊢
  rw [hr, hlast]
  rcases Nat.lt_trichotomy c last with h | rfl | h
  · have hbelow := mono (show c + 1 ≤ last by omega)
    cases up <;> simp only [if_true, Bool.false_eq_true, if_false] <;> omega
  · cases up <;> simp only [if_true, Bool.false_eq_true, if_false, true_iff, false_iff] at hup ⊢ <;> omega
  · have habove := mono (show last + 1 ≤ c by omega)
    cases up <;> simp only [if_true, Bool.false_eq_true, if_false] <;> omega

/-! ## Signed results -/

/-- A magnitude with a sign. -/
def signed (neg : Bool) (u : Nat) : Int := if neg then -(u : Int) else u

theorem sunits_eq_signed (a : F64) : sunits a = signed (isNeg a) (units a) := rfl

theorem eq_signed (t : Int) : t = signed (decide (t < 0)) t.natAbs := by
  by_cases h : t < 0
  · simp only [signed, h, decide_true, if_true]; omega
  · simp only [signed, h, decide_false, Bool.false_eq_true, if_false]; omega

theorem sunits_ofSignMag (neg : Bool) {m : Nat} (h : m < 2 ^ 63) : sunits (ofSignMag neg m) = signed neg (magUnits m) := by
  rw [sunits_eq_signed, units, isNeg_ofSignMag h, magBits_ofSignMag h]

theorem signed_mul (s t : Bool) (u d : Nat) : signed s u * signed t d = signed (s != t) (u * d) := by
  cases s <;> cases t <;> simp [signed]

/-- The distance of two signed magnitudes is that of the magnitudes under one sign, and their sum under two. -/
theorem natAbs_signed_sub (s t : Bool) (n k : Nat) :
    (signed s n - signed t k).natAbs = if s = t then ((n : Int) - k).natAbs else n + k := by
  cases s <;> cases t <;> simp [signed] <;> omega

/-- `roundMag_nearest` with distances counted in natural numbers. -/
theorem roundMag_nearest_natAbs (n : Nat) {d k : Nat} (hd : 0 < d) (hr : roundMag n d < infMag) (hk : k < infMag) :
    ((n : Int) - magUnits (roundMag n d) * d).natAbs ≤ ((n : Int) - magUnits k * d).natAbs ∧
      (((n : Int) - magUnits (roundMag n d) * d).natAbs = ((n : Int) - magUnits k * d).natAbs → k ≠ roundMag n d →
        roundMag n d % 2 = 0) := by
  have h := roundMag_nearest n hd hr hk
  simpa only [Int.abs_eq_natAbs, Nat.cast_le, Nat.cast_inj] using h

/-- A rounded magnitude with the sign of a result that is not zero is nearest to it among the values of both signs, and even where
another value is as near. -/
theorem nearest_signed (sn sd : Bool) {n d : Nat} (hn : n ≠ 0) (hd : 0 < d) (hr : roundMag n d < infMag) {z : F64}
    (hz : isFinite z = true) :
    let r := signed (sn != sd) (magUnits (roundMag n d))
    (signed sn n - r * signed sd d).natAbs ≤ (signed sn n - sunits z * signed sd d).natAbs ∧
      ((signed sn n - r * signed sd d).natAbs = (signed sn n - sunits z * signed sd d).natAbs → sunits z ≠ r →
        roundMag n d % 2 = 0) := by
  intro r
  obtain ⟨hle, htie⟩ := roundMag_nearest_natAbs n hd hr (k := magBits z) (by simpa [isFinite] using hz)
  change _ ≤ ((n : Int) - units z * d).natAbs at hle
  change _ = ((n : Int) - units z * d).natAbs → _ at htie
  have hcode : magBits z = roundMag n d → units z = magUnits (roundMag n d) := fun h => by rw [units, h]
  simp only [r, sunits_eq_signed, signed_mul, natAbs_signed_sub, Bool.bne_assoc, bne_self_eq_false, Bool.bne_false, if_true,
    Nat.cast_mul]
  by_cases hs : sn = (isNeg z != sd)
  · rw [if_pos hs]
    exact ⟨hle, fun h hne => htie h fun hk => hne (by rw [hs, hcode hk, Bool.bne_assoc, bne_self_eq_false, Bool.bne_false])⟩
  · rw [if_neg hs]
    have hfar : ((n : Int) - units z * d).natAbs ≤ n + units z * d := by
      have : (0 : Int) ≤ units z * d := by positivity
      omega
    refine ⟨hle.trans hfar, fun h hne => htie (by omega) fun hk => hne ?_⟩
    have hzero : units z * d = 0 := by rw [← hcode hk] at h; omega
    have hu : units z = 0 := (Nat.mul_eq_zero.1 hzero).resolve_right hd.ne'
    rw [← hcode hk, hu]; simp [signed]

/-! ## The four operations -/

/-- What O42 says of a result `r` whose exact value is `num / den` units. -/
def RoundsTo (r : F64) (num den : Int) : Prop :=
  (isFinite r = true → ∀ z : F64, isFinite z = true →
    (num - sunits r * den).natAbs ≤ (num - sunits z * den).natAbs ∧
    ((num - sunits r * den).natAbs = (num - sunits z * den).natAbs → sunits z ≠ sunits r → r.getLsbD 0 = false)) ∧
  (isFinite r = false ↔ (2 ^ 54 - 1) * 2 ^ 2044 * den.natAbs ≤ num.natAbs) ∧ isNaN r = false ∧
  (num ≠ 0 → isNeg r = (decide (num < 0) != decide (den < 0)))

/-- Rounding the magnitude of a fraction and giving it the sign of the fraction, where that is not zero, rounds the fraction. -/
theorem roundsTo_ofSignMag {neg : Bool} {num den : Int} (hden : den ≠ 0)
    (hneg : num ≠ 0 → neg = (decide (num < 0) != decide (den < 0))) :
    RoundsTo (ofSignMag neg (roundMag num.natAbs den.natAbs)) num den := by
  have hd : 0 < den.natAbs := Int.natAbs_pos.2 hden
  have hm := roundMag_lt num.natAbs den.natAbs
  refine ⟨fun hfin z hz => ?_, ?_, isNaN_ofSignMag neg (roundMag_le _ _), fun h => by rw [isNeg_ofSignMag hm, hneg h]⟩
  · rw [isFinite_ofSignMag neg hm, decide_eq_true_eq] at hfin
    rw [sunits_ofSignMag neg hm, getLsbD_zero_ofSignMag neg hm, decide_eq_false_iff_not, Nat.mod_two_not_eq_one]
    by_cases h0 : num = 0
    · subst h0
      simp [signed, magUnits]
    · have h := nearest_signed (decide (num < 0)) (decide (den < 0)) (Int.natAbs_ne_zero.2 h0) hd hfin hz
      rwa [← eq_signed num, ← eq_signed den, ← hneg h0] at h
  · rw [isFinite_ofSignMag neg hm, decide_eq_false_iff_not, Nat.not_lt, infMag_le_roundMag_iff _ hd]

theorem fadd_roundsTo {a b : F64} (ha : isFinite a = true) (hb : isFinite b = true) :
    RoundsTo (fadd a b) (sunits a + sunits b) 1 := by
  by_cases ht : sunits a + sunits b = 0
  · have h := roundsTo_ofSignMag (neg := isNeg a && isNeg b) (num := 0) (den := 1) (by decide) (by simp)
    rw [fadd_cancel ha hb ht, ht]
    rwa [Int.natAbs_zero, roundMag_zero] at h
  · rw [fadd_finite ha hb ht]
    exact roundsTo_ofSignMag (den := 1) (by decide) (by simp)

theorem fsub_roundsTo {a b : F64} (ha : isFinite a = true) (hb : isFinite b = true) :
    RoundsTo (fsub a b) (sunits a - sunits b) 1 := by
  have h := fadd_roundsTo (b := fneg b) ha (by rwa [isFinite_fneg])
  rwa [sunits_fneg, ← sub_eq_add_neg] at h

theorem oneUnits_ne_zero : (oneUnits : Int) ≠ 0 := by exact_mod_cast oneUnits_pos.ne'

theorem decide_oneUnits_neg : decide ((oneUnits : Int) < 0) = false := by simp

/-- The sign of a product of values that are not zero. -/
theorem decide_mul_neg {s t : Int} (hs : s ≠ 0) (ht : t ≠ 0) :
    decide (s * t < 0) = (decide (s < 0) != decide (t < 0)) := by
  rcases lt_or_gt_of_ne hs with h | h <;> rcases lt_or_gt_of_ne ht with k | k
  · simp [h, k, (mul_pos_of_neg_of_neg h k).not_gt]
  · simp [h, k.not_gt, mul_neg_of_neg_of_pos h k]
  · simp [h.not_gt, k, mul_neg_of_pos_of_neg h k]
  · simp [h.not_gt, k.not_gt, (mul_pos h k).not_gt]

theorem fmul_roundsTo {a b : F64} (ha : isFinite a = true) (hb : isFinite b = true) :
    RoundsTo (fmul a b) (sunits a * sunits b) oneUnits := by
  have h := roundsTo_ofSignMag (neg := isNeg a != isNeg b) (num := sunits a * sunits b) (den := oneUnits)
    oneUnits_ne_zero fun h => by
      obtain ⟨h1, h2⟩ := mul_ne_zero_iff.1 h
      rw [decide_mul_neg h1 h2, decide_sunits_neg h1, decide_sunits_neg h2, decide_oneUnits_neg, Bool.bne_false]
  rw [fmul_finite ha hb]
  rwa [Int.natAbs_mul, natAbs_sunits, natAbs_sunits, Int.natAbs_natCast] at h

theorem fdiv_roundsTo {a b : F64} (ha : isFinite a = true) (hb : isFinite b = true) (hz : isZero b = false) :
    RoundsTo (fdiv a b) (sunits a * oneUnits) (sunits b) := by
  have hb0 : sunits b ≠ 0 := by rw [ne_eq, sunits_eq_zero_iff, hz]; decide
  have h := roundsTo_ofSignMag (neg := isNeg a != isNeg b) (num := sunits a * oneUnits) hb0 fun h => by
      have h1 := left_ne_zero_of_mul h
      rw [decide_mul_neg h1 oneUnits_ne_zero, decide_sunits_neg h1, decide_sunits_neg hb0, decide_oneUnits_neg,
        Bool.bne_false]
  rw [fdiv_finite ha hb hz]
  rwa [Int.natAbs_mul, natAbs_sunits, natAbs_sunits, Int.natAbs_natCast] at h

/-- Settles O42: the four operations round their exact results. -/
theorem primitivesRoundToNearestEven : Obligations.PrimitivesRoundToNearestEven := by
  intro a b ha hb p hp
  show RoundsTo p.1 p.2.1 p.2.2
  rcases List.mem_append.1 hp with hp | hp
  · simp only [List.mem_cons, List.not_mem_nil, or_false] at hp
    rcases hp with rfl | rfl | rfl
    · exact fadd_roundsTo ha hb
    · exact fsub_roundsTo ha hb
    · exact fmul_roundsTo ha hb
  · cases hz : isZero b
    · simp only [hz, Bool.false_eq_true, if_false, List.mem_singleton] at hp
      subst hp
      exact fdiv_roundsTo ha hb hz
    · simp [hz] at hp

end Sys2Proof.Proofs
end

section
/-! PROOFS. The square root is the value nearest to the exact root (00_scope.md R13): its integer part is exact, and half past it lies
on the root's side of every midpoint, since midpoints of magnitudes this large are whole. -/

namespace Sys2Proof.Proofs

open Sys2Proof.Machine Sys2Proof.Laws

/-! ## The integer square root -/

/-- With the digits from `i` on right, `sqrtBits` finds the rest. -/
theorem sqrtBits_spec : ∀ (i n r : Nat), r * r ≤ n → n < (r + 2 ^ i) * (r + 2 ^ i) →
    sqrtBits i n r * sqrtBits i n r ≤ n ∧ n < (sqrtBits i n r + 1) * (sqrtBits i n r + 1)
  | 0, _, _, hlo, hhi => ⟨hlo, hhi⟩
  | i + 1, n, r, hlo, hhi => by
    rw [sqrtBits, Nat.one_shiftLeft]
    by_cases h : (r + 2 ^ i) * (r + 2 ^ i) ≤ n
    · rw [if_pos h]
      exact sqrtBits_spec i n _ h (by rwa [Nat.pow_succ, Nat.mul_two, ← Nat.add_assoc] at hhi)
    · rw [if_neg h]
      exact sqrtBits_spec i n r hlo (Nat.not_le.1 h)

theorem isqrt_eq_sqrt (n : Nat) : isqrt n = Nat.sqrt n := by
  have hlt : n < 2 ^ (n.log2 / 2 + 1) * 2 ^ (n.log2 / 2 + 1) := by
    rw [← Nat.pow_add]
    exact Nat.lt_log2_self.trans_le (Nat.pow_le_pow_right (by decide) (by omega))
  exact Nat.eq_sqrt.2 (sqrtBits_spec _ n 0 (Nat.zero_le n) (by rwa [Nat.zero_add]))

/-! ## Twice the root, an inexact one taken half past its integer part -/

/-- What `fsqrt` rounds, over 2. -/
def twiceRoot (n : Nat) : Nat := 2 * isqrt n + if isqrt n * isqrt n = n then 0 else 1

theorem le_sq_of_twiceRoot_le {n t : Nat} (h : twiceRoot n ≤ 2 * t) : n ≤ t * t := by
  rw [twiceRoot, isqrt_eq_sqrt] at h
  by_cases he : Nat.sqrt n * Nat.sqrt n = n
  · rw [if_pos he] at h
    rw [← he]; exact Nat.mul_self_le_mul_self (by omega)
  · rw [if_neg he] at h
    exact (Nat.sqrt_lt.1 (show Nat.sqrt n < t by omega)).le

theorem sq_le_of_le_twiceRoot {n t : Nat} (h : 2 * t ≤ twiceRoot n) : t * t ≤ n := by
  rw [twiceRoot, isqrt_eq_sqrt] at h
  exact Nat.le_sqrt.1 (show t ≤ Nat.sqrt n by split at h <;> omega)

theorem two_mul_le_twiceRoot {n t : Nat} (h : t * t ≤ n) : 2 * t ≤ twiceRoot n := by
  have := Nat.le_sqrt.2 h
  rw [twiceRoot, isqrt_eq_sqrt]; omega

theorem twiceRoot_lt {n t : Nat} (h : n < t * t) : twiceRoot n < 2 * t := by
  have := Nat.sqrt_lt.2 h
  rw [twiceRoot, isqrt_eq_sqrt]; split <;> omega

/-! ## Midpoints -/

/-- Magnitudes from `2^53` units on are even numbers of units. -/
theorem magUnits_even {m : Nat} (h : 2 ^ 53 ≤ m) : magUnits m % 2 = 0 := by
  obtain ⟨e, he⟩ : ∃ e, m / 2 ^ 52 - 1 = e + 1 := ⟨m / 2 ^ 52 - 2, by omega⟩
  rw [magUnits_normal (by omega), he, pow_succ 2 e, ← Nat.mul_assoc, Nat.mul_mod_left]

/-- The midpoint with a neighbour above is not below what is rounded. -/
theorem le_midpoint_above {q k : Nat} (h : roundMag q 2 < k) (hk : k < infMag) :
    q ≤ magUnits (roundMag q 2) + magUnits k := by
  have hn := (roundMag_nearest_natAbs q two_pos (h.trans hk) hk).1
  have := magUnits_strictMono h
  omega

/-- The midpoint with a neighbour below is not above what is rounded. -/
theorem midpoint_below_le {q k : Nat} (h : k < roundMag q 2) (hr : roundMag q 2 < infMag) :
    magUnits (roundMag q 2) + magUnits k ≤ q := by
  have hn := (roundMag_nearest_natAbs q two_pos hr (h.trans hr)).1
  have := magUnits_strictMono h
  omega

/-- Between the rounded root of a large number and its neighbours, whole midpoints separate: any code above gives a midpoint
not below the root, any code below one not above. -/
theorem root_between {n : Nat} (hn : 2 ^ 54 * 2 ^ 54 ≤ n) (hr : roundMag (twiceRoot n) 2 < infMag) (k : Nat) (hk : k < infMag) :
    let m := roundMag (twiceRoot n) 2
    (m < k → 4 * n ≤ (magUnits m + magUnits k) ^ 2) ∧ (k < m → (magUnits m + magUnits k) ^ 2 ≤ 4 * n) := by
  intro m
  have hbig : 2 ^ 53 < m := by
    have hone : roundMag (magUnits (2 ^ 53 + 1) * 2) 2 = 2 ^ 53 + 1 := roundMag_magUnits (by decide) two_pos
    have hle : magUnits (2 ^ 53 + 1) * 2 ≤ twiceRoot n := le_trans (by decide) (two_mul_le_twiceRoot hn)
    have := roundMag_mono two_pos two_pos (Nat.mul_le_mul_right 2 hle)
    omega
  have hm := magUnits_even hbig.le
  have sq (t : Nat) : (2 * t) ^ 2 = 4 * (t * t) := by ring
  constructor
  · intro h
    have hnext := le_midpoint_above (Nat.lt_succ_self m) (lt_of_le_of_lt h hk)
    have heven := magUnits_even (m := m + 1) (by omega)
    have hmono := magUnits_strictMono.monotone (show m + 1 ≤ k from h)
    obtain ⟨t, ht⟩ : ∃ t, magUnits m + magUnits (m + 1) = 2 * t := ⟨(magUnits m + magUnits (m + 1)) / 2, by omega⟩
    calc 4 * n ≤ 4 * (t * t) := Nat.mul_le_mul_left 4 (le_sq_of_twiceRoot_le (ht ▸ hnext))
      _ = (2 * t) ^ 2 := (sq t).symm
      _ ≤ (magUnits m + magUnits k) ^ 2 := Nat.pow_le_pow_left (by omega) 2
  · intro h
    have hprev := midpoint_below_le (Nat.sub_lt (by omega : 0 < m) one_pos) hr
    have heven := magUnits_even (m := m - 1) (by omega)
    have hmono := magUnits_strictMono.monotone (show k ≤ m - 1 by omega)
    obtain ⟨t, ht⟩ : ∃ t, magUnits m + magUnits (m - 1) = 2 * t := ⟨(magUnits m + magUnits (m - 1)) / 2, by omega⟩
    calc (magUnits m + magUnits k) ^ 2 ≤ (2 * t) ^ 2 := Nat.pow_le_pow_left (by omega) 2
      _ = 4 * (t * t) := sq t
      _ ≤ 4 * n := Nat.mul_le_mul_left 4 (sq_le_of_le_twiceRoot (ht ▸ hprev))

/-! ## The root of a finite value -/

/-- The number whose root `fsqrt` takes is large, and its root is far below the largest finite value. -/
theorem sqrt_operand_bounds {a : F64} (ha : isFinite a = true) (hz : isZero a = false) :
    2 ^ 54 * 2 ^ 54 ≤ units a * oneUnits ∧ roundMag (twiceRoot (units a * oneUnits)) 2 < infMag := by
  have hpos := units_pos hz
  have hone : 2 ^ 54 * 2 ^ 54 ≤ oneUnits := by decide +kernel
  have hlt : units a < magUnits infMag := magUnits_strictMono (by simpa [isFinite] using ha)
  obtain ⟨t, ht, hmax⟩ : ∃ t, magUnits infMag * oneUnits ≤ t * t ∧ 2 * t ≤ (2 ^ 54 - 1) * 2 ^ 2044 * 2 :=
    ⟨1 <<< 1586, by decide +kernel⟩
  have hroot : twiceRoot (units a * oneUnits) < 2 * t :=
    twiceRoot_lt ((Nat.mul_lt_mul_of_pos_right hlt (by omega)).trans_le ht)
  refine ⟨hone.trans (Nat.le_mul_of_pos_left _ hpos), ?_⟩
  by_contra hover
  have := (infMag_le_roundMag_iff _ two_pos).1 (Nat.not_lt.1 hover)
  generalize (2 ^ 54 - 1) * 2 ^ 2044 * 2 = limit at *
  omega

/-- Settles O43: a zero is its own root, and a nonzero value's root is rounded as `root_between` says. -/
theorem squareRootRoundsToNearest : Obligations.SquareRootRoundsToNearest := by
  intro a ha hs
  cases hz : isZero a
  · obtain ⟨hlarge, hr⟩ := sqrt_operand_bounds ha hz
    have hm := roundMag_lt (twiceRoot (units a * oneUnits)) 2
    have he : fsqrt a = ofSignMag false (roundMag (twiceRoot (units a * oneUnits)) 2) := fsqrt_finite ha hz hs
    have hu : units (fsqrt a) = magUnits (roundMag (twiceRoot (units a * oneUnits)) 2) := by
      rw [he, units, magBits_ofSignMag hm]
    refine ⟨by rw [he, isFinite_ofSignMag _ hm, decide_eq_true hr], by rw [he, isNeg_ofSignMag hm], fun z hzf _ => ?_⟩
    have h := root_between hlarge hr (magBits z) (by simpa [isFinite] using hzf)
    rw [hu, show units z = magUnits (magBits z) from rfl, magUnits_strictMono.lt_iff_lt, magUnits_strictMono.lt_iff_lt]
    exact h
  · rw [fsqrt_zero hz, (units_eq_zero_iff a).2 hz]
    exact ⟨ha, hs, fun z _ _ => ⟨fun _ => by simp, fun h => absurd h (Nat.not_lt_zero _)⟩⟩

end Sys2Proof.Proofs
end

section
/-! PROOFS. The arctangent: its table of special cases, and the rounded angle of finite nonzero operands (00_scope.md R21,
40_element_access.md R114). -/

namespace Sys2Proof.Proofs

open Sys2Proof.Machine Sys2Proof.Laws

/-! ## Each case of the definition -/

theorem atan2_zero_left {y x : F64} (hx : isNaN x = false) (hy : isZero y = true) :
    atan2 y x = ofSignMag (isNeg y) (if isNeg x then piMag else 0) := by
  simp [atan2, not_nan_of_finite (finite_of_zero hy), hx, hy]

theorem atan2_zero_right {y x : F64} (hn : isNaN y = false) (hy : isZero y = false) (hx : isZero x = true) :
    atan2 y x = ofSignMag (isNeg y) halfPiMag := by
  simp [atan2, not_nan_of_finite, not_inf_of_finite, finite_of_zero hx, hn, hy, hx]

theorem atan2_finite_inf {y x : F64} (hf : isFinite y = true) (hy : isZero y = false) (hx : isInf x = true) :
    atan2 y x = ofSignMag (isNeg y) (if isNeg x then piMag else 0) := by
  simp [atan2, not_nan_of_finite, not_inf_of_finite, not_nan_of_inf, hf, hy, hx]

theorem atan2_inf_finite {y x : F64} (hy : isInf y = true) (hx : isFinite x = true) :
    atan2 y x = ofSignMag (isNeg y) halfPiMag := by
  simp [atan2, not_nan_of_finite, not_inf_of_finite, not_nan_of_inf, not_zero_of_inf, hy, hx]

theorem atan2_inf_inf {y x : F64} (hy : isInf y = true) (hx : isInf x = true) :
    atan2 y x = ofSignMag (isNeg y) (if isNeg x then threeQuarterPiMag else quarterPiMag) := by
  simp [atan2, not_nan_of_inf, not_zero_of_inf, hy, hx]

theorem atan2_finite {y x : F64} (hy : isFinite y = true) (hy0 : isZero y = false) (hx : isFinite x = true)
    (hx0 : isZero x = false) :
    atan2 y x = ofSignMag (isNeg y) (angleMag (isNeg x) (units y) (units x) (Config.atan2Upper y x)) := by
  simp [atan2, not_nan_of_finite, not_inf_of_finite, hy, hy0, hx, hx0]

/-! ## Special cases -/

/-- A value with the sign of the first operand, as O51 writes it. -/
theorem ofSignMag_eq_fneg (neg : Bool) {m : Nat} (h : m < 2 ^ 63) :
    ofSignMag neg m = if neg then fneg (ofSignMag false m) else ofSignMag false m := by
  cases neg
  · rfl
  · exact (fneg_ofSignMag false h).symm

/-- Settles O51, a case of the definition for each line of the table. -/
theorem atan2SpecialCases : Obligations.Atan2SpecialCases := by
  intro y x hny hnx pm
  have sgn {m : Nat} (h : m < 2 ^ 63) : ofSignMag (isNeg y) m = pm (ofSignMag false m) := ofSignMag_eq_fneg _ h
  refine ⟨fun hy hx => ?_, fun hy hx => ?_, fun hy hx => ?_, fun hf hy hx => ?_, fun hf hy hx => ?_, fun hy hx => ?_,
    fun hy hx => ?_, fun hy hx => ?_⟩
  · rw [atan2_zero_left hnx hy, hx]; exact sgn (by decide)
  · rw [atan2_zero_left hnx hy, hx]; exact sgn (by decide)
  · rw [atan2_zero_right hny hy hx]; exact sgn (by decide)
  · subst hx; rw [atan2_finite_inf hf hy (by decide)]; exact sgn (m := piMag) (by decide)
  · subst hx; rw [atan2_finite_inf hf hy (by decide)]; exact sgn (m := 0) (by decide)
  · rw [atan2_inf_finite hy hx]; exact sgn (by decide)
  · subst hx; rw [atan2_inf_inf hy (by decide)]; exact sgn (m := threeQuarterPiMag) (by decide)
  · subst hx; rw [atan2_inf_inf hy (by decide)]; exact sgn (m := quarterPiMag) (by decide)

/-! ## The angle of finite nonzero operands -/

theorem cast_sunits (a : F64) : (sunits a : ℝ) = if isNeg a then -(units a : ℝ) else units a := by
  unfold sunits; split <;> push_cast <;> rfl

/-- The exact angle of the operands, by their signs and magnitudes. -/
theorem arg_operands {y x : F64} (hy : isZero y = false) (hx : isZero x = false) :
    Complex.arg ⟨(sunits x : ℝ), (sunits y : ℝ)⟩ =
      if isNeg y then -angleOf (isNeg x) (units y) (units x) else angleOf (isNeg x) (units y) (units x) := by
  have h := arg_units (units_pos hy) (units_pos hx) (!isNeg y) (isNeg x)
  rw [cast_sunits, cast_sunits]
  cases hs : isNeg y <;> simpa [hs] using h

/-- Equal magnitude bits are equal numbers of units. -/
theorem units_eq_of_magBits {a b : F64} (h : magBits a = magBits b) : units a = units b := by rw [units, units, h]

/-- The rounded angle is nearest to the exact one among all finite values, up to a 2^-200th of it. -/
theorem atan2_nearest {y x : F64} (hy : isFinite y = true) (hy0 : isZero y = false) (hx : isFinite x = true)
    (hx0 : isZero x = false) {z : F64} (hz : isFinite z = true) :
    let angle : ℝ := Complex.arg ⟨(sunits x : ℝ), (sunits y : ℝ)⟩
    |angle * oneUnits - sunits (atan2 y x)| ≤ |angle * oneUnits - sunits z| + |angle| * oneUnits / 2 ^ 200 := by
  intro angle
  have hn := units_pos hy0
  have hd := units_pos hx0
  set θ := angleOf (isNeg x) (units y) (units x)
  have hθ : 0 < θ := angleOf_pos _ hn hd
  have hangle : angle = if isNeg y then -θ else θ := arg_operands hy0 hx0
  have habs : |angle| = θ := by rw [hangle]; cases isNeg y <;> simp [abs_of_pos hθ]
  have hscale : angle * oneUnits = if isNeg y then -(θ * oneUnits) else θ * oneUnits := by
    rw [hangle]; cases isNeg y <;> simp
  have hquad := (angleMag_quadrant (isNeg x) hn hd (Config.atan2Upper y x)).2.2
  rw [atan2_finite hy hy0 hx hx0, habs, hscale]
  exact (angleMag_nearest (isNeg x) hn hd _).signed (mul_nonneg hθ.le oneUnits_pos.le) (isNeg y)
    (hquad.trans_lt (by decide)) z hz

/-- Settles O52: sign and range by `atan2_signed`, quadrant and diagonals by the lemmas on the rounded angle, and
nearness by `atan2_nearest`. -/
theorem phaseLiesInRange : Obligations.PhaseLiesInRange := by
  refine ⟨fun y x hy hx => ?_, fun y x hy hy0 hx hx0 => ?_⟩
  · obtain ⟨m, hm, he⟩ := atan2_signed hy hx
    have hlt : m < 2 ^ 63 := hm.trans_lt (by decide)
    rw [he, isNeg_ofSignMag hlt, magBits_ofSignMag hlt]
    exact ⟨rfl, hm⟩
  · obtain ⟨hright, hleft, hpi⟩ := angleMag_quadrant (isNeg x) (units_pos hy0) (units_pos hx0) (Config.atan2Upper y x)
    have hmag := magBits_ofSignMag (neg := isNeg y) (hpi.trans_lt (by decide))
    rw [← atan2_finite hy hy0 hx hx0] at hmag
    refine ⟨fun h => hmag ▸ hright h, fun h => hmag ▸ hleft h, fun h => ?_, fun z hz => atan2_nearest hy hy0 hx hx0 hz⟩
    rw [hmag, units_eq_of_magBits h, angleMag_diag _ (units_pos hx0)]

end Sys2Proof.Proofs
end

section
/-! PROOFS. What a command can do, said once: every command is its checks and a rule, and the effect of a rule on STATUS,
the fault log, the scratch storage and the grid store (30_encoding.md R97, 60_exceptions.md R186, 20_memory.md R71). -/

namespace Sys2Proof.Proofs

open Sys2Proof.Machine Sys2Proof.Laws

/-! ## A command is its checks and its rule -/

/-- The checks of a command (60_exceptions.md R182, R186). -/
def checkOf (b : Build) : Instr → Option ErrCode
  | .get d x y | .set d x y | .mag2 d x y | .mag d x y | .phase d x y | .zeroCell d x y => cellError b d x y
  | .scale d | .sumsq d | .renorm d | .fftFwd d | .fftInv d => gridError b d
  | .copy d src => copyError b d src

/-- The rule of a command, without its completion. -/
def ruleOf (i : Instr) (s : State) : State :=
  match i with
  | .get d x y => readCellInto (cellOperand s.build d x y) setRes s
  | .set d x y => writeCell s (cellOperand s.build d x y) ⟨s.latOpa, s.latOpb⟩
  | .mag2 d x y => readCellInto (cellOperand s.build d x y) (fun v => setRes0 (mag2 v)) s
  | .mag d x y => readCellInto (cellOperand s.build d x y) (fun v => setRes0 (fsqrt (mag2 v))) s
  | .phase d x y => readCellInto (cellOperand s.build d x y) (fun v => setRes0 (atan2 v.im v.re)) s
  | .zeroCell d x y => writeCell s (cellOperand s.build d x y) Cx.zero
  | .scale d => rewriteBank d d (scaleCells s.latOpa) s
  | .copy d src => rewriteBank d src id s
  | .sumsq d => noteRead (bankWritten s d) (setRes0 (sumSquares (bankBits s d)) s)
  | .renorm d => renormBank d s
  | .fftFwd d => spoilScratch (rewriteBank d d (fft2dFwd s.build.log2n) s)
  | .fftInv d => spoilScratch (rewriteBank d d (fft2dInv s.build.log2n) s)

theorem perform_congr {c : Option ErrCode} {f g : State → State} {s : State} (h : f s = g s) :
    perform c f s = perform c g s := by
  cases c <;> simp [h]

theorem exec_eq_perform (i : Instr) (s : State) : exec i s = perform (checkOf s.build i) (ruleOf i) s := by
  cases i <;> simp only [exec, execGet, execSet, execMag2, execMag, execPhase, execZeroCell, execScale, execCopy,
    execSumsq, execRenorm, execFftFwd, execFftInv] <;> (apply perform_congr; rfl)

/-- The bank a command names as its destination. -/
def destOf : Instr → Option Nat
  | .set d _ _ | .zeroCell d _ _ | .scale d | .copy d _ | .renorm d | .fftFwd d | .fftInv d => some d
  | .get _ _ _ | .mag2 _ _ _ | .mag _ _ _ | .phase _ _ _ | .sumsq _ => none

/-! ## The effect of a rule -/

/-- What a rule may do to the parts of the state that are not `Kept`, the result registers and the free-value counter
aside: `warns` says whether it may report W_NEARZERO, `dst` which bank it may write to. -/
structure Effect (dst : Option Nat) (warns : Prop) (s t : State) : Prop where
  status : t.status = s.status ∨ warns ∧ t.status = s.status.nearZero
  faultlog : t.faultlog = s.faultlog ∨ t.faultlog = s.faultlog ++ [.uninitRead]
  scratch : t.scratch = s.scratch ∨ t.scratch.length = s.build.n
  grid : t.grid = s.grid ∨ ∃ d k vs, dst = some d ∧ d < s.build.nbanks ∧ k + vs.length ≤ s.build.cells ∧
    t.grid = gridWriteFrom s.grid (cellAddr d k) vs

variable {dst : Option Nat} {warns : Prop} {s t : State}

theorem Effect.of_noteRead (w : Bool) (hs : t.status = s.status ∨ warns ∧ t.status = s.status.nearZero)
    (hf : t.faultlog = s.faultlog) (hc : t.scratch = s.scratch) (hg : t.grid = s.grid) :
    Effect dst warns s (noteRead w t) where
  status := by simpa using hs
  faultlog := by cases w <;> simp [hf]
  scratch := by simp [hc]
  grid := by simp [hg]

theorem Effect.of_writeCell {b : Build} {d x y : Nat} (v : Cx) (hb : b = s.build) (h : cellError b d x y = none) :
    Effect (some d) warns s (writeCell s (cellOperand b d x y) v) := by
  obtain ⟨hd, hx, hy⟩ := cellError_eq_none.1 h
  subst b
  exact ⟨.inl rfl, .inl rfl, .inl rfl, .inr ⟨d, flatIdx s.build x y, [v], rfl, hd, flatIdx_lt hx hy, rfl⟩⟩

theorem Effect.of_rewriteBank {d : Nat} (src : Nat) (f : List Cx → List Cx) (hd : d < s.build.nbanks)
    (hf : (f (bankBits s src)).length = s.build.cells) : Effect (some d) warns s (rewriteBank d src f s) := by
  rcases rewriteBank_cases d src f s with ⟨-, h⟩ | ⟨-, h⟩ <;> rw [h]
  · exact ⟨.inl rfl, .inr rfl, .inl rfl, .inl rfl⟩
  · exact ⟨.inl rfl, .inl rfl, .inl rfl, .inr ⟨d, 0, _, rfl, hd, by simp [hf], rfl⟩⟩

/-- A result register set before a rule runs is no effect of its own. -/
theorem Effect.of_setRes0 {v : F64} (h : Effect dst warns (setRes0 v s) t) : Effect dst warns s t :=
  ⟨h.status, h.faultlog, h.scratch, h.grid⟩

theorem Effect.of_spoilScratch (h : Effect dst warns s t) (hb : t.build = s.build) :
    Effect dst warns s (spoilScratch t) :=
  ⟨h.status, h.faultlog, .inr (by simp [hb]), h.grid⟩

theorem Effect.of_renormBank {d : Nat} (hd : d < s.build.nbanks) (hw : warns) :
    Effect (some d) warns s (renormBank d s) := by
  unfold renormBank
  simp only
  split
  · exact .of_noteRead _ (.inr ⟨hw, rfl⟩) rfl rfl rfl
  · exact .of_setRes0 (.of_rewriteBank _ _ hd (by simp))

/-- Every rule that the checks let run has an effect on its destination alone, and only RENORM's may warn. -/
theorem ruleOf_effect {i : Instr} (h : checkOf s.build i = none) :
    Effect (destOf i) (∃ d, i = .renorm d) s (ruleOf i s) := by
  cases i
  case get | mag2 | mag | phase | sumsq => exact .of_noteRead _ (.inl rfl) rfl rfl rfl
  case set | zeroCell => exact .of_writeCell _ rfl h
  case scale => exact .of_rewriteBank _ _ (gridError_eq_none.1 h) (by simp)
  case copy => exact .of_rewriteBank _ _ (copyError_eq_none.1 h).1 (by simp)
  case renorm d => exact .of_renormBank (gridError_eq_none.1 h) ⟨d, rfl⟩
  case fftFwd | fftInv =>
    exact (Effect.of_rewriteBank _ _ (gridError_eq_none.1 h) (by simp [Build.cells, Build.n])).of_spoilScratch
      (kept_rewriteBank _ _ _ _).1

/-- A command ends with an error, or completes after the effect of its rule. -/
theorem exec_outcome (i : Instr) (s : State) :
    (∃ c, exec i s = .next (raiseError c s)) ∨
      ∃ u, exec i s = .next (complete u) ∧ Effect (destOf i) (∃ d, i = .renorm d) s u := by
  rw [exec_eq_perform]
  cases h : checkOf s.build i with
  | some c => exact .inl ⟨c, rfl⟩
  | none => exact .inr ⟨_, rfl, ruleOf_effect h⟩

end Sys2Proof.Proofs
end

section
/-! PROOFS. What a step can do to the build, the fault log and the state invariant: the host's side, the engine's turn and
the two resets, each said once (10_state.md R30, R40, R53, 70_reset_and_hazards.md R210-R212). -/

namespace Sys2Proof.Proofs

open Sys2Proof.Machine Sys2Proof.Laws Sys2Proof.Safety

variable {s t : State}

/-! ## Host accesses -/

/-- A host read changes the response alone, but for a bus error. -/
theorem hostRead_cases (addr : BitVec 64) (width : Nat) (s : State) :
    (∃ r, hostRead addr width s = { s with resp := r }) ∨ hostRead addr width s = busError s := by
  unfold hostRead
  split
  · exact .inl ⟨_, rfl⟩
  · split
    · exact .inl ⟨_, rfl⟩
    · split
      · exact .inl ⟨_, rfl⟩
      · exact .inr rfl

/-- A host write changes the response alone, is a bus error, or out of reset writes a register. -/
theorem hostWrite_cases (addr : BitVec 64) (data : List Byte) (s : State) :
    (∃ r, hostWrite addr data s = { s with resp := r }) ∨ hostWrite addr data s = busError s ∨
      s.resetPin = false ∧ ∃ v r, hostWrite addr data s = { writeReg s v r with resp := .done } := by
  unfold hostWrite
  split
  · exact .inl ⟨_, rfl⟩
  · split
    · exact .inl ⟨_, rfl⟩
    · rename_i hp
      split
      · unfold writeOffset
        split
        · exact .inr (.inr ⟨by simpa using hp, _, _, rfl⟩)
        · exact .inl ⟨_, rfl⟩
      · exact .inr (.inl rfl)

/-- A CTRL write is a soft reset or nothing. -/
theorem writeCtrl_cases (v : Word) (s : State) : writeCtrl v s = softReset s ∨ writeCtrl v s = s := by
  unfold writeCtrl
  split
  · exact .inl rfl
  · exact .inr rfl

/-- An accepted CMD write. -/
theorem writeCmd_accepted (w : Word) (hb : s.status.busy = false) (he : s.status.err = false) :
    writeCmd w s =
      { s with cmd := w, latOpa := s.opa, latOpb := s.opb, latEps := s.renormEps, status := s.status.accept } := by
  simp [writeCmd, hb, he]

/-- A dropped CMD write. -/
theorem writeCmd_dropped (w : Word) (h : s.status.busy = true ∨ s.status.err = true) :
    writeCmd w s = { s with status := s.status.drop } := by
  rcases h with h | h <;> simp [writeCmd, h]

/-- A CMD write is accepted, with BUSY and ERR clear, or dropped. -/
theorem writeCmd_cases (w : Word) (s : State) :
    (s.status.err = false ∧ writeCmd w s =
      { s with cmd := w, latOpa := s.opa, latOpb := s.opb, latEps := s.renormEps, status := s.status.accept }) ∨
    writeCmd w s = { s with status := s.status.drop } := by
  cases hb : s.status.busy
  · cases he : s.status.err
    · exact .inl ⟨rfl, writeCmd_accepted w hb he⟩
    · exact .inr (writeCmd_dropped w (.inr he))
  · exact .inr (writeCmd_dropped w (.inl hb))

theorem softReset_build (s : State) : (softReset s).build = s.build := abortPending_build s

theorem softReset_faultlog (s : State) : (softReset s).faultlog = s.faultlog := abortPending_faultlog s

/-- A register write changes neither the build nor the fault log. -/
theorem writeReg_frame (s : State) (v : Word) (r : Reg) :
    (writeReg s v r).build = s.build ∧ (writeReg s v r).faultlog = s.faultlog := by
  cases r
  case ctrl =>
    rcases writeCtrl_cases v s with h | h <;> rw [writeReg, h]
    · exact ⟨softReset_build s, softReset_faultlog s⟩
    · exact ⟨rfl, rfl⟩
  case cmd => rcases writeCmd_cases v s with ⟨-, h⟩ | h <;> rw [writeReg, h] <;> exact ⟨rfl, rfl⟩
  case id | config | status | opa | opb | res0 | res1 | renormEps | irqEn => exact ⟨rfl, rfl⟩

/-! ## The build and the fault log -/

theorem exec_faultlog {i : Instr} (h : exec i s = .next t) : s.faultlog <+: t.faultlog := by
  rcases exec_outcome i s with ⟨c, hc⟩ | ⟨u, hu, he⟩
  · cases h.symm.trans hc
    exact List.prefix_append _ _
  · cases h.symm.trans hu
    rcases he.faultlog with hf | hf <;> simp [hf]

theorem engineStep_frame (h : engineStep s = .next t) : t.build = s.build ∧ s.faultlog <+: t.faultlog := by
  rcases engineStep_cases h with ⟨-, rfl⟩ | ⟨-, -, ⟨e, -, rfl⟩ | ⟨i, -, hi⟩⟩
  · exact ⟨rfl, List.prefix_rfl⟩
  · exact ⟨rfl, List.prefix_append _ _⟩
  · exact ⟨(exec_kept hi).1, exec_faultlog hi⟩

/-- No event changes the build or takes an entry from the fault log. -/
theorem eventStep_frame {e : Event} (h : eventStep e s = .next t) :
    t.build = s.build ∧ s.faultlog <+: t.faultlog := by
  cases e
  case engine => exact engineStep_frame h
  all_goals cases h
  case hostRead addr width =>
    rcases hostRead_cases addr width s with ⟨r, h⟩ | h <;> simp [h]
  case hostWrite addr data =>
    rcases hostWrite_cases addr data s with ⟨r, h⟩ | h | ⟨-, v, r, h⟩ <;> simp [h, writeReg_frame]
  case resetAssert => simp
  case resetDeassert => simp

/-- Settles O9: the engine's turn and every event leave the build and only append to the fault log. -/
theorem faultLogOnlyGrows : Obligations.FaultLogOnlyGrows := by
  intro s t h
  have ⟨hb, hf⟩ : t.build = s.build ∧ s.faultlog <+: t.faultlog := by
    obtain ⟨-, ⟨-, he⟩ | ⟨e, es, -, he⟩⟩ := step_cases h
    · exact engineStep_frame he
    · exact eventStep_frame (s := { s with events := es }) he
  exact ⟨hf, hb⟩

/-! ## STATUS -/

/-- The conditions of `statusInv` one by one. -/
theorem statusInv_iff (t : Status) : statusInv t = true ↔
    (t.err = true → 1 ≤ t.errCode.toNat ∧ t.errCode.toNat ≤ 4) ∧ (t.err = false → t.errCode = 0) ∧
      (t.warn = true → t.warnCode = wNearZero) ∧ (t.warn = false → t.warnCode = 0) ∧
      (t.busy = true → t.done = false ∧ t.err = false) := by
  unfold statusInv
  cases t.err <;> cases t.warn <;> cases t.busy <;> simp [and_assoc]

section
variable {t : Status}

theorem statusInv_accept (h : statusInv t = true) (he : t.err = false) : statusInv t.accept = true := by
  rw [statusInv_iff] at h ⊢
  simp_all

theorem statusInv_drop (h : statusInv t = true) : statusInv t.drop = true := h

theorem statusInv_complete (h : statusInv t = true) : statusInv t.complete = true := by
  rw [statusInv_iff] at h ⊢
  simp_all

theorem statusInv_nearZero (h : statusInv t = true) : statusInv t.nearZero = true := by
  rw [statusInv_iff] at h ⊢
  simp_all

/-- Every error's code is one of the four (60_exceptions.md R180). -/
theorem errCode_range (c : ErrCode) : 1 ≤ c.code.toNat ∧ c.code.toNat ≤ 4 := by cases c <;> decide

theorem statusInv_raise (c : ErrCode) (h : statusInv t = true) : statusInv (t.raise c) = true := by
  have hc := errCode_range c
  rw [statusInv_iff] at h ⊢
  simp_all

theorem statusInv_writeOneToClear (v : Word) (h : statusInv t = true) : statusInv (t.writeOneToClear v) = true := by
  rw [statusInv_iff] at h ⊢
  unfold Status.writeOneToClear
  cases v.getLsbD 2 <;> cases v.getLsbD 3 <;> simp_all

end

/-! ## The grid store -/

/-- `inBanks` as a condition on each written address: its bank, and its flat index, are the block's. -/
theorem inBanks_iff (b : Build) (g : Memory) :
    inBanks b g = true ↔ ∀ e ∈ g, e.1 / bankStride < b.nbanks ∧ e.1 % bankStride < b.cells := by
  simp [inBanks]

/-- A run of writes inside a bank stays inside the banks. -/
theorem inBanks_gridWriteFrom {b : Build} {g : Memory} {d k : Nat} {vs : List Cx} (hb : b.wf = true)
    (hg : inBanks b g = true) (hd : d < b.nbanks) (hk : k + vs.length ≤ b.cells) :
    inBanks b (gridWriteFrom g (cellAddr d k) vs) = true := by
  rw [inBanks_iff] at hg ⊢
  intro e he
  rcases mem_gridWriteFrom he with ⟨hle, hlt⟩ | he
  · obtain ⟨i, hi⟩ : ∃ i, e.1 = cellAddr d i := ⟨e.1 - cellAddr d 0, by unfold cellAddr at *; omega⟩
    have hic : i < b.cells := by unfold cellAddr at *; omega
    have his : i < bankStride := hic.trans_le (cells_le hb)
    rw [hi, cellAddr_div his, cellAddr_mod his]
    exact ⟨hd, hic⟩
  · exact hg e he

theorem inBanks_gridUnwrite {b : Build} {g : Memory} (p : Nat → Bool) (hg : inBanks b g = true) :
    inBanks b (gridUnwrite g p) = true := by
  rw [inBanks_iff] at hg ⊢
  exact fun e he => hg e (List.mem_of_mem_filter he)

/-! ## The state invariant -/

/-- The reset state of a legal build has the invariant (10_state.md R55). -/
theorem inv_resetOf {b : Build} (hb : b.wf = true) : Inv (State.resetOf b) :=
  ⟨hb, rfl, rfl, by simp [State.resetOf], rfl, fun _ => rfl⟩

/-- Settles O10: the build of `State.reset` is a legal one. -/
theorem invAtReset : Obligations.InvAtReset :=
  ⟨inv_resetOf (by decide), fun _ hb => inv_resetOf hb⟩

theorem inv_status (h : Inv s) : statusInv s.status = true := by
  obtain ⟨-, -, -, -, hs, -⟩ := h
  exact hs

/-- The invariant of a state whose grid and scratch are as before, when STATUS is as the rules leave it. -/
theorem inv_of_status (h : Inv s) (hb : t.build = s.build) (hg : t.grid = s.grid) (hc : t.scratch = s.scratch)
    (hs : statusInv t.status = true) (hp : t.resetPin = true → t.status = Status.zero) : Inv t := by
  obtain ⟨hwf, hgrid, hin, hlen, -, -⟩ := h
  exact ⟨hb ▸ hwf, hg ▸ hgrid, hb ▸ hg ▸ hin, by rw [hc, hb, hlen], hs, hp⟩

theorem inv_busError (h : Inv s) : Inv (busError s) := h

theorem inv_with_resp (h : Inv s) (r : BusResp) : Inv { s with resp := r } := h

theorem inv_with_events (h : Inv s) (es : List Event) : Inv { s with events := es } := h

theorem inv_releaseReset (h : Inv s) : Inv (releaseReset s) := by
  have hs := inv_status h
  exact inv_of_status h rfl rfl rfl hs (by simp)

theorem inv_hardReset (h : Inv s) : Inv (hardReset s) := by
  obtain ⟨hwf, hgrid, hin, hlen, hs, -⟩ := inv_resetOf h.1
  exact ⟨hwf, hgrid, hin, hlen, hs, fun _ => rfl⟩

theorem inv_raiseError (h : Inv s) (hp : s.resetPin = false) (c : ErrCode) : Inv (raiseError c s) :=
  inv_of_status h rfl rfl rfl (statusInv_raise c (inv_status h)) (by simp [hp])

/-- The abort of a pending command leaves a canonical store within the banks, and one line of scratch. -/
theorem inv_abortPending (h : Inv s) : Memory.wf (abortPending s).grid = true ∧
    inBanks s.build (abortPending s).grid = true ∧ (abortPending s).scratch.length = s.build.n := by
  obtain ⟨-, hgrid, hin, hlen, -, -⟩ := h
  unfold abortPending
  split
  · split
    · exact ⟨gridUnwrite_wf _ hgrid, inBanks_gridUnwrite _ hin, by simp⟩
    · exact ⟨hgrid, hin, hlen⟩
  · exact ⟨hgrid, hin, hlen⟩

theorem inv_softReset (h : Inv s) : Inv (softReset s) := by
  obtain ⟨hgrid, hin, hlen⟩ := inv_abortPending h
  have hb := softReset_build s
  exact ⟨by rw [hb]; exact h.1, hgrid, by rw [hb]; exact hin, by rw [hb]; exact hlen, rfl, fun _ => rfl⟩

theorem inv_writeReg (h : Inv s) (hp : s.resetPin = false) (v : Word) (r : Reg) : Inv (writeReg s v r) := by
  have hs := inv_status h
  cases r
  case id | config | opa | opb | res0 | res1 | renormEps | irqEn => exact h
  case status => exact inv_of_status h rfl rfl rfl (statusInv_writeOneToClear v hs) (by simp [writeReg, hp])
  case ctrl =>
    rcases writeCtrl_cases v s with hc | hc <;> rw [writeReg, hc]
    · exact inv_softReset h
    · exact h
  case cmd =>
    rcases writeCmd_cases v s with ⟨he, hc⟩ | hc <;> rw [writeReg, hc]
    · exact inv_of_status h rfl rfl rfl (statusInv_accept hs he) (by simp [hp])
    · exact inv_of_status h rfl rfl rfl (statusInv_drop hs) (by simp [hp])

/-- A completed command keeps the invariant: it writes inside its destination bank alone, and at most warns. -/
theorem inv_exec {i : Instr} (h : Inv s) (hp : s.resetPin = false) (hi : exec i s = .next t) : Inv t := by
  rcases exec_outcome i s with ⟨c, hc⟩ | ⟨u, hu, he⟩
  · cases hi.symm.trans hc
    exact inv_raiseError h hp c
  · have hk := exec_kept hi
    cases hi.symm.trans hu
    obtain ⟨hb, -, -, -, -, -, -, -, -, hpin, -⟩ := hk
    obtain ⟨hwf, hgrid, hin, hlen, hs, -⟩ := h
    have hgrid' : Memory.wf u.grid = true ∧ inBanks s.build u.grid = true := by
      rcases he.grid with hg | ⟨d, k, vs, -, hd, hk, hg⟩ <;> rw [hg]
      · exact ⟨hgrid, hin⟩
      · exact ⟨gridWriteFrom_wf vs _ hgrid, inBanks_gridWriteFrom hwf hin hd hk⟩
    have hscratch : u.scratch.length = s.build.n := by
      rcases he.scratch with hc | hc <;> simp [hc, hlen]
    have hstatus : statusInv u.status = true := by
      rcases he.status with hu | ⟨-, hu⟩ <;> rw [hu]
      · exact hs
      · exact statusInv_nearZero hs
    refine ⟨by rw [hb]; exact hwf, hgrid'.1, by rw [hb]; exact hgrid'.2, by rw [hb]; exact hscratch,
      statusInv_complete hstatus, fun hpt => ?_⟩
    rw [hpin, hp] at hpt
    cases hpt

theorem inv_engineStep (h : Inv s) (ht : engineStep s = .next t) : Inv t := by
  rcases engineStep_cases ht with ⟨-, rfl⟩ | ⟨hp, -, ⟨e, -, rfl⟩ | ⟨i, -, hi⟩⟩
  · exact h
  · exact inv_raiseError h hp _
  · exact inv_exec h hp hi

theorem inv_eventStep {e : Event} (h : Inv s) (ht : eventStep e s = .next t) : Inv t := by
  cases e
  case engine => exact inv_engineStep h ht
  all_goals cases ht
  case hostRead addr width =>
    rcases hostRead_cases addr width s with ⟨r, hr⟩ | hr <;> rw [hr]
    · exact inv_with_resp h r
    · exact inv_busError h
  case hostWrite addr data =>
    rcases hostWrite_cases addr data s with ⟨r, hw⟩ | hw | ⟨hp, v, r, hw⟩ <;> rw [hw]
    · exact inv_with_resp h r
    · exact inv_busError h
    · exact inv_with_resp (inv_writeReg h hp v r) .done
  case resetAssert => exact inv_hardReset h
  case resetDeassert => exact inv_releaseReset h

/-- Settles O11: the engine's turn and every event keep the invariant. -/
theorem stepKeepsInv : Obligations.StepKeepsInv := by
  intro s t h ht
  obtain ⟨-, ⟨-, he⟩ | ⟨e, es, -, he⟩⟩ := step_cases ht
  · exact inv_engineStep h he
  · exact inv_eventStep (inv_with_events h es) he

end Sys2Proof.Proofs
end

section
/-! PROOFS. Every command: its flags, the banks it leaves alone, the latches as its operands, and an unwritten cell it reads
(10_state.md R43, R45, R50, R54, 60_exceptions.md R187, 70_reset_and_hazards.md R218). -/

namespace Sys2Proof.Proofs

open Sys2Proof.Machine Sys2Proof.Laws

/-! ## Flags -/

/-- Settles O41: an error's own effect, or completion after a rule that at most warns. -/
theorem flagSideEffects : Obligations.FlagSideEffects := by
  intro s i
  rcases exec_outcome i s with ⟨c, hc⟩ | ⟨u, hu, he⟩
  · exact ⟨_, hc, rfl, rfl, rfl, fun _ => ⟨rfl, rfl⟩, .inr ⟨c, rfl, rfl, rfl, rfl, rfl, rfl, rfl, rfl⟩⟩
  · refine ⟨_, hu, rfl, rfl, ?_⟩
    rcases he.status with hs | ⟨⟨d, hd⟩, hs⟩ <;> simp only [complete_status, hs]
    · exact ⟨rfl, fun _ => ⟨rfl, rfl⟩, .inl ⟨rfl, rfl⟩⟩
    · exact ⟨rfl, fun hi => absurd hd (hi d), .inl ⟨rfl, rfl⟩⟩

/-! ## Other banks -/

/-- A run of writes inside one bank leaves every address of another alone. -/
theorem gridRead_gridWriteFrom_other_bank {g : Memory} {d e k j : Nat} {vs : List Cx} (hde : d ≠ e)
    (hk : k + vs.length ≤ bankStride) (hj : j < bankStride) :
    gridRead (gridWriteFrom g (cellAddr d k) vs) (cellAddr e j) = gridRead g (cellAddr e j) := by
  apply gridRead_gridWriteFrom_outside
  unfold cellAddr bankStride at *
  omega

/-- A command leaves every bank alone that is not its destination. -/
theorem exec_other_bank {i : Instr} {s t : State} {e j : Nat} (hb : s.build.wf = true) (h : exec i s = .next t)
    (he : destOf i ≠ some e) (hj : j < bankStride) :
    gridRead t.grid (cellAddr e j) = gridRead s.grid (cellAddr e j) := by
  rcases exec_outcome i s with ⟨c, hc⟩ | ⟨u, hu, heff⟩
  · cases h.symm.trans hc
    rfl
  · cases h.symm.trans hu
    rw [complete_grid]
    rcases heff.grid with hg | ⟨d, k, vs, hd, -, hk, hg⟩ <;> rw [hg]
    exact gridRead_gridWriteFrom_other_bank (fun hde => he (hde ▸ hd)) (hk.trans (cells_le hb)) hj

/-- Settles O40: the commands it excludes are those whose destination is the bank. -/
theorem otherBanksUntouched : Obligations.OtherBanksUntouched := by
  intro s t i hb ht e j hj hcell hcopy hscale hrenorm hfwd hinv
  refine exec_other_bank hb ht (fun hd => ?_) hj
  cases i <;> cases hd
  case set x y => exact (hcell x y).1 rfl
  case zeroCell x y => exact (hcell x y).2 rfl
  case scale => exact hscale rfl
  case copy src => exact hcopy src rfl
  case renorm => exact hrenorm rfl
  case fftFwd => exact hfwd rfl
  case fftInv => exact hinv rfl

/-! ## Latches -/

section
variable (a b e : F64)

/-- The state with other values in the three operand registers. -/
def withOperands (s : State) : State := { s with opa := a, opb := b, renormEps := e }

theorem noteRead_withOperands (w : Bool) {s t : State} (h : t = withOperands a b e s) :
    noteRead w t = withOperands a b e (noteRead w s) := by
  subst h
  cases w <;> rfl

theorem readCellInto_withOperands (f : Cx → State → State) (n : Nat) (s : State)
    (hf : ∀ v, f v (withOperands a b e s) = withOperands a b e (f v s)) :
    readCellInto n f (withOperands a b e s) = withOperands a b e (readCellInto n f s) :=
  noteRead_withOperands a b e _ (hf _)

theorem rewriteBank_withOperands (d src : Nat) (f : List Cx → List Cx) (s : State) :
    rewriteBank d src f (withOperands a b e s) = withOperands a b e (rewriteBank d src f s) := by
  have hw : bankWritten (withOperands a b e s) src = bankWritten s src := rfl
  unfold rewriteBank
  rw [hw]
  split <;> rfl

theorem renormBank_withOperands (d : Nat) (s : State) :
    renormBank d (withOperands a b e s) = withOperands a b e (renormBank d s) := by
  have hs : bankBits (withOperands a b e s) d = bankBits s d := rfl
  have he : (withOperands a b e s).latEps = s.latEps := rfl
  unfold renormBank
  simp only [hs, he]
  split
  · exact noteRead_withOperands a b e _ rfl
  · exact rewriteBank_withOperands a b e d d _ (setRes0 _ s)

/-- A rule neither reads the operand registers nor changes them. -/
theorem ruleOf_withOperands (i : Instr) (s : State) :
    ruleOf i (withOperands a b e s) = withOperands a b e (ruleOf i s) := by
  cases i
  case get => exact readCellInto_withOperands a b e setRes _ s fun _ => rfl
  case mag2 => exact readCellInto_withOperands a b e (fun v => setRes0 (mag2 v)) _ s fun _ => rfl
  case mag => exact readCellInto_withOperands a b e (fun v => setRes0 (fsqrt (mag2 v))) _ s fun _ => rfl
  case phase => exact readCellInto_withOperands a b e (fun v => setRes0 (atan2 v.im v.re)) _ s fun _ => rfl
  case set | zeroCell => rfl
  case scale | copy => exact rewriteBank_withOperands a b e _ _ _ _
  case sumsq => exact noteRead_withOperands a b e _ rfl
  case renorm => exact renormBank_withOperands a b e _ _
  case fftFwd | fftInv => exact congrArg spoilScratch (rewriteBank_withOperands a b e _ _ _ s)

end

/-- Settles O26: the checks read the build alone, and a rule as `ruleOf_withOperands` says. -/
theorem operandsComeFromLatches : Obligations.OperandsComeFromLatches := by
  intro i s a b e
  change exec i (withOperands a b e s) = _
  have hc : checkOf (withOperands a b e s).build i = checkOf s.build i := rfl
  rw [exec_eq_perform, exec_eq_perform, hc]
  cases checkOf s.build i with
  | some c => rfl
  | none =>
    rw [perform_none, ruleOf_withOperands]
    rfl

/-! ## Unwritten cells -/

/-- Reading an unwritten cell of a bank the block has: free bits, an entry of the fault log, and completion
(10_state.md R45). -/
theorem perform_readCellInto_unwritten {s : State} {d x y : Nat} (f : Cx → State → State) (hd : d < s.build.nbanks)
    (hx : x < s.build.n) (hy : y < s.build.n) (h : gridRead s.grid (cellOperand s.build d x y) = none) :
    perform (cellError s.build d x y) (readCellInto (cellOperand s.build d x y) f) s =
      .next (complete (uninitRead (f (freeCell s.freeCtr (cellOperand s.build d x y)) s))) := by
  rw [cellError_eq_none.2 ⟨hd, hx, hy⟩, perform_none, readCellInto_unwritten h]

/-- Settles O31: each of the four reads its cell, and sets only result registers from it. -/
theorem unwrittenCellIsLogged : Obligations.UnwrittenCellIsLogged := by
  intro s d x y hd hx hy h i hi
  have hrun := fun f => perform_readCellInto_unwritten f hd hx hy h
  simp only [List.mem_cons, List.not_mem_nil, or_false] at hi
  rcases hi with rfl | rfl | rfl | rfl
  · exact ⟨_, hrun _, rfl, fun hne => absurd rfl hne⟩
  · exact ⟨_, hrun _, rfl, fun _ => rfl⟩
  · exact ⟨_, hrun _, rfl, fun _ => rfl⟩
  · exact ⟨_, hrun _, rfl, fun _ => rfl⟩

end Sys2Proof.Proofs
end

section
/-! PROOFS. Which turn a step gives: the engine's turn on a pending command, on an idle engine and under reset, and the
builds that have no step (10_state.md R30, 30_encoding.md R97, 60_exceptions.md R197). -/

namespace Sys2Proof.Proofs

open Sys2Proof.Machine Sys2Proof.Laws

/-! ## The turn -/

/-- The step of a schedule that names an event. -/
theorem step_event {s : State} (e : Event) (es : List Event) (hb : s.build.wf = true) :
    step { s with events := e :: es } = eventStep e { s with events := es } := by
  simp [step, nextTurn, hb]

/-- The step of an empty schedule (log entry 7). -/
theorem step_no_event {s : State} (hb : s.build.wf = true) :
    step { s with events := [] } = engineStep { s with events := [] } := by
  simp [step, nextTurn, hb]

/-- An engine with nothing pending, or held in reset, changes nothing (60_exceptions.md R197). -/
theorem engineStep_not_enabled {s : State} (h : s.status.busy = false ∨ s.resetPin = true) : engineStep s = .next s := by
  rcases h with h | h <;> simp [engineStep, h]

/-- The engine's turn always answers a next state. -/
theorem engineStep_answers (s : State) : ∃ t, engineStep s = .next t := by
  unfold engineStep
  split
  · exact ⟨_, rfl⟩
  · split
    · exact exec_answers _ s
    · exact ⟨_, rfl⟩

theorem eventStep_answers (e : Event) (s : State) : ∃ t, eventStep e s = .next t := by
  cases e
  case engine => exact engineStep_answers s
  case hostRead | hostWrite | resetAssert | resetDeassert => exact ⟨_, rfl⟩

/-- A legal build has a step (00_scope.md R6, R7). -/
theorem step_answers {s : State} (hb : s.build.wf = true) : ∃ t, step s = .next t := by
  unfold step nextTurn
  rw [if_pos hb]
  split
  · exact engineStep_answers s
  · exact eventStep_answers _ _

theorem step_illFormed {s : State} (hb : s.build.wf = false) : step s = .refused .illFormedConfig := by
  simp [step, nextTurn, hb]

/-! ## The engine's turn -/

/-- Settles O5: either schedule gives the engine the turn. -/
theorem stepPerformsDecodedCommand : Obligations.StepPerformsDecodedCommand := by
  intro s es i hb hp hbusy hd
  exact ⟨(step_event .engine es hb).trans (engineStep_decoded hp hbusy hd),
    (step_no_event hb).trans (engineStep_decoded hp hbusy hd)⟩

/-- Settles O6: a placed word is pending, out of reset, with the engine's turn next. -/
theorem placedWordRunsNext : Obligations.PlacedWordRunsNext := by
  intro s nbits w i hb hd
  exact (step_event (s := s.withFetchWord nbits w) .engine s.events hb).trans (engineStep_decoded rfl rfl hd)

/-- Settles O7: an engine that is not enabled changes nothing, and every legal build has a step. -/
theorem stepWhenNotEnabled : Obligations.StepWhenNotEnabled := by
  refine ⟨fun s es hb h => ⟨?_, ?_⟩, fun s => ⟨step_illFormed, fun h => ?_⟩⟩
  · exact (step_event .engine es hb).trans (engineStep_not_enabled h)
  · exact (step_no_event hb).trans (engineStep_not_enabled h)
  · by_contra hb
    obtain ⟨t, ht⟩ := step_answers (Bool.not_eq_false _ ▸ hb)
    cases ht.symm.trans h

end Sys2Proof.Proofs
end

section
/-! PROOFS. The registers as the host reads and writes them: the bits of STATUS, CONFIG and IRQ_EN, the interrupt output,
the writes of STATUS, CMD, the operand registers and IRQ_EN, and the values after reset (10_state.md R34-R40, R46-R49,
R55). -/

namespace Sys2Proof.Proofs

open Sys2Proof.Machine Sys2Proof.Laws Sys2Proof.Safety

/-! ## Reading -/

/-- A bit of a word, from the word as a number. -/
theorem getLsbD_eq_of_toNat {w : Word} {i : Nat} {b : Bool} (h : w.toNat / 2 ^ i % 2 = b.toNat) : w.getLsbD i = b := by
  rw [← BitVec.testBit_toNat, Nat.testBit_eq_decide_div_mod_eq, h]
  cases b <;> rfl

/-- A field of a word, as a number. -/
theorem toNat_extractLsb' (w : Word) (i n : Nat) : (w.extractLsb' i n).toNat = w.toNat / 2 ^ i % 2 ^ n := by
  rw [BitVec.extractLsb'_toNat, Nat.shiftRight_eq_div_pow]

/-- A field of a word, from the word as a number. -/
theorem extractLsb'_eq_of_toNat {w : Word} {i n : Nat} {v : BitVec n} (h : w.toNat / 2 ^ i % 2 ^ n = v.toNat) :
    w.extractLsb' i n = v :=
  BitVec.eq_of_toNat_eq ((toNat_extractLsb' w i n).trans h)

theorem extractLsb'_eq_zero {w : Word} {i n : Nat} (h : w.toNat / 2 ^ i % 2 ^ n = 0) : w.extractLsb' i n = 0 :=
  extractLsb'_eq_of_toNat (by simpa using h)

/-- Every field of STATUS fits its place. -/
theorem status_bounds (t : Status) : t.busy.toNat ≤ 1 ∧ t.done.toNat ≤ 1 ∧ t.err.toNat ≤ 1 ∧ t.warn.toNat ≤ 1 ∧
    t.ovr.toNat ≤ 1 ∧ t.errCode.toNat < 2 ^ 8 ∧ t.warnCode.toNat < 2 ^ 8 :=
  ⟨t.busy.toNat_le, t.done.toNat_le, t.err.toNat_le, t.warn.toNat_le, t.ovr.toNat_le, t.errCode.isLt, t.warnCode.isLt⟩

/-- STATUS as a number: the sum of its fields at their places (10_state.md R38). -/
theorem toNat_toWord (t : Status) : t.toWord.toNat =
    t.busy.toNat + t.done.toNat * 2 ^ 1 + t.err.toNat * 2 ^ 2 + t.warn.toNat * 2 ^ 3 + t.ovr.toNat * 2 ^ 4 +
      t.errCode.toNat * 2 ^ 8 + t.warnCode.toNat * 2 ^ 16 := by
  have := status_bounds t
  rw [Status.toWord, BitVec.toNat_ofNat, Nat.mod_eq_of_lt (by omega)]

/-- Settles O16: each field is read back from the sum that STATUS is. -/
theorem statusWordBits : Obligations.StatusWordBits := by
  intro s w
  have hw : w.toNat = _ := toNat_toWord s.status
  have := status_bounds s.status
  refine ⟨getLsbD_eq_of_toNat ?_, getLsbD_eq_of_toNat ?_, getLsbD_eq_of_toNat ?_, getLsbD_eq_of_toNat ?_,
    getLsbD_eq_of_toNat ?_, extractLsb'_eq_zero ?_, extractLsb'_eq_of_toNat ?_, extractLsb'_eq_of_toNat ?_,
    extractLsb'_eq_zero ?_⟩ <;> rw [hw] <;> omega

/-- Settles O21: the flags are STATUS's bits, and IRQ_EN's bits are its own. -/
theorem irqFromStatusAndEnables : Obligations.IrqFromStatusAndEnables := by
  intro s
  obtain ⟨-, hdone, herr, hwarn, hovr, -⟩ := statusWordBits s
  have hen : ∀ i < 64, (regValue s .irqEn).getLsbD i = s.irqEn.getLsbD i := fun i hi => by
    simp [regValue, hi]
  rw [hdone, herr, hwarn, hovr, hen 0 (by decide), hen 1 (by decide), hen 2 (by decide), hen 3 (by decide), irq]

/-- What a legal build is (00_scope.md R6, R7, 20_memory.md R77). -/
theorem build_wf_iff (b : Build) :
    b.wf = true ↔ b.log2n ≤ 15 ∧ 2 ≤ b.nbanks ∧ b.nbanks ≤ 16 ∧ b.base.toNat % 256 = 0 := by
  simp [Build.wf, and_assoc]

/-- CONFIG of a legal build as a number (10_state.md R37). -/
theorem toNat_configWord {b : Build} (h : b.wf = true) : (configWord b).toNat = b.log2n + b.nbanks * 2 ^ 8 := by
  obtain ⟨hl, -, hn, -⟩ := (build_wf_iff b).1 h
  rw [configWord, BitVec.toNat_ofNat]
  omega

/-- Settles O22: CONFIG's two fields are read back from their sum. -/
theorem hardwiredRegisters : Obligations.HardwiredRegisters := by
  intro s hb
  obtain ⟨hl, -, hn, -⟩ := (build_wf_iff s.build).1 hb
  have hc : (regValue s .config).toNat = _ := toNat_configWord hb
  have hlog : ((regValue s .config).extractLsb' 0 4).toNat = s.build.log2n := by
    rw [toNat_extractLsb', hc]; omega
  have hbanks : ((regValue s .config).extractLsb' 8 5).toNat = s.build.nbanks := by
    rw [toNat_extractLsb', hc]; omega
  refine ⟨rfl, hlog, extractLsb'_eq_zero ?_, hbanks, extractLsb'_eq_zero ?_, ?_⟩
  · rw [hc]; omega
  · rw [hc]; omega
  · rw [hlog, Nat.one_shiftLeft, Build.n]

/-! ## Writing -/

/-- The step of a host write to a register, out of reset (30_encoding.md R102). -/
theorem step_wr {s : State} (r : Reg) (v : Word) (es : List Event) (hb : s.build.wf = true) (hp : s.resetPin = false) :
    step { s with events := Event.wr s.build r v :: es } =
      .next { writeReg { s with events := es } v r with resp := .done } := by
  rw [step_event _ es hb]
  exact congrArg _ (hostWrite_reg (s := { s with events := es }) s.build rfl r v hp)

/-- Settles O17: `writeOneToClear` clears what the written word names. -/
theorem statusWriteClearsOnes : Obligations.StatusWriteClearsOnes := by
  intro s v es hb hp
  have hclear : ∀ f m : Bool, (f && !m) = if m then false else f := by decide
  rw [step_wr _ v es hb hp, writeReg, writeStatus, Status.writeOneToClear, hclear, hclear, hclear, hclear]

/-- Settles O18, by the two outcomes of a CMD write. -/
theorem cmdWriteAcceptedOrDropped : Obligations.CmdWriteAcceptedOrDropped := by
  intro s w es hb hp
  refine ⟨fun hbusy herr => ⟨_, step_wr _ w es hb hp, ?_⟩, fun h => ?_⟩
  · rw [writeReg, writeCmd_accepted (s := { s with events := es }) w hbusy herr]
    exact ⟨rfl, rfl⟩
  · rw [step_wr _ w es hb hp, writeReg, writeCmd_dropped (s := { s with events := es }) w h]
    rfl

/-- Settles O19: each write is of its register alone. -/
theorem operandRegistersReadBack : Obligations.OperandRegistersReadBack :=
  fun _ v es hb hp => ⟨step_wr .opa v es hb hp, step_wr .opb v es hb hp, step_wr .renormEps v es hb hp, rfl, rfl, rfl⟩

/-- The low four bits of a word, zero-extended. -/
theorem setWidth_four (v : Word) : (v.setWidth 4).setWidth 64 = v &&& 0xF := by
  apply BitVec.eq_of_toNat_eq
  have hand : (v &&& 0xF).toNat = v.toNat % 16 := Nat.and_two_pow_sub_one_eq_mod _ 4
  rw [BitVec.toNat_setWidth, BitVec.toNat_setWidth, hand]
  omega

/-- Settles O20: the register keeps four bits, and its reset value is 0. -/
theorem irqEnKeepsFourBits : Obligations.IrqEnKeepsFourBits :=
  ⟨fun _ v es hb hp => ⟨_, step_wr .irqEn v es hb hp, rfl, setWidth_four v⟩, fun _ => rfl⟩

/-! ## Reset -/

/-- The registers after reset, in the order of the map (10_state.md R55). -/
theorem registers_resetOf (b : Build) : registers (State.resetOf b) =
    [0x0000000132544646, configWord b, 0, 0, 0, 0, 0, 0, 0, 0x3DDB7CDFD9D7BDBB, 0] := by
  simp [registers, regValue, State.resetOf, Config.idValue, Config.epsReset, Status.toWord]

/-- Settles O12: the reset state holds the values of the table, and both resets keep the fault log. -/
theorem resetValues : Obligations.ResetValues :=
  fun b => ⟨registers_resetOf b, rfl, rfl, fun _ => rfl, rfl, fun s => ⟨hardReset_faultlog s, softReset_faultlog s⟩⟩

end Sys2Proof.Proofs
end

section
/-! PROOFS. The bus as the host sees it: what an access of each kind does, the byte order of a word, the register map and its
addresses, and what reserved offsets, reserved fields and read-only registers do (20_memory.md R72-R77, 10_state.md R33). -/

namespace Sys2Proof.Proofs

open Sys2Proof.Machine Sys2Proof.Laws

variable {s : State} {addr : BitVec 64} {off : Nat}

/-! ## One access -/

/-- The only legal access (20_memory.md R72). -/
theorem legalAccess_iff (off width : Nat) : legalAccess off width = true ↔ width = 8 ∧ off % 8 = 0 := by
  simp [legalAccess]

theorem hostRead_legal (hp : s.resetPin = false) (ho : offsetOf s.build addr = some off) (ha : off % 8 = 0) :
    hostRead addr 8 s = { s with resp := .data (bytesOfNat 8 (readOffset s off).toNat) } := by
  simp [hostRead, ho, hp, (legalAccess_iff off 8).2 ⟨rfl, ha⟩]

theorem hostRead_illegal {width : Nat} (hp : s.resetPin = false) (ho : offsetOf s.build addr = some off)
    (ha : ¬ (width = 8 ∧ off % 8 = 0)) : hostRead addr width s = busError s := by
  simp [hostRead, ho, hp, mt (legalAccess_iff off width).1 ha]

/-- A read at an address that is not the block's (log entry 8). -/
theorem hostRead_outside (width : Nat) (ho : offsetOf s.build addr = none) :
    hostRead addr width s = { s with resp := .notSelected } := by
  simp [hostRead, ho]

theorem hostWrite_legal {data : List Byte} (hp : s.resetPin = false) (ho : offsetOf s.build addr = some off)
    (ha : data.length = 8 ∧ off % 8 = 0) :
    hostWrite addr data s = { writeOffset s off (BitVec.ofNat 64 (natOfBytes data)) with resp := .done } := by
  simp [hostWrite, ho, hp, (legalAccess_iff off data.length).2 ha]

theorem hostWrite_illegal {data : List Byte} (hp : s.resetPin = false) (ho : offsetOf s.build addr = some off)
    (ha : ¬ (data.length = 8 ∧ off % 8 = 0)) : hostWrite addr data s = busError s := by
  simp [hostWrite, ho, hp, mt (legalAccess_iff off data.length).1 ha]

/-- A write at an address that is not the block's (log entry 8). -/
theorem hostWrite_outside (data : List Byte) (ho : offsetOf s.build addr = none) :
    hostWrite addr data s = { s with resp := .notSelected } := by
  simp [hostWrite, ho]

/-- A host read that is next in the schedule of a legal build. -/
theorem step_hostRead {width : Nat} {es : List Event} {t : State} (hb : s.build.wf = true)
    (h : hostRead addr width { s with events := es } = t) :
    step { s with events := .hostRead addr width :: es } = .next t :=
  (step_event _ es hb).trans (congrArg _ h)

/-- A host write that is next in the schedule of a legal build. -/
theorem step_hostWrite {data : List Byte} {es : List Event} {t : State} (hb : s.build.wf = true)
    (h : hostWrite addr data { s with events := es } = t) :
    step { s with events := .hostWrite addr data :: es } = .next t :=
  (step_event _ es hb).trans (congrArg _ h)

/-- Settles O24: out of reset, either kind of illegal access is a bus error. -/
theorem illegalAccessIsBusError : Obligations.IllegalAccessIsBusError :=
  fun _ _ _ _ hb hp ho =>
    ⟨fun _ ha => step_hostRead hb (hostRead_illegal hp ho ha), fun _ ha => step_hostWrite hb (hostWrite_illegal hp ho ha)⟩

/-! ## Byte order -/

/-- Byte `i` of a number (20_memory.md R73). -/
theorem bytesOfNat_getElem? {k i : Nat} (v : Nat) (hi : i < k) :
    (bytesOfNat k v)[i]? = some (BitVec.ofNat 8 (v / 2 ^ (8 * i))) := by
  induction k generalizing v i with
  | zero => omega
  | succ k ih =>
    cases i with
    | zero => simp [bytesOfNat]
    | succ i => rw [bytesOfNat, List.getElem?_cons_succ, ih _ (by omega), Nat.div_div_eq_div_mul, ← pow_add, Nat.mul_succ,
        Nat.add_comm]

/-- The number of a byte string gives its bytes back (20_memory.md R73). -/
theorem bytesOfNat_natOfBytes (bs : List Byte) : bytesOfNat bs.length (natOfBytes bs) = bs := by
  induction bs with
  | nil => rfl
  | cons b bs ih =>
    have hlow : BitVec.ofNat 8 (b.toNat + 2 ^ 8 * natOfBytes bs) = b := by
      apply BitVec.eq_of_toNat_eq
      rw [BitVec.toNat_ofNat]
      omega
    have hrest : (b.toNat + 2 ^ 8 * natOfBytes bs) / 2 ^ 8 = natOfBytes bs := by omega
    rw [List.length_cons, bytesOfNat, natOfBytes, hlow, hrest, ih]

/-- Byte `k` of a word is its bits `[8k+7:8k]` (20_memory.md R73). -/
theorem bytes_of_word (v : Word) {k : Nat} (hk : k < 8) :
    (bytesOfNat 8 v.toNat)[k]? = some (v.extractLsb' (8 * k) 8) := by
  rw [bytesOfNat_getElem? _ hk, extractLsb'_eq_of_toNat (v := BitVec.ofNat 8 _) (BitVec.toNat_ofNat ..).symm]

/-- Eight bytes are the bytes of the word that a write of them stores (20_memory.md R73). -/
theorem bytes_of_written_word {data : List Byte} (hd : data.length = 8) :
    bytesOfNat 8 (BitVec.ofNat 64 (natOfBytes data)).toNat = data := by
  have hdata := bytesOfNat_natOfBytes data
  rw [hd] at hdata
  have hmod : natOfBytes data = natOfBytes data % 2 ^ 64 := by
    conv_lhs => rw [← hdata, natOfBytes_bytesOfNat]
  rw [BitVec.toNat_ofNat, ← hmod, hdata]

/-! ## Addresses and offsets -/

/-- The register space is the 256 addresses from BASE on (20_memory.md R77). -/
theorem offsetOf_eq_some_iff {b : Build} (hb : b.wf = true) (addr : BitVec 64) (off : Nat) :
    offsetOf b addr = some off ↔ off < 256 ∧ addr.toNat = b.base.toNat + off := by
  obtain ⟨-, -, -, hbase⟩ := (build_wf_iff b).1 hb
  have := addr.isLt
  have := b.base.isLt
  rw [offsetOf, Option.ite_none_right_eq_some, Option.some.injEq, BitVec.toNat_sub]
  omega

theorem offsetOf_eq_none {b : Build} (hb : b.wf = true)
    (h : addr.toNat < b.base.toNat ∨ b.base.toNat + 256 ≤ addr.toNat) : offsetOf b addr = none := by
  cases ho : offsetOf b addr with
  | none => rfl
  | some off =>
    have := (offsetOf_eq_some_iff hb addr off).1 ho
    omega

/-- No register lies at a reserved offset (10_state.md R33). -/
theorem regAt_reserved (h : 0x58 ≤ off) : regAt off = none := by
  unfold regAt
  split
  case h_12 => rfl
  all_goals omega

/-- The offset of a register reads and writes that register. -/
theorem readOffset_reg (s : State) (r : Reg) : readOffset s r.offset = regValue s r := by
  rw [readOffset, regAt_offset]

theorem writeOffset_reg (s : State) (v : Word) (r : Reg) : writeOffset s r.offset v = writeReg s v r := by
  rw [writeOffset, regAt_offset]

theorem readOffset_reserved (s : State) (h : 0x58 ≤ off) : readOffset s off = 0 := by
  rw [readOffset, regAt_reserved h]

theorem writeOffset_reserved (s : State) (v : Word) (h : 0x58 ≤ off) : writeOffset s off v = s := by
  rw [writeOffset, regAt_reserved h]

/-- No register shows the schedule. -/
theorem readOffset_with_events (s : State) (es : List Event) (off : Nat) :
    readOffset { s with events := es } off = readOffset s off := by
  unfold readOffset
  cases regAt off with
  | none => rfl
  | some r => cases r <;> rfl

/-- Settles O25: the bytes of a word determine it, and the map's offsets are those of `Reg.offset`. -/
theorem busIsLittleEndian : Obligations.BusIsLittleEndian := by
  refine ⟨fun s addr off es hb hp ho ha => ⟨?_, fun data hd => ?_⟩, fun s v p hmap => ?_,
    fun _ => ⟨rfl, rfl, rfl, rfl, rfl, rfl, rfl⟩, fun b addr off hb => offsetOf_eq_some_iff hb addr off,
    fun s addr es hb hout => ?_⟩
  · refine ⟨bytesOfNat 8 (readOffset s off).toNat, ?_, bytesOfNat_length 8 _, fun k hk => bytes_of_word _ hk⟩
    rw [← readOffset_with_events s es]
    exact step_hostRead hb (hostRead_legal hp ho ha)
  · refine ⟨BitVec.ofNat 64 (natOfBytes data), fun k hk => ?_, ?_⟩
    · rw [← bytes_of_word _ hk, bytes_of_written_word hd]
    · exact step_hostWrite hb (hostWrite_legal hp ho ⟨hd, ha⟩)
  · have hoff : p.2.offset = p.1 := by
      revert p
      decide
    rw [← hoff]
    exact ⟨readOffset_reg s p.2, writeOffset_reg s v p.2, rfl⟩
  · have ho := offsetOf_eq_none hb hout
    exact ⟨fun width => step_hostRead hb (hostRead_outside width ho), fun data => step_hostWrite hb (hostWrite_outside data ho)⟩

/-! ## Reserved fields -/

/-- A mask keeps the bits it names. -/
theorem getLsbD_and_mask (v : Word) {m : Word} {i : Nat} (h : m.getLsbD i = true) : (v &&& m).getLsbD i = v.getLsbD i := by
  rw [BitVec.getLsbD_and, h, Bool.and_true]

/-- A STATUS write acts by its bits 1 to 4 alone (10_state.md R39). -/
theorem writeOneToClear_mask (v : Word) (t : Status) : t.writeOneToClear (v &&& 0x1E) = t.writeOneToClear v := by
  simp only [Status.writeOneToClear, getLsbD_and_mask v (m := 0x1E) (i := 1) rfl, getLsbD_and_mask v (m := 0x1E) (i := 2) rfl,
    getLsbD_and_mask v (m := 0x1E) (i := 3) rfl, getLsbD_and_mask v (m := 0x1E) (i := 4) rfl]

/-- A CTRL write acts by its bit 0 alone (10_state.md R48). -/
theorem writeCtrl_mask (v : Word) (s : State) : writeCtrl (v &&& 0x1) s = writeCtrl v s := by
  rw [writeCtrl, writeCtrl, getLsbD_and_mask v rfl]

/-- IRQ_EN keeps bits 0 to 3 alone (10_state.md R47). -/
theorem setWidth_four_mask (v : Word) : (v &&& 0xF).setWidth 4 = v.setWidth 4 := by
  rw [← setWidth_four]
  simp

/-- The reserved fields of CONFIG are 0, whatever the build (10_state.md R37). -/
theorem configWord_reserved (b : Build) :
    (configWord b).extractLsb' 4 4 = 0 ∧ (configWord b).extractLsb' 13 51 = 0 := by
  have hc : (configWord b).toNat = b.log2n % 2 ^ 4 + b.nbanks % 2 ^ 5 * 2 ^ 8 := by
    rw [configWord, BitVec.toNat_ofNat]
    omega
  constructor <;> apply extractLsb'_eq_zero <;> rw [hc] <;> omega

/-- The reserved bits of IRQ_EN are 0 (10_state.md R47). -/
theorem irqEn_reserved (e : BitVec 4) : (e.setWidth 64).extractLsb' 4 60 = 0 := by
  apply extractLsb'_eq_zero
  rw [BitVec.toNat_setWidth]
  omega

/-- Settles O23: no register lies at a reserved offset, and a write of a register acts by its defined bits. -/
theorem reservedReadZeroIgnoreWrites : Obligations.ReservedReadZeroIgnoreWrites := by
  intro s v
  obtain ⟨-, -, -, -, -, hlow, -, -, hhigh⟩ := statusWordBits s
  obtain ⟨hlog, hbanks⟩ := configWord_reserved s.build
  refine ⟨fun off _ _ hoff => ⟨readOffset_reserved s hoff, writeOffset_reserved s v hoff⟩, rfl, ?_, hlow, hhigh, hlog, hbanks,
    irqEn_reserved s.irqEn, ?_, ?_, ?_, fun h0 => ?_⟩
  · simp [writeOffset, regAt, writeReg]
  · exact congrArg (fun t => { s with status := t }) (writeOneToClear_mask v s.status).symm
  · exact congrArg (fun e => { s with irqEn := e }) (setWidth_four_mask v).symm
  · exact (writeCtrl_mask v s).symm
  · exact if_neg (Bool.not_eq_true _ ▸ h0)

end Sys2Proof.Proofs
end

section
/-! PROOFS. The decoder and the encoder of command words: what packing and taking apart a word are to each other, format by
format, and from there command by command (30_encoding.md R91-R99). -/

namespace Sys2Proof.Proofs

open Sys2Proof.Laws

variable {w : Word} {i : Instr} {op d s x y : Nat}

/-! ## Words and their fields -/

/-- A word is packed from its own fields unless a bit of `rsv` is set (30_encoding.md R91, R92). -/
theorem packWord_of_fields (h : fieldRsv w = 0) :
    packWord (fieldOp w) (fieldD w) (fieldS w) (fieldX w) (fieldY w) = w := by
  have hlt := w.isLt
  apply BitVec.eq_of_toNat_eq
  rw [packWord, BitVec.toNat_ofNat]
  unfold fieldRsv at h
  unfold fieldOp fieldD fieldS fieldX fieldY
  omega

/-- An opcode that fits is read back, whatever the other fields are. -/
theorem fieldOp_packWord (hop : op < 256) : fieldOp (packWord op d s x y) = op := by
  rw [fieldOp, packWord, BitVec.toNat_ofNat]
  omega

/-- The word of a command carries the opcode of its row (30_encoding.md R98). -/
theorem fieldOp_encode (i : Instr) : fieldOp (encode i) = opcodeOf i := by
  cases i <;> exact fieldOp_packWord (by decide)

theorem wfCell_iff : wfCell d x y = true ↔ d < 16 ∧ x < 65536 ∧ y < 65536 := by
  simp [wfCell, and_assoc]

theorem wfGrid_iff : wfGrid d = true ↔ d < 16 := by
  simp [wfGrid]

theorem wfCopy_iff : wfCopy d s = true ↔ d < 16 ∧ s < 16 := by
  simp [wfCopy]

theorem fieldD_lt (w : Word) : fieldD w < 16 := Nat.mod_lt _ (by decide)

theorem fieldS_lt (w : Word) : fieldS w < 16 := Nat.mod_lt _ (by decide)

theorem fieldX_lt (w : Word) : fieldX w < 65536 := Nat.mod_lt _ (by decide)

theorem fieldY_lt (w : Word) : fieldY w < 65536 := Nat.mod_lt _ (by decide)

/-! ## Formats: a packed word decodes -/

/-- Format C (30_encoding.md R93). -/
theorem decodeC_packWord (make : Nat → Nat → Nat → Instr) (hop : op < 256) (h : wfCell d x y = true) :
    decodeC make (packWord op d 0 x y) = .ok (make d x y) := by
  obtain ⟨hd, hx, hy⟩ := wfCell_iff.1 h
  obtain ⟨-, hD, hS, hX, hY, hR⟩ := packWord_fields (s := 0) hop hd (by decide) hx hy
  rw [decodeC, if_pos ⟨hS, hR⟩, hD, hX, hY]

/-- Format G (30_encoding.md R94). -/
theorem decodeG_packWord (make : Nat → Instr) (hop : op < 256) (h : wfGrid d = true) :
    decodeG make (packWord op d 0 0 0) = .ok (make d) := by
  obtain ⟨-, hD, hS, hX, hY, hR⟩ :=
    packWord_fields (s := 0) (x := 0) (y := 0) hop (wfGrid_iff.1 h) (by decide) (by decide) (by decide)
  rw [decodeG, if_pos ⟨hS, hX, hY, hR⟩, hD]

/-- Format K (30_encoding.md R95). -/
theorem decodeK_packWord (make : Nat → Nat → Instr) (hop : op < 256) (h : wfCopy d s = true) :
    decodeK make (packWord op d s 0 0) = .ok (make d s) := by
  obtain ⟨hd, hs⟩ := wfCopy_iff.1 h
  obtain ⟨-, hD, hS, hX, hY, hR⟩ := packWord_fields (x := 0) (y := 0) hop hd hs (by decide) (by decide)
  rw [decodeK, if_pos ⟨hX, hY, hR⟩, hD, hS]

/-! ## Formats: a word that decodes is packed -/

/-- A guarded answer is given under its guard alone. -/
theorem guard_of_ok {c : Prop} [Decidable c] {e : DecodeError} {j : Instr}
    (h : (if c then .ok j else .error e) = Except.ok i) : c ∧ j = i := by
  split at h
  case isTrue hc => exact ⟨hc, Except.ok.inj h⟩
  case isFalse => cases h

/-- Format C (30_encoding.md R93). -/
theorem decodeC_ok {make : Nat → Nat → Nat → Instr} (h : decodeC make w = .ok i) :
    ∃ d x y, wfCell d x y = true ∧ make d x y = i ∧ packWord (fieldOp w) d 0 x y = w := by
  obtain ⟨⟨hS, hR⟩, hi⟩ := guard_of_ok h
  have hw := packWord_of_fields hR
  rw [hS] at hw
  exact ⟨_, _, _, wfCell_iff.2 ⟨fieldD_lt w, fieldX_lt w, fieldY_lt w⟩, hi, hw⟩

/-- Format G (30_encoding.md R94). -/
theorem decodeG_ok {make : Nat → Instr} (h : decodeG make w = .ok i) :
    ∃ d, wfGrid d = true ∧ make d = i ∧ packWord (fieldOp w) d 0 0 0 = w := by
  obtain ⟨⟨hS, hX, hY, hR⟩, hi⟩ := guard_of_ok h
  have hw := packWord_of_fields hR
  rw [hS, hX, hY] at hw
  exact ⟨_, wfGrid_iff.2 (fieldD_lt w), hi, hw⟩

/-- Format K (30_encoding.md R95). -/
theorem decodeK_ok {make : Nat → Nat → Instr} (h : decodeK make w = .ok i) :
    ∃ d s, wfCopy d s = true ∧ make d s = i ∧ packWord (fieldOp w) d s 0 0 = w := by
  obtain ⟨⟨hX, hY, hR⟩, hi⟩ := guard_of_ok h
  have hw := packWord_of_fields hR
  rw [hX, hY] at hw
  exact ⟨_, _, wfCopy_iff.2 ⟨fieldD_lt w, fieldS_lt w⟩, hi, hw⟩

/-! ## Commands -/

/-- Settles O1: the opcode read back selects the command's own format, whose fields are read back. -/
theorem decodeInvertsEncode : Obligations.DecodeInvertsEncode := by
  intro i h
  cases i <;> simp only [decode, fieldOp_encode, opcodeOf]
  case get | set | mag2 | mag | phase | zeroCell => exact decodeC_packWord _ (by decide) h
  case scale | sumsq | renorm | fftFwd | fftInv => exact decodeG_packWord _ (by decide) h
  case copy => exact decodeK_packWord _ (by decide) h

/-- Settles O2: each opcode of the map has its format, and an accepted word of the format is packed from its fields. -/
theorem encodeInvertsDecode : Obligations.EncodeInvertsDecode := by
  intro w i h
  unfold decode at h
  split at h
  case h_1 hop | h_2 hop | h_3 hop | h_4 hop | h_5 hop | h_6 hop =>
    obtain ⟨d, x, y, hwf, rfl, hw⟩ := decodeC_ok h
    rw [hop] at hw
    exact ⟨hwf, hw⟩
  case h_7 hop | h_9 hop | h_10 hop | h_11 hop | h_12 hop =>
    obtain ⟨d, hwf, rfl, hw⟩ := decodeG_ok h
    rw [hop] at hw
    exact ⟨hwf, hw⟩
  case h_8 hop =>
    obtain ⟨d, s, hwf, rfl, hw⟩ := decodeK_ok h
    rw [hop] at hw
    exact ⟨hwf, hw⟩
  case h_13 => cases h

/-- A word decodes to a command exactly when it is the word of that command and the command has one. -/
theorem decode_eq_ok_iff : decode w = .ok i ↔ i.wf = true ∧ encode i = w :=
  ⟨encodeInvertsDecode w i, fun ⟨hwf, hw⟩ => hw ▸ decodeInvertsEncode i hwf⟩

/-- Settles O4: each word listed is the word of its command. -/
theorem specWordsDecode : Obligations.SpecWordsDecode := by
  unfold Obligations.SpecWordsDecode
  simp only [decode_eq_ok_iff]
  decide

end Sys2Proof.Proofs
end

section
/-! PROOFS. The cell commands: the next state when the cell is in range, and what they leave unchanged however they end
(40_element_access.md R110-R116). -/

namespace Sys2Proof.Proofs

open Sys2Proof.Machine Sys2Proof.Laws

variable {s t : State} {d x y : Nat}

/-! ## In range -/

/-- Reading a written cell of a bank the block has: its bits, and completion. -/
theorem perform_readCellInto_written {v : Cx} (f : Cx → State → State) (hd : d < s.build.nbanks) (hx : x < s.build.n)
    (hy : y < s.build.n) (h : gridRead s.grid (cellOperand s.build d x y) = some v) :
    perform (cellError s.build d x y) (readCellInto (cellOperand s.build d x y) f) s = .next (complete (f v s)) := by
  rw [cellError_eq_none.2 ⟨hd, hx, hy⟩, perform_none, readCellInto_written h]

/-- Settles O27: the result registers get the cell's own patterns. -/
theorem getReturnsCell : Obligations.GetReturnsCell :=
  fun _ _ _ _ _ hd hx hy h => perform_readCellInto_written setRes hd hx hy h

/-- Settles O30: RES0 gets each command's function of the cell. -/
theorem magnitudeAndPhaseResults : Obligations.MagnitudeAndPhaseResults :=
  fun _ _ _ _ _ hd hx hy h =>
    ⟨perform_readCellInto_written (fun v => setRes0 (mag2 v)) hd hx hy h,
      perform_readCellInto_written (fun v => setRes0 (fsqrt (mag2 v))) hd hx hy h,
      perform_readCellInto_written (fun v => setRes0 (atan2 v.im v.re)) hd hx hy h⟩

/-- Storing into a cell of a bank the block has: the cell holds the value, every other address reads as before, and the
command completes with nothing else changed. -/
theorem perform_writeCell_inRange (f : State → Cx) (hd : d < s.build.nbanks) (hx : x < s.build.n) (hy : y < s.build.n) :
    ∃ t, perform (cellError s.build d x y) (fun u => writeCell u (cellOperand s.build d x y) (f u)) s = .next t ∧
      t = { s with grid := t.grid, status := { s.status with busy := false, done := true } } ∧
      gridRead t.grid (cellOperand s.build d x y) = some (f s) ∧
      ∀ a, a ≠ cellOperand s.build d x y → gridRead t.grid a = gridRead s.grid a := by
  refine ⟨complete (writeCell s (cellOperand s.build d x y) (f s)), ?_, rfl, ?_, fun a ha => ?_⟩
  · rw [cellError_eq_none.2 ⟨hd, hx, hy⟩, perform_none]
  · exact (gridRead_gridWrite ..).trans (if_pos rfl)
  · exact (gridRead_gridWrite ..).trans (if_neg ha)

/-- Settles O28: the value stored is the pair of latches. -/
theorem setStoresLatches : Obligations.SetStoresLatches :=
  fun _ _ _ _ hd hx hy => perform_writeCell_inRange (fun u => ⟨u.latOpa, u.latOpb⟩) hd hx hy

/-- Settles O29: the value stored is the zero cell. -/
theorem zeroCellStoresZero : Obligations.ZeroCellStoresZero :=
  fun _ _ _ _ hd hx hy => perform_writeCell_inRange (fun _ => Cx.zero) hd hx hy

/-! ## However they end -/

/-- The rule of a reading cell command: result registers, RES1 as it was but for GET, and UNINIT_READ where it is due. -/
theorem ruleOf_reading_cell {i : Instr} (s : State) (hi : i ∈ [Instr.get d x y, .mag2 d x y, .mag d x y, .phase d x y]) :
    ∃ w v, ruleOf i s = noteRead w (setRes v s) ∧ (i ≠ .get d x y → v.im = s.res1) := by
  simp only [List.mem_cons, List.not_mem_nil, or_false] at hi
  rcases hi with rfl | rfl | rfl | rfl
  · exact ⟨_, _, rfl, fun hne => absurd rfl hne⟩
  · exact ⟨_, ⟨_, s.res1⟩, rfl, fun _ => rfl⟩
  · exact ⟨_, ⟨_, s.res1⟩, rfl, fun _ => rfl⟩
  · exact ⟨_, ⟨_, s.res1⟩, rfl, fun _ => rfl⟩

/-- The rule of a storing cell command: its cell alone. -/
theorem ruleOf_storing_cell {i : Instr} (s : State) (hi : i ∈ [Instr.set d x y, .zeroCell d x y]) :
    ∃ v, ruleOf i s = writeCell s (cellOperand s.build d x y) v := by
  simp only [List.mem_cons, List.not_mem_nil, or_false] at hi
  rcases hi with rfl | rfl <;> exact ⟨_, rfl⟩

/-- A cell command ends with an error, or completes after its result registers are set or its cell is stored. -/
theorem exec_cell_cases {i : Instr}
    (hi : i ∈ [Instr.get d x y, .set d x y, .mag2 d x y, .mag d x y, .phase d x y, .zeroCell d x y])
    (h : exec i s = .next t) :
    (∃ c, t = raiseError c s) ∨
      (i ∉ [Instr.set d x y, .zeroCell d x y] ∧
        ∃ w v, t = complete (noteRead w (setRes v s)) ∧ (i ≠ .get d x y → v.im = s.res1)) ∨
      i ∈ [Instr.set d x y, .zeroCell d x y] ∧ ∃ v, t = complete (writeCell s (cellOperand s.build d x y) v) := by
  rw [exec_eq_perform] at h
  rcases perform_cases h with ⟨c, -, rfl⟩ | ⟨-, rfl⟩
  · exact .inl ⟨c, rfl⟩
  by_cases hw : i ∈ [Instr.set d x y, .zeroCell d x y]
  · obtain ⟨v, hv⟩ := ruleOf_storing_cell s hw
    exact .inr (.inr ⟨hw, v, congrArg complete hv⟩)
  · have hr : i ∈ [Instr.get d x y, .mag2 d x y, .mag d x y, .phase d x y] := by
      simp only [List.mem_cons, List.not_mem_nil, or_false] at hi hw ⊢
      tauto
    obtain ⟨w, v, hv, him⟩ := ruleOf_reading_cell s hr
    exact .inr (.inl ⟨hw, w, v, congrArg complete hv, him⟩)

/-- Settles O32, for each way a cell command can end. -/
theorem cellCommandsFrame : Obligations.CellCommandsFrame := by
  intro s t d x y i hi h
  rcases exec_cell_cases hi h with ⟨c, rfl⟩ | ⟨hw, w, v, rfl, him⟩ | ⟨hw, v, rfl⟩
  · exact ⟨rfl, rfl, fun _ _ => rfl, fun _ _ => rfl, fun _ => rfl, fun _ => rfl⟩
  · have hstores : ¬ (i = .set d x y ∨ i = .zeroCell d x y) := by simpa using hw
    cases w <;> exact ⟨rfl, rfl, fun _ _ => rfl, fun _ _ => rfl, him, fun h => absurd h hstores⟩
  · refine ⟨rfl, rfl, fun a ha => ?_, fun hset hzero => ?_, fun _ => rfl, fun _ => rfl⟩
    · exact (gridRead_gridWrite ..).trans (if_neg ha)
    · simp [hset, hzero] at hw

end Sys2Proof.Proofs
end

section
/-! PROOFS. Squared magnitudes and their running sums: sums of values whose sign bit is clear (40_element_access.md R112,
41_grid_reduction.md R136). -/

namespace Sys2Proof.Proofs

open Sys2Proof.Machine Sys2Proof.Laws

/-! ## Values with a clear sign bit -/

theorem isNeg_qNaN : isNeg qNaN = false := by decide

theorem sunits_of_not_neg {a : F64} (h : isNeg a = false) : sunits a = units a := by
  simp [sunits, h]

theorem ordKey_of_not_neg {a : F64} (h : isNeg a = false) : ordKey a = magBits a := by
  simp [ordKey, h]

/-- The sum of finite values with a clear sign bit is the rounded sum of their magnitudes. -/
theorem fadd_finite_of_not_neg {a b : F64} (ha : isFinite a = true) (hb : isFinite b = true) (hna : isNeg a = false)
    (hnb : isNeg b = false) : fadd a b = ofSignMag false (roundMag (units a + units b) 1) := by
  have hsum : sunits a + sunits b = (units a + units b : Nat) := by
    rw [sunits_of_not_neg hna, sunits_of_not_neg hnb, Nat.cast_add]
  by_cases h0 : units a + units b = 0
  · rw [fadd_cancel ha hb (by rw [hsum, h0]; rfl), hna, h0, roundMag_zero]
    rfl
  · rw [fadd_finite ha hb (by rw [hsum]; exact_mod_cast h0), hsum, Int.natAbs_natCast,
      decide_eq_false (Int.natCast_nonneg _).not_gt]

/-- What a sum of values with a clear sign bit is: a NaN where either is one, one of them where it is infinite, or the
rounded sum of their magnitudes. -/
theorem fadd_cases_of_not_neg {a b : F64} (ha : isNeg a = false) (hb : isNeg b = false) :
    fadd a b = qNaN ∨ (isInf a = true ∧ fadd a b = a) ∨ (isInf b = true ∧ fadd a b = b) ∨
      isFinite a = true ∧ isFinite b = true ∧ fadd a b = ofSignMag false (roundMag (units a + units b) 1) := by
  by_cases hnan : isNaN a = true ∨ isNaN b = true
  · exact .inl (fadd_nan hnan)
  simp only [not_or, Bool.not_eq_true] at hnan
  rcases inf_or_finite hnan.1 with hia | hfa <;> rcases inf_or_finite hnan.2 with hib | hfb
  · exact .inr (.inl ⟨hia, (fadd_inf_inf hia hib).trans (if_pos (ha.trans hb.symm))⟩)
  · exact .inr (.inl ⟨hia, fadd_inf_finite hia hfb⟩)
  · exact .inr (.inr (.inl ⟨hib, fadd_finite_inf hfa hib⟩))
  · exact .inr (.inr (.inr ⟨hfa, hfb, fadd_finite_of_not_neg hfa hfb ha hb⟩))

theorem fadd_not_neg {a b : F64} (ha : isNeg a = false) (hb : isNeg b = false) : isNeg (fadd a b) = false := by
  rcases fadd_cases_of_not_neg ha hb with h | ⟨-, h⟩ | ⟨-, h⟩ | ⟨-, -, h⟩ <;> rw [h]
  · exact isNeg_qNaN
  · exact ha
  · exact hb
  · exact isNeg_ofSignMag (roundMag_lt _ _)

theorem fmul_self_not_neg (a : F64) : isNeg (fmul a a) = false := by
  unfold fmul
  simp only [bne_self_eq_false]
  split
  · exact isNeg_qNaN
  · split
    · split
      · exact isNeg_qNaN
      · exact isNeg_ofSignMag (by decide)
    · exact isNeg_ofSignMag (roundMag_lt _ _)

theorem mag2_not_neg (v : Cx) : isNeg (mag2 v) = false :=
  fadd_not_neg (fmul_self_not_neg v.re) (fmul_self_not_neg v.im)

/-! ## Adding never lowers -/

/-- Rounding a magnitude not below a finite value's gives a code not below that value's. -/
theorem magBits_le_roundMag {a : F64} {u : Nat} (ha : isFinite a = true) (h : units a ≤ u) : magBits a ≤ roundMag u 1 := by
  have hself : roundMag (units a * 1) 1 = magBits a := roundMag_magUnits (by simpa [isFinite] using ha) one_pos
  rw [← hself]
  exact roundMag_mono one_pos one_pos (by omega)

/-- A sum of values with a clear sign bit, where it is a number, is not below its first operand. -/
theorem magBits_le_fadd {a b : F64} (ha : isNeg a = false) (hb : isNeg b = false) (hna : isNaN a = false)
    (hn : isNaN (fadd a b) = false) : magBits a ≤ magBits (fadd a b) := by
  rcases fadd_cases_of_not_neg ha hb with h | ⟨-, h⟩ | ⟨hib, h⟩ | ⟨hfa, -, h⟩ <;> rw [h] at hn ⊢
  · cases isNaN_qNaN.symm.trans hn
  · rw [of_decide_eq_true hib]
    exact magBits_le_of_not_nan hna
  · rw [magBits_ofSignMag (roundMag_lt _ _)]
    exact magBits_le_roundMag hfa (Nat.le_add_right _ _)

theorem flt_fadd_self {a b : F64} (ha : isNeg a = false) (hb : isNeg b = false) : flt (fadd a b) a = false :=
  flt_eq_false fun hn hna => by
    rw [ordKey_of_not_neg ha, ordKey_of_not_neg (fadd_not_neg ha hb)]
    exact_mod_cast magBits_le_fadd ha hb hna hn

/-! ## Running sums -/

theorem sumSquares_concat (vs : List Cx) (v : Cx) :
    sumSquares (vs ++ [v]) = fadd (sumSquares vs) (mag2 v) := by
  simp [sumSquares]

theorem sumSquares_not_neg (vs : List Cx) : isNeg (sumSquares vs) = false := by
  induction vs using List.reverseRecOn with
  | nil => decide
  | append_singleton vs v ih =>
    rw [sumSquares_concat]
    exact fadd_not_neg ih (mag2_not_neg v)

/-- The square of either zero is `+0`. -/
theorem fmul_self_of_zero {a : F64} (h : isZero a = true) : fmul a a = 0 := by
  rw [fmul_zero_factor (finite_of_zero h) (finite_of_zero h) (.inl h), bne_self_eq_false]
  rfl

theorem fadd_zero_zero : fadd 0 0 = 0 := by decide

theorem mag2_of_zero {v : Cx} (hre : isZero v.re = true) (him : isZero v.im = true) : mag2 v = 0 := by
  rw [mag2, fmul_self_of_zero hre, fmul_self_of_zero him, fadd_zero_zero]

theorem sumSquares_of_zero {vs : List Cx} (h : ∀ v ∈ vs, isZero v.re = true ∧ isZero v.im = true) :
    sumSquares vs = 0 := by
  induction vs using List.reverseRecOn with
  | nil => rfl
  | append_singleton vs v ih =>
    obtain ⟨hre, him⟩ := h v (by simp)
    rw [sumSquares_concat, ih fun w hw => h w (by simp [hw]), mag2_of_zero hre him, fadd_zero_zero]

/-- Settles O50: a running sum is a sum of values with a clear sign bit. -/
theorem squaredMagnitudesNotNegative : Obligations.SquaredMagnitudesNotNegative := by
  refine ⟨mag2_not_neg, sumSquares_not_neg, fun vs h => sumSquares_of_zero h, fun vs v => ?_⟩
  rw [sumSquares_concat]
  exact flt_fadd_self (sumSquares_not_neg vs) (mag2_not_neg v)

end Sys2Proof.Proofs
end

section
/-! PROOFS. The whole-bank commands without a transform, on a written bank and on one with an unwritten cell, and the factors
1 and -1 (41_grid_reduction.md R130-R138, 10_state.md R45). -/

namespace Sys2Proof.Proofs

open Sys2Proof.Machine Sys2Proof.Laws

variable {s : State} {d src : Nat} {v : Nat → Cx}

/-! ## Writing a bank -/

theorem scaleCells_map (f : F64) (v : Nat → Cx) (is : List Nat) :
    scaleCells f (is.map v) = is.map fun i => cscale (v i) f :=
  List.map_map

/-- The next state of a command that writes to its whole bank, one cell an index, and completes: those cells, every other address
as before, and nothing else but STATUS. -/
theorem complete_writeBank_map (s : State) (d : Nat) (c : Nat → Cx) :
    let t := complete (writeBank s d ((List.range s.build.cells).map c))
    t = { s with grid := t.grid, status := { s.status with busy := false, done := true } } ∧
      (∀ i, i < s.build.cells → gridRead t.grid (cellAddr d i) = some (c i)) ∧
      ∀ a, a < cellAddr d 0 ∨ cellAddr d s.build.cells ≤ a → gridRead t.grid a = gridRead s.grid a := by
  refine ⟨rfl, fun i hi => ?_, fun a ha => ?_⟩
  · rw [complete_grid, writeBank_inside (by simpa using hi)]
    simp [hi]
  · exact writeBank_outside (by simpa using ha)

/-- An address is in the bank or outside it. -/
theorem cellAddr_or_outside (d n a : Nat) : (∃ i, i < n ∧ a = cellAddr d i) ∨ a < cellAddr d 0 ∨ cellAddr d n ≤ a := by
  by_cases h : a < cellAddr d 0 ∨ cellAddr d n ≤ a
  · exact .inr h
  · refine .inl ⟨a - cellAddr d 0, ?_, ?_⟩ <;> unfold cellAddr at * <;> omega

/-! ## A bank with every cell written -/

section

-- Every cell of `src`, the bank the command reads, is written, with `v i` at flat index `i`.
variable (hv : ∀ i, i < s.build.cells → gridRead s.grid (cellAddr src i) = some (v i))
include hv

theorem exec_scale_written (hd : src < s.build.nbanks) :
    exec (.scale src) s =
      .next (complete (writeBank s src ((List.range s.build.cells).map fun i => cscale (v i) s.latOpa))) := by
  rw [exec, execScale, gridError_eq_none.2 hd, perform_none, rewriteBank_written hv, scaleCells_map]

theorem exec_copy_written (hd : d < s.build.nbanks) (hsrc : src < s.build.nbanks) :
    exec (.copy d src) s = .next (complete (writeBank s d ((List.range s.build.cells).map v))) := by
  rw [exec, execCopy, copyError_eq_none.2 ⟨hd, hsrc⟩, perform_none, rewriteBank_written hv, id]

theorem exec_sumsq_written (hd : src < s.build.nbanks) :
    exec (.sumsq src) s = .next (complete (setRes0 (sumSquares ((List.range s.build.cells).map v)) s)) := by
  rw [exec, execSumsq, gridError_eq_none.2 hd, perform_none, bankWritten_written hv, noteRead_written,
    bankBits_written hv]

/-- RENORM with the root of the sum below the threshold: the diagnostic, and no cell (R138). -/
theorem renormBank_guarded (hg : flt (fsqrt (sumSquares ((List.range s.build.cells).map v))) s.latEps = true) :
    renormBank src s =
      { s with res0 := sumSquares ((List.range s.build.cells).map v), status := s.status.nearZero } := by
  simp only [renormBank, bankBits_written hv, bankWritten_written hv, noteRead_written]
  exact if_pos hg

/-- RENORM with the root of the sum not below the threshold: every cell times the rounded reciprocal of the root (R138). -/
theorem renormBank_scaled (hg : flt (fsqrt (sumSquares ((List.range s.build.cells).map v))) s.latEps = false) :
    renormBank src s =
      let sum := sumSquares ((List.range s.build.cells).map v)
      writeBank (setRes0 sum s) src ((List.range s.build.cells).map fun i => cscale (v i) (fdiv one64 (fsqrt sum))) := by
  simp only [renormBank, bankBits_written hv, hg, Bool.false_eq_true, if_false]
  have hv' (r : F64) : ∀ i, i < (setRes0 r s).build.cells →
      gridRead (setRes0 r s).grid (cellAddr src i) = some (v i) := hv
  rw [rewriteBank_written (hv' _), scaleCells_map, setRes0_build]

end

theorem exec_renorm (hd : d < s.build.nbanks) : exec (.renorm d) s = .next (complete (renormBank d s)) := by
  rw [exec, execRenorm, gridError_eq_none.2 hd, perform_none]

/-- Settles O33: the bank written is the bank read, each cell times the latched factor. -/
theorem scaleMultipliesEveryCell : Obligations.ScaleMultipliesEveryCell :=
  fun s d v _ hd hv => ⟨_, exec_scale_written hv hd, complete_writeBank_map s d fun i => cscale (v i) s.latOpa⟩

/-- Settles O34: the destination is written with the source's cells, which for a bank copied into itself are its own. -/
theorem copyCopiesEveryCell : Obligations.CopyCopiesEveryCell := by
  intro s d src v _ hd hsrc hv
  obtain ⟨hframe, hin, hout⟩ := complete_writeBank_map s d v
  refine ⟨_, exec_copy_written hv hd hsrc, hframe, hin, hout, ?_⟩
  rintro rfl a
  rcases cellAddr_or_outside d s.build.cells a with ⟨i, hi, rfl⟩ | ha
  · rw [hin i hi, hv i hi]
  · exact hout a ha

/-- Settles O35: the model's fold over the cells is the statement's fold over their indices. -/
theorem sumsqAccumulatesInOrder : Obligations.SumsqAccumulatesInOrder := by
  intro s d v hd hv
  rw [exec_sumsq_written hv hd, sumSquares, List.foldl_map]
  rfl

/-- Settles O36: RES0 is set, then the bank is written as by SCALE. -/
theorem renormScalesBank : Obligations.RenormScalesBank := by
  intro s d v _ hd hv sum hg
  refine ⟨_, exec_renorm hd, ?_⟩
  rw [renormBank_scaled hv hg]
  exact complete_writeBank_map (setRes0 sum s) d fun i => cscale (v i) (fdiv one64 (fsqrt sum))

/-- Settles O37: the guarded rule, completed. -/
theorem renormGuardWarns : Obligations.RenormGuardWarns := by
  intro s d v hd hv sum hg
  rw [exec_renorm hd, renormBank_guarded hv hg]
  rfl

/-! ## A bank with an unwritten cell -/

/-- The bank a whole-bank command reads. -/
def bankReadBy : Instr → Option Nat
  | .scale d | .sumsq d | .renorm d | .fftFwd d | .fftInv d => some d
  | .copy _ src => some src
  | .get _ _ _ | .set _ _ _ | .mag2 _ _ _ | .mag _ _ _ | .phase _ _ _ | .zeroCell _ _ _ => none

theorem rewriteBank_unwritten (f : List Cx → List Cx) (h : bankWritten s src = false) :
    rewriteBank d src f s = uninitRead s := by
  simp [rewriteBank, h]

/-- RENORM of a bank with an unwritten cell, guarded or not: no cell is written, and UNINIT_READ is logged (log entry 3). -/
theorem renormBank_unwritten (h : bankWritten s d = false) :
    (renormBank d s).grid = s.grid ∧ (renormBank d s).faultlog = s.faultlog ++ [.uninitRead] := by
  simp only [renormBank]
  split
  · simp [h]
  · have h' (r : F64) : bankWritten (setRes0 r s) d = false := h
    simp [rewriteBank_unwritten _ (h' _)]

/-- The rule of every command that reads a bank with an unwritten cell writes no cell, and logs UNINIT_READ. -/
theorem ruleOf_unwritten_bank {i : Instr} (hi : bankReadBy i = some src) (h : bankWritten s src = false) :
    (ruleOf i s).grid = s.grid ∧ (ruleOf i s).faultlog = s.faultlog ++ [.uninitRead] := by
  cases i <;> cases hi
  case scale | copy | fftFwd | fftInv => simp [ruleOf, rewriteBank_unwritten _ h]
  case sumsq => simp [ruleOf, h]
  case renorm => exact renormBank_unwritten h

/-- Settles O39: the rule writes no cell, and at most warns. -/
theorem unwrittenBankIsNotRewritten : Obligations.UnwrittenBankIsNotRewritten := by
  intro s d src j hd hsrc hj p hp hnone
  have hcmd : bankReadBy p.1 = some p.2 ∧ checkOf s.build p.1 = none := by
    simp only [List.mem_cons, List.not_mem_nil, or_false] at hp
    rcases hp with rfl | rfl | rfl | rfl | rfl | rfl <;>
      exact ⟨rfl, by simp [checkOf, gridError_eq_none, copyError_eq_none, hd, hsrc]⟩
  obtain ⟨hread, hcheck⟩ := hcmd
  obtain ⟨hgrid, hlog⟩ := ruleOf_unwritten_bank hread (bankWritten_unwritten hj hnone)
  refine ⟨complete (ruleOf p.1 s), by rw [exec_eq_perform, hcheck, perform_none], hgrid, hlog, rfl, rfl, ?_⟩
  rcases (ruleOf_effect hcheck).status with hs | ⟨-, hs⟩ <;> simp [hs]

/-! ## The factors 1 and -1 -/

theorem units_of_one {b : F64} (h : magBits b = magBits one64) : units b = oneUnits := by
  rw [units, h]
  decide

/-- Multiplying by a value of magnitude 1 keeps the magnitude of whatever is not a NaN. -/
theorem fmul_of_one {a b : F64} (ha : isNaN a = false) (hb : magBits b = magBits one64) :
    fmul a b = ofSignMag (isNeg a != isNeg b) (magBits a) := by
  have hfin : isFinite b = true := by rw [isFinite, hb]; decide
  rcases inf_or_finite ha with hinf | hfa
  · have hz : isZero b = false := by rw [isZero, hb]; decide
    rw [fmul_inf_nonzero hinf (not_nan_of_finite hfin) hz, of_decide_eq_true hinf]
  · rw [fmul_finite hfa hfin, units_of_one hb, units, roundMag_magUnits (of_decide_eq_true hfa) (by decide)]

/-- Settles O49: 1 and -1 have magnitude 1, so that only the sign can change. -/
theorem scalingByPlusMinusOne : Obligations.ScalingByPlusMinusOne := by
  intro a
  cases ha : isNaN a
  · constructor
    · have hpos : isNeg 0x3FF0000000000000 = false := by decide
      rw [fmul_of_one ha rfl, hpos, Bool.bne_false, ofSignMag_self]
      rfl
    · have hneg : isNeg 0xBFF0000000000000 = true := by decide
      rw [fmul_of_one ha (by decide), hneg, Bool.bne_true]
      exact (eq_ofSignMag (isNeg_fneg a) (magBits_fneg a)).symm
  · exact ⟨fmul_nan (.inl ha), fmul_nan (.inl ha)⟩

end Sys2Proof.Proofs
end

section
/-! PROOFS. Lines and banks over any arithmetic: where bit reversal puts each element, the butterflies of a stage, and the lines
that a pass transforms (42_fft.md R154-R157, R162). -/

namespace Sys2Proof.Proofs

open Sys2Proof.Machine Sys2Proof.Laws

/-! ## Bit reversal -/

theorem revBits_lt (l i : Nat) : revBits l i < 2 ^ l := by
  induction l generalizing i with
  | zero => exact Nat.one_pos
  | succ l ih =>
    have hlow := ih (i / 2)
    have hbit : i % 2 * 2 ^ l ≤ 1 * 2 ^ l := Nat.mul_le_mul_right _ (by omega)
    rw [revBits, Nat.pow_succ]
    omega

/-- Bit `j` of the index becomes bit `L-1-j` (R154). -/
theorem testBit_revBits {l j : Nat} (i : Nat) (hj : j < l) : (revBits l i).testBit (l - 1 - j) = i.testBit j := by
  induction l generalizing i j with
  | zero => omega
  | succ l ih =>
    rw [revBits, Nat.mul_comm, Nat.testBit_two_pow_mul_add _ (revBits_lt l (i / 2))]
    cases j with
    | zero => simp [Nat.testBit_zero]
    | succ j =>
      rw [if_pos (by omega), Nat.testBit_succ, ← ih (i / 2) (show j < l by omega)]
      congr 1
      omega

/-- The reversal is its own inverse (R154). -/
theorem revBits_revBits {l i : Nat} (hi : i < 2 ^ l) : revBits l (revBits l i) = i := by
  apply Nat.eq_of_testBit_eq
  intro j
  rcases Nat.lt_or_ge j l with hj | hj
  · have hback := testBit_revBits (revBits l i) (show l - 1 - j < l by omega)
    rwa [show l - 1 - (l - 1 - j) = j by omega, testBit_revBits i hj] at hback
  · have hpow : 2 ^ l ≤ 2 ^ j := Nat.pow_le_pow_right (by decide) hj
    rw [Nat.testBit_lt_two_pow ((revBits_lt l _).trans_le hpow), Nat.testBit_lt_two_pow (hi.trans_le hpow)]

theorem revBits_even (l k : Nat) : revBits (l + 1) (2 * k) = revBits l k := by
  rw [revBits, Nat.mul_mod_right, Nat.mul_div_cancel_left k two_pos, Nat.zero_mul, Nat.zero_add]

theorem revBits_odd (l k : Nat) : revBits (l + 1) (2 * k + 1) = 2 ^ l + revBits l k := by
  rw [revBits, show (2 * k + 1) % 2 = 1 by omega, show (2 * k + 1) / 2 = k by omega, Nat.one_mul]

/-- Position `p` of the reversed line holds element `rev_L(p)`. -/
theorem getElem?_bitReverse {α : Type} (z : α) (v : List α) {l p : Nat} (hp : p < 2 ^ l) :
    (bitReverse z l v)[p]? = some (v.getD (revBits l p) z) := by
  simp [bitReverse, hp]

/-- Settles O54: the bits by `testBit_revBits`, the placing since the reversal is its own inverse. -/
theorem bitReversalOfLine : Obligations.BitReversalOfLine := by
  intro l i hi
  refine ⟨revBits_lt l i, fun j hj => testBit_revBits i hj, fun v hv => ?_⟩
  have hiv : i < v.length := hv ▸ hi
  rw [getElem?_bitReverse _ v (revBits_lt l i), revBits_revBits hi]
  simp [hiv]

/-! ## Stages -/

section
variable {α τ : Type} (A : LineArith α τ) (w : Nat → τ)

/-- The first half of a block after its butterflies: the sums. -/
theorem getElem?_bflyBlock_low (blk : List α) {half j : Nat} (stride : Nat) (hj : j < half) :
    (bflyBlock A w half stride blk)[j]? =
      some (bfly A (w (j * stride)) (blk.getD j A.zero) (blk.getD (j + half) A.zero)).1 := by
  rw [bflyBlock, List.getElem?_append_left (by simpa using hj)]
  simp [hj]

/-- The second half: the differences. -/
theorem getElem?_bflyBlock_high (blk : List α) {half j : Nat} (stride : Nat) (hj : j < half) :
    (bflyBlock A w half stride blk)[j + half]? =
      some (bfly A (w (j * stride)) (blk.getD j A.zero) (blk.getD (j + half) A.zero)).2 := by
  rw [bflyBlock, List.getElem?_append_right (by simp)]
  simp [hj]

/-- An element of a block cut out of a line. -/
theorem getD_block (a : List α) (z : α) {m i : Nat} (k : Nat) (hi : i < m) :
    ((a.drop (k * m)).take m).getD i z = a.getD (k * m + i) z := by
  rw [List.getD_eq_getElem?_getD, List.getElem?_take_of_lt hi, List.getElem?_drop, ← List.getD_eq_getElem?_getD]

/-- An element of a line after stage `t + 1` is an element of its block's butterflies. -/
theorem getElem?_fftStage_block (a : List α) {l t k i : Nat} (hk : k < 2 ^ (l - (t + 1))) (hi : i < 2 ^ (t + 1)) :
    (fftStage A w l t a)[k * 2 ^ (t + 1) + i]? =
      (bflyBlock A w (2 ^ t) (2 ^ (l - (t + 1))) ((a.drop (k * 2 ^ (t + 1))).take (2 ^ (t + 1))))[i]? :=
  flatMap_range_getElem? _ _ _ (fun _ => by rw [bflyBlock_length, Nat.pow_succ']) k i hk hi

/-- The two results of a butterfly of stage `t + 1`, in the places of its operands (R157). -/
theorem getElem?_fftStage (a : List α) {l t k j : Nat} (hk : k < 2 ^ (l - (t + 1))) (hj : j < 2 ^ t) :
    let r := bfly A (w (j * 2 ^ (l - (t + 1)))) (a.getD (k * 2 ^ (t + 1) + j) A.zero)
      (a.getD (k * 2 ^ (t + 1) + j + 2 ^ t) A.zero)
    (fftStage A w l t a)[k * 2 ^ (t + 1) + j]? = some r.1 ∧
      (fftStage A w l t a)[k * 2 ^ (t + 1) + j + 2 ^ t]? = some r.2 := by
  have hm : 2 ^ (t + 1) = 2 * 2 ^ t := Nat.pow_succ'
  have hlow : j < 2 ^ (t + 1) := by omega
  have hhigh : j + 2 ^ t < 2 ^ (t + 1) := by omega
  rw [Nat.add_assoc, ← getD_block a A.zero k hlow, ← getD_block a A.zero k hhigh, getElem?_fftStage_block A w a hk hlow,
    getElem?_fftStage_block A w a hk hhigh]
  exact ⟨getElem?_bflyBlock_low A w _ _ hj, getElem?_bflyBlock_high A w _ _ hj⟩

end

/-- Settles O60: a line transform is its stages by definition, and a stage is its butterflies by `getElem?_fftStage`. -/
theorem stagesAreButterflies : Obligations.StagesAreButterflies := by
  intro α τ A w l
  refine ⟨fun v => rfl, fun t k j a u b _ _ hk hj hu hb => ?_⟩
  have h := getElem?_fftStage A w a hk hj
  rwa [List.getD_eq_getElem?_getD, hu, List.getD_eq_getElem?_getD, hb] at h

/-! ## Passes -/

section
variable {α : Type} (z : α) {n c j : Nat}

/-- Element `j` of block `c` lies within a list of `m` blocks of `n`. -/
theorem block_index_lt {m : Nat} (hc : c < m) (hj : j < n) : c * n + j < m * n :=
  calc c * n + j < c * n + n := Nat.add_lt_add_left hj _
    _ = (c + 1) * n := (Nat.succ_mul c n).symm
    _ ≤ m * n := Nat.mul_le_mul_right n hc

@[simp] theorem rowOf_length (n : Nat) (g : List α) (y : Nat) : (rowOf z n g y).length = n := by simp [rowOf]

@[simp] theorem colOf_length (n : Nat) (g : List α) (x : Nat) : (colOf z n g x).length = n := by simp [colOf]

theorem getElem?_rowOf {g : List α} (hg : g.length = n * n) (hc : c < n) (hj : j < n) :
    (rowOf z n g c)[j]? = g[c * n + j]? := by
  have hi := block_index_lt hc hj
  rw [← hg] at hi
  simp [rowOf, hj, hi]

theorem getElem?_colOf {g : List α} (hg : g.length = n * n) (hc : c < n) (hj : j < n) :
    (colOf z n g c)[j]? = g[j * n + c]? := by
  have hi := block_index_lt hj hc
  rw [← hg] at hi
  simp [colOf, hj, hi]

variable {f : List α → List α} (hf : ∀ v, (f v).length = n) (g : List α)
include hf

theorem getElem?_rowPass (hc : c < n) (hj : j < n) : (rowPass z n f g)[c * n + j]? = (f (rowOf z n g c))[j]? :=
  flatMap_range_getElem? n n _ (fun _ => hf _) c j hc hj

theorem getElem?_colPass (hc : c < n) (hj : j < n) : (colPass z n f g)[j * n + c]? = (f (colOf z n g c))[j]? := by
  have hlen := hf (colOf z n g c)
  rw [colPass, flatMap_range_getElem? n n _ (fun _ => by simp) j c hj hc]
  simp [hc, hj, hlen]

end

/-- Settles O56: an element of a row or a column by its index, and an element of a pass by its line. -/
theorem passesTransformLines : Obligations.PassesTransformLines := by
  intro n f g hf c j hc hj
  exact ⟨fun hg => ⟨getElem?_rowOf _ hg hc hj, getElem?_colOf _ hg hc hj⟩, rowOf_length _ n g c, colOf_length _ n g c,
    getElem?_rowPass _ hf g hc hj, getElem?_colPass _ hf g hc hj⟩

end Sys2Proof.Proofs
end

section
/-! PROOFS. The line algorithm in exact arithmetic: it computes the discrete Fourier transform, and with the inverse root undoes it
(42_fft.md R157, R158, R164). -/

namespace Sys2Proof.Proofs

open Sys2Proof.Machine Sys2Proof.Laws

/-- The arithmetic of a commutative ring, in the form in which O57 and O58 write it. -/
def ringArith (R : Type) [CommRing R] : LineArith R R :=
  { zero := 0, add := fun a b => a + b, sub := fun a b => a - b, mul := fun w b => w * b }

section
variable {R : Type} [CommRing R] (ω : R) (v : List R)

/-! ## The transform of a decimated line -/

/-- Entry `j` of the exact transform of the `2^s` elements of `v` at `r, r + q, r + 2q, ...`, whose root is `ω^q`. -/
def decimatedDft (s q r j : Nat) : R := ∑ i ∈ Finset.range (2 ^ s), v.getD (r + i * q) 0 * ω ^ (j * (i * q))

theorem decimatedDft_one (q r j : Nat) : decimatedDft ω v 0 q r j = v.getD r 0 := by simp [decimatedDft]

/-- A sum over twice as many indices, the even and the odd ones apart. -/
theorem sum_range_two_pow_succ (s : Nat) (f : Nat → R) :
    ∑ i ∈ Finset.range (2 ^ (s + 1)), f i =
      ∑ i ∈ Finset.range (2 ^ s), f (2 * i) + ∑ i ∈ Finset.range (2 ^ s), f (2 * i + 1) := by
  rw [Nat.pow_succ']
  induction 2 ^ s with
  | zero => simp
  | succ n ih =>
    rw [Nat.mul_succ, Finset.sum_range_succ, Finset.sum_range_succ, ih, Finset.sum_range_succ, Finset.sum_range_succ]
    ring

/-- The transform of `2^(s+1)` elements from those of its even and its odd elements. -/
theorem decimatedDft_add (s q r j : Nat) :
    decimatedDft ω v (s + 1) q r j =
      decimatedDft ω v s (2 * q) r j + ω ^ (j * q) * decimatedDft ω v s (2 * q) (r + q) j := by
  rw [decimatedDft, sum_range_two_pow_succ, decimatedDft, decimatedDft, Finset.mul_sum]
  congr 1 <;> refine Finset.sum_congr rfl fun i _ => ?_
  · rw [show 2 * i * q = i * (2 * q) by ring]
  · rw [show r + (2 * i + 1) * q = r + q + i * (2 * q) by ring,
      show j * ((2 * i + 1) * q) = j * q + j * (i * (2 * q)) by ring, pow_add]
    ring

/-- The transform of the even or of the odd elements repeats half a period on. -/
theorem decimatedDft_period {s q : Nat} (hω : ω ^ (2 ^ s * q) = -1) (r j : Nat) :
    decimatedDft ω v s (2 * q) r (j + 2 ^ s) = decimatedDft ω v s (2 * q) r j := by
  refine Finset.sum_congr rfl fun i _ => ?_
  rw [show (j + 2 ^ s) * (i * (2 * q)) = j * (i * (2 * q)) + 2 ^ s * q * (2 * i) by ring, pow_add, pow_mul ω (2 ^ s * q), hω,
    pow_mul (-1 : R), neg_one_sq, one_pow, mul_one]

/-- Half a period on, the transform of the odd elements is subtracted. -/
theorem decimatedDft_sub {s q : Nat} (hω : ω ^ (2 ^ s * q) = -1) (r j : Nat) :
    decimatedDft ω v (s + 1) q r (j + 2 ^ s) =
      decimatedDft ω v s (2 * q) r j - ω ^ (j * q) * decimatedDft ω v s (2 * q) (r + q) j := by
  rw [decimatedDft_add, decimatedDft_period ω v hω, decimatedDft_period ω v hω, Nat.add_mul, pow_add, hω]
  ring

/-! ## The stages -/

/-- A line after `s` of its `l` stages: block `k` of `2^s` elements is the transform of every `2^(l-s)`-th element of `v` from
`rev(k)` on. -/
def StageDone (l s : Nat) (a : List R) : Prop :=
  ∀ k j, k < 2 ^ (l - s) → j < 2 ^ s →
    a[k * 2 ^ s + j]? = some (decimatedDft ω v s (2 ^ (l - s)) (revBits (l - s) k) j)

theorem stageDone_bitReverse (l : Nat) : StageDone ω v l 0 (bitReverse 0 l v) := by
  intro k j hk hj
  obtain rfl : j = 0 := by simpa using hj
  rw [decimatedDft_one, Nat.pow_zero, Nat.mul_one, Nat.add_zero]
  exact getElem?_bitReverse 0 v hk

/-- A stage joins neighbouring blocks in pairs, the even elements' transform with the odd elements'. -/
theorem stageDone_fftStage {l s : Nat} (hs : s < l) (hω : ω ^ (2 ^ (l - 1)) = -1) {a : List R} (h : StageDone ω v l s a) :
    StageDone ω v l (s + 1) (fftStage (ringArith R) (fun t => ω ^ t) l s a) := by
  intro k j hk hj
  obtain ⟨d, hd⟩ : ∃ d, l - s = d + 1 := ⟨l - s - 1, by omega⟩
  have hd' : l - (s + 1) = d := by omega
  have hhalf : ω ^ (2 ^ s * 2 ^ d) = -1 := by rw [← pow_add, show s + d = l - 1 by omega, hω]
  unfold StageDone at h
  rw [hd, Nat.pow_succ'] at h
  rw [hd'] at hk ⊢
  have hblock : ∀ i, i < 2 ^ s →
      a.getD (k * 2 ^ (s + 1) + i) 0 = decimatedDft ω v s (2 * 2 ^ d) (revBits d k) i ∧
      a.getD (k * 2 ^ (s + 1) + i + 2 ^ s) 0 = decimatedDft ω v s (2 * 2 ^ d) (revBits d k + 2 ^ d) i := by
    intro i hi
    have heven := h (2 * k) i (by omega) hi
    have hodd := h (2 * k + 1) i (by omega) hi
    rw [revBits_even, show 2 * k * 2 ^ s = k * 2 ^ (s + 1) by ring] at heven
    rw [revBits_odd, show (2 * k + 1) * 2 ^ s + i = k * 2 ^ (s + 1) + i + 2 ^ s by ring, Nat.add_comm (2 ^ d)] at hodd
    simp [List.getD_eq_getElem?_getD, heven, hodd]
  have hstage := fun i => getElem?_fftStage (ringArith R) (fun t => ω ^ t) a (l := l) (t := s) (k := k) (j := i) (hd' ▸ hk)
  rw [hd'] at hstage
  rcases Nat.lt_or_ge j (2 ^ s) with hjs | hjs
  · obtain ⟨hsum, -⟩ := hstage j hjs
    obtain ⟨hu, hb⟩ := hblock j hjs
    rw [hsum, decimatedDft_add, ← hu, ← hb]
    rfl
  · obtain ⟨i, rfl⟩ : ∃ i, j = i + 2 ^ s := ⟨j - 2 ^ s, by omega⟩
    have his : i < 2 ^ s := by rw [Nat.pow_succ] at hj; omega
    obtain ⟨-, hdiff⟩ := hstage i his
    obtain ⟨hu, hb⟩ := hblock i his
    rw [← Nat.add_assoc, hdiff, decimatedDft_sub ω v hhalf, ← hu, ← hb]
    rfl

theorem stageDone_stages {l s : Nat} (hs : s ≤ l) (hω : 1 ≤ l → ω ^ (2 ^ (l - 1)) = -1) :
    StageDone ω v l s ((List.range s).foldl (fun a t => fftStage (ringArith R) (fun t => ω ^ t) l t a) (bitReverse 0 l v)) := by
  induction s with
  | zero => exact stageDone_bitReverse ω v l
  | succ s ih =>
    rw [List.range_succ, List.foldl_append]
    exact stageDone_fftStage ω v hs (hω (by omega)) (ih (by omega))

/-- Entry `k` of the line algorithm in exact arithmetic. -/
theorem getElem?_fftLine_exact {l k : Nat} (hω : 1 ≤ l → ω ^ (2 ^ (l - 1)) = -1) (hk : k < 2 ^ l) :
    (fftLine (ringArith R) (fun t => ω ^ t) l v)[k]? = some (∑ n ∈ Finset.range (2 ^ l), v.getD n 0 * ω ^ (k * n)) := by
  have h := stageDone_stages ω v (le_refl l) hω 0 k (by simp) hk
  simp only [Nat.sub_self, Nat.zero_mul, Nat.zero_add, decimatedDft, revBits, Nat.pow_zero, Nat.mul_one] at h
  exact h

/-- The line algorithm in exact arithmetic is the discrete Fourier transform (R164). -/
theorem fftLine_exact {l : Nat} (hω : 1 ≤ l → ω ^ (2 ^ (l - 1)) = -1) :
    fftLine (ringArith R) (fun t => ω ^ t) l v =
      (List.range (2 ^ l)).map fun k => ∑ n ∈ Finset.range (2 ^ l), v.getD n 0 * ω ^ (k * n) := by
  apply List.ext_getElem?
  intro k
  rcases Nat.lt_or_ge k (2 ^ l) with hk | hk
  · rw [getElem?_fftLine_exact ω v hω hk]
    simp [hk]
  · rw [List.getElem?_eq_none (by simpa using hk), List.getElem?_eq_none (by simpa using hk)]

end

/-- Settles O57, for lines of any length. -/
theorem lineTransformIsExactDft : Obligations.LineTransformIsExactDft :=
  fun R _ _ ω v _ hω => fftLine_exact (R := R) ω v hω

/-! ## The inverse -/

section
variable {R : Type} [CommRing R]

/-- Twice as many powers of `ζ`, each even one with the odd one after it. -/
theorem sum_pow_two_pow_succ (ζ : R) (m : Nat) :
    ∑ k ∈ Finset.range (2 ^ (m + 1)), ζ ^ k = (1 + ζ) * ∑ k ∈ Finset.range (2 ^ m), (ζ ^ 2) ^ k := by
  rw [sum_range_two_pow_succ, add_mul, one_mul, Finset.mul_sum]
  congr 1 <;> refine Finset.sum_congr rfl fun k _ => ?_
  · rw [pow_mul]
  · rw [pow_succ', pow_mul]

/-- The powers of `ζ` up to the `2^l`-th add up to 0 where `ζ^(2^s) = -1` for some `s < l`. -/
theorem sum_pow_eq_zero {ζ : R} {s l : Nat} (hs : s < l) (hζ : ζ ^ (2 ^ s) = -1) : ∑ k ∈ Finset.range (2 ^ l), ζ ^ k = 0 := by
  obtain ⟨m, rfl⟩ : ∃ m, l = m + 1 := ⟨l - 1, by omega⟩
  rw [sum_pow_two_pow_succ]
  induction s generalizing ζ m with
  | zero =>
    rw [Nat.pow_zero, pow_one] at hζ
    rw [hζ, add_neg_cancel, zero_mul]
  | succ s ih =>
    obtain ⟨m, rfl⟩ : ∃ n, m = n + 1 := ⟨m - 1, by omega⟩
    have hsq : (ζ ^ 2) ^ (2 ^ s) = -1 := by rw [← pow_mul, ← Nat.pow_succ', hζ]
    rw [sum_pow_two_pow_succ, ih hsq m (by omega), mul_zero]

/-- The powers of a power of the root that is not a multiple of the period add up to 0. -/
theorem sum_root_pow_eq_zero {ω : R} {l d : Nat} (hω : 1 ≤ l → ω ^ (2 ^ (l - 1)) = -1) (h0 : d ≠ 0) (hd : d < 2 ^ l) :
    ∑ k ∈ Finset.range (2 ^ l), (ω ^ d) ^ k = 0 := by
  obtain ⟨e, o, hodd, rfl⟩ := Nat.exists_eq_two_pow_mul_odd h0
  have he : e < l := (Nat.pow_lt_pow_iff_right (by decide)).1 (lt_of_le_of_lt (Nat.le_mul_of_pos_right _ hodd.pos) hd)
  refine sum_pow_eq_zero (s := l - 1 - e) (by omega) ?_
  rw [← pow_mul, Nat.mul_right_comm, ← Nat.pow_add, show e + (l - 1 - e) = l - 1 by omega, pow_mul, hω (by omega),
    hodd.neg_one_pow]

/-- The two roots' powers are orthogonal, over any commutative ring. -/
theorem sum_root_orthogonal {ω ι : R} {l m n : Nat} (hι : ω * ι = 1) (hω : 1 ≤ l → ω ^ (2 ^ (l - 1)) = -1)
    (hιhalf : 1 ≤ l → ι ^ (2 ^ (l - 1)) = -1) (hm : m < 2 ^ l) (hn : n < 2 ^ l) :
    ∑ k ∈ Finset.range (2 ^ l), ω ^ (k * n) * ι ^ (m * k) = if n = m then 2 ^ l else 0 := by
  have hpow : ∀ k, ω ^ (k * n) * ι ^ (m * k) = (ω ^ n * ι ^ m) ^ k := fun k => by ring
  have hcancel : ∀ a, ω ^ a * ι ^ a = 1 := fun a => by rw [← mul_pow, hι, one_pow]
  simp only [hpow]
  rcases Nat.lt_trichotomy n m with h | rfl | h
  · have hbase : ω ^ n * ι ^ m = ι ^ (m - n) := by
      rw [← Nat.add_sub_cancel' h.le, pow_add, ← mul_assoc, hcancel, one_mul, Nat.add_sub_cancel_left]
    rw [if_neg h.ne, hbase]
    exact sum_root_pow_eq_zero hιhalf (by omega) (by omega)
  · simp [hcancel]
  · have hbase : ω ^ n * ι ^ m = ω ^ (n - m) := by
      rw [← Nat.add_sub_cancel' h.le, pow_add, mul_right_comm, hcancel, one_mul, Nat.add_sub_cancel_left]
    rw [if_neg h.ne', hbase]
    exact sum_root_pow_eq_zero hω (by omega) (by omega)

end

/-- Settles O58: twice the transform of `fftLine_exact`, with the sums exchanged and the roots orthogonal. -/
theorem lineTransformsInvertExactly : Obligations.LineTransformsInvertExactly := by
  intro R _ l ω ι v hv hι hω
  change fftLine (ringArith R) (fun t => ι ^ t) l (fftLine (ringArith R) (fun t => ω ^ t) l v) = _
  have hιhalf : 1 ≤ l → ι ^ (2 ^ (l - 1)) = -1 := fun hl => by
    have h : ω ^ (2 ^ (l - 1)) * ι ^ (2 ^ (l - 1)) = 1 := by rw [← mul_pow, hι, one_pow]
    rw [hω hl, neg_one_mul] at h
    exact neg_eq_iff_eq_neg.1 h
  apply List.ext_getElem?
  intro m
  rcases Nat.lt_or_ge m (2 ^ l) with hm | hm
  · rw [getElem?_fftLine_exact ι _ hιhalf hm, List.getElem?_map, List.getElem?_eq_getElem (hv ▸ hm), Option.map_some]
    congr 1
    calc ∑ k ∈ Finset.range (2 ^ l), (fftLine (ringArith R) (fun t => ω ^ t) l v).getD k 0 * ι ^ (m * k)
        = ∑ k ∈ Finset.range (2 ^ l), ∑ n ∈ Finset.range (2 ^ l), v.getD n 0 * (ω ^ (k * n) * ι ^ (m * k)) := by
          refine Finset.sum_congr rfl fun k hk => ?_
          rw [List.getD_eq_getElem?_getD, getElem?_fftLine_exact ω v hω (Finset.mem_range.1 hk), Option.getD_some,
            Finset.sum_mul]
          exact Finset.sum_congr rfl fun n _ => mul_assoc _ _ _
      _ = ∑ n ∈ Finset.range (2 ^ l), v.getD n 0 * if n = m then 2 ^ l else 0 := by
          rw [Finset.sum_comm]
          refine Finset.sum_congr rfl fun n hn => ?_
          rw [← Finset.mul_sum, sum_root_orthogonal hι hω hιhalf hm (Finset.mem_range.1 hn)]
      _ = 2 ^ l * v[m] := by
          simp [hm, hv, mul_comm]
  · rw [List.getElem?_eq_none (by simpa using hm), List.getElem?_eq_none (by simpa [hv] using hm)]

end Sys2Proof.Proofs
end

section
/-! PROOFS. FFT_FWD and FFT_INV in binary64: the bank they leave, the inverse's scaling, and a bank of one cell (42_fft.md
R158-R161, R166). -/

namespace Sys2Proof.Proofs

open Sys2Proof.Machine Sys2Proof.Laws

/-! ## The commands -/

/-- The next state of a command that writes to its whole bank, spoils the scratch storage and completes: those cells, every other
address as before, and nothing else but STATUS and what scratch takes. -/
theorem complete_spoilScratch_writeBank (s : State) (d : Nat) {cells : List Cx} (hlen : cells.length = s.build.cells) :
    let t := complete (spoilScratch (writeBank s d cells))
    t = { s with
      grid := t.grid, scratch := t.scratch, freeCtr := t.freeCtr
      status := { s.status with busy := false, done := true } } ∧
    (∀ i, i < s.build.cells → ∃ c, cells[i]? = some c ∧ gridRead t.grid (cellAddr d i) = some c) ∧
    ∀ a, a < cellAddr d 0 ∨ cellAddr d s.build.cells ≤ a → gridRead t.grid a = gridRead s.grid a := by
  refine ⟨rfl, fun i hi => ?_, fun a ha => ?_⟩
  · have hi' : i < cells.length := hlen ▸ hi
    refine ⟨cells[i], List.getElem?_eq_getElem hi', ?_⟩
    rw [complete_grid, spoilScratch_grid, writeBank_inside hi', List.getElem?_eq_getElem hi']
  · rw [complete_grid, spoilScratch_grid, writeBank_outside (by rwa [hlen])]

section
variable {s : State} {d : Nat} {v : Nat → Cx} (hd : d < s.build.nbanks)
  (hv : ∀ i, i < s.build.cells → gridRead s.grid (cellAddr d i) = some (v i))
include hd hv

theorem exec_fftFwd_written :
    exec (.fftFwd d) s = .next (complete (spoilScratch
      (writeBank s d (fft2dFwd s.build.log2n ((List.range s.build.cells).map v))))) := by
  rw [exec, execFftFwd, gridError_eq_none.2 hd, perform_none, rewriteBank_written hv]

theorem exec_fftInv_written :
    exec (.fftInv d) s = .next (complete (spoilScratch
      (writeBank s d (fft2dInv s.build.log2n ((List.range s.build.cells).map v))))) := by
  rw [exec, execFftInv, gridError_eq_none.2 hd, perform_none, rewriteBank_written hv]

end

/-- Settles O38: the passes, lines, butterflies and scaling it writes out are those of `fft2dFwd` and `fft2dInv`. -/
theorem transformsReplaceBank : Obligations.TransformsReplaceBank := by
  intro s d v _ hd hv l n A fwd inv g p hp
  simp only [List.mem_cons, List.not_mem_nil, or_false] at hp
  rcases hp with rfl | rfl
  · exact ⟨_, exec_fftFwd_written hd hv, complete_spoilScratch_writeBank s d (fft2dFwd_length l g)⟩
  · exact ⟨_, exec_fftInv_written hd hv, complete_spoilScratch_writeBank s d (fft2dInv_length l g)⟩

/-! ## The inverse's scaling -/

/-- `SCALE_L` has exponent field `1023 - L` and nothing else (R158). -/
theorem scaleL_eq_ofSignMag (l : Nat) : scaleL l = ofSignMag false ((1023 - l) * 2 ^ 52) := by
  rw [scaleL, ofSignMag, Nat.shiftLeft_eq, if_neg Bool.false_ne_true, Nat.add_zero]

theorem magBits_scaleL (l : Nat) : magBits (scaleL l) = (1023 - l) * 2 ^ 52 := by
  rw [scaleL_eq_ofSignMag, magBits_ofSignMag (by omega)]

theorem isNeg_scaleL (l : Nat) : isNeg (scaleL l) = false := by
  rw [scaleL_eq_ofSignMag, isNeg_ofSignMag (by omega)]

theorem isFinite_scaleL (l : Nat) : isFinite (scaleL l) = true := by
  rw [isFinite, magBits_scaleL, decide_eq_true_eq]
  unfold infMag
  omega

/-- `SCALE_L` is exactly `2^-L` as long as its exponent is that of a normal number (R158). -/
theorem units_scaleL {l : Nat} (hl : l < 1023) : units (scaleL l) * 2 ^ l = oneUnits := by
  obtain ⟨k, hk⟩ : ∃ k, 1023 - l = k + 1 := ⟨1022 - l, by omega⟩
  rw [units, magBits_scaleL, hk, Nat.succ_mul, magUnits_code (by decide) fun _ => le_refl _, Nat.mul_assoc, ← Nat.pow_add,
    ← Nat.pow_add, show 52 + (k + l) = 1074 by omega, oneUnits, Nat.one_shiftLeft]

/-- Settles O55: an inverse line is by definition the scaled line of the stages, which has `2^L` entries. -/
theorem inverseScaling : Obligations.InverseScaling := by
  intro l hl
  refine ⟨isFinite_scaleL l, isNeg_scaleL l, units_scaleL (by omega), fun v j hj => ?_⟩
  have hlen : j < (fftLine cxArith (twiddleInv l) l v).length := by rwa [fftLine_length]
  refine ⟨_, List.getElem?_eq_getElem hlen, ?_⟩
  rw [fft1dInv, List.getElem?_map, List.getElem?_eq_getElem hlen]
  rfl

/-! ## A bank of one cell -/

theorem fft1dFwd_one_cell (c : Cx) : fft1dFwd 0 [c] = [c] := rfl

theorem fft1dInv_one_cell (c : Cx) : fft1dInv 0 [c] = [cscale c one64] := rfl

theorem rowPass_one_cell (f : List Cx → List Cx) (c : Cx) : rowPass Cx.zero 1 f [c] = f [c] := List.append_nil (f [c])

/-- The only column, for a line transform that gives one element. -/
theorem colPass_one_cell {f : List Cx → List Cx} {c r : Cx} (hf : f [c] = [r]) : colPass Cx.zero 1 f [c] = [r] := by
  have hcol : colOf Cx.zero 1 [c] 0 = [c] := rfl
  simp [colPass, hcol, hf]

/-- Multiplying by 1.0 twice does what doing it once does: it keeps what is not a NaN and makes a NaN canonical. -/
theorem fmul_one_one (a : F64) : fmul (fmul a one64) one64 = if isNaN a then qNaN else a := by
  obtain ⟨hone, -⟩ := scalingByPlusMinusOne a
  obtain ⟨htwice, -⟩ := scalingByPlusMinusOne (fmul a one64)
  rw [htwice, hone]
  cases ha : isNaN a
  · simp [ha]
  · simp

/-- Settles O59: forward, the one line is the cell; inverse, the two passes multiply each part by 1.0. -/
theorem oneCellTransforms : Obligations.OneCellTransforms := by
  intro c
  constructor
  · rw [fft2dFwd, Nat.pow_zero, rowPass_one_cell, fft1dFwd_one_cell, colPass_one_cell (fft1dFwd_one_cell c)]
  · rw [fft2dInv, Nat.pow_zero, colPass_one_cell (fft1dInv_one_cell c), rowPass_one_cell, fft1dInv_one_cell]
    simp only [cscale, fmul_one_one]

end Sys2Proof.Proofs
end

section
/-! PROOFS. The twiddle constants: the exact entries, the first quadrant and its reflection, and nearness to the exact cosine and sine
(42_fft.md R152, R153). -/

namespace Sys2Proof.Proofs

open Sys2Proof.Machine Sys2Proof.Laws

variable {l t : Nat}

/-! ## The entries by quadrant -/

@[simp] theorem twc_zero (l : Nat) : twc l 0 = one64 := if_pos rfl

@[simp] theorem tws_zero (l : Nat) : tws l 0 = 0 := if_pos rfl

theorem twc_quarter (h : 4 * t = 2 ^ l) : twc l t = 0 := by
  have ht : t ≠ 0 := by rintro rfl; exact absurd h (by positivity)
  rw [twc, if_neg ht, if_pos h]

theorem tws_quarter (h : 4 * t = 2 ^ l) : tws l t = one64 := by
  have ht : t ≠ 0 := by rintro rfl; exact absurd h (by positivity)
  rw [tws, if_neg ht, if_pos h]

theorem twc_first_quadrant (ht : 0 < t) (h : 4 * t < 2 ^ l) : twc l t = ofSignMag false (trigMag true l t) := by
  rw [twc, if_neg ht.ne', if_neg h.ne, if_pos h]

theorem tws_first_quadrant (ht : 0 < t) (h : 4 * t < 2 ^ l) : tws l t = ofSignMag false (trigMag false l t) := by
  rw [tws, if_neg ht.ne', if_neg h.ne, if_pos h]

theorem pos_of_second_quadrant (h : 2 ^ l < 4 * t) : 0 < t :=
  Nat.pos_of_ne_zero fun h0 => by
    rw [h0] at h
    exact Nat.not_lt_zero _ h

theorem twc_second_quadrant (h : 2 ^ l < 4 * t) : twc l t = ofSignMag true (trigMag true l (2 ^ l / 2 - t)) := by
  rw [twc, if_neg (pos_of_second_quadrant h).ne', if_neg h.ne', if_neg h.not_gt]

theorem tws_second_quadrant (h : 2 ^ l < 4 * t) : tws l t = ofSignMag false (trigMag false l (2 ^ l / 2 - t)) := by
  rw [tws, if_neg (pos_of_second_quadrant h).ne', if_neg h.ne', if_neg h.not_gt]

/-- The magnitudes of the first quadrant leave the sign bit free. -/
theorem trigMag_lt_sign (cosine : Bool) (h : 4 * t ≤ 2 ^ l) : trigMag cosine l t < 2 ^ 63 :=
  (trigMag_lt cosine h).trans (by decide)

/-- Every size but 1 is even. -/
theorem two_mul_half_size (h : 1 < 2 ^ l) : 2 * (2 ^ l / 2) = 2 ^ l := by
  cases l with
  | zero => exact absurd h (lt_irrefl 1)
  | succ l => rw [Nat.pow_succ]; omega

/-- The signs of the first quadrant, and the reflection about N/4. -/
theorem twiddle_reflection (ht : 0 < t) (h : 4 * t < 2 ^ l) :
    isNeg (twc l t) = false ∧ isNeg (tws l t) = false ∧
      twc l (2 ^ l / 2 - t) = fneg (twc l t) ∧ tws l (2 ^ l / 2 - t) = tws l t := by
  have hhalf := two_mul_half_size (l := l) (by omega)
  have hsecond : 2 ^ l < 4 * (2 ^ l / 2 - t) := by omega
  have hback : 2 ^ l / 2 - (2 ^ l / 2 - t) = t := by omega
  rw [twc_second_quadrant hsecond, tws_second_quadrant hsecond, hback, twc_first_quadrant ht h, tws_first_quadrant ht h,
    fneg_ofSignMag _ (trigMag_lt_sign true h.le), isNeg_ofSignMag (trigMag_lt_sign true h.le),
    isNeg_ofSignMag (trigMag_lt_sign false h.le)]
  exact ⟨rfl, rfl, rfl, rfl⟩

/-- The entries at N/8. -/
theorem twiddle_eighth (l : Nat) : twc (l + 3) (2 ^ l) = 0x3FE6A09E667F3BCD ∧ tws (l + 3) (2 ^ l) = 0x3FE6A09E667F3BCD := by
  have hpos : 0 < 2 ^ l := Nat.two_pow_pos l
  have hlt : 4 * 2 ^ l < 2 ^ (l + 3) := by rw [Nat.pow_add]; omega
  rw [twc_first_quadrant hpos hlt, tws_first_quadrant hpos hlt, trigMag_eighth, trigMag_eighth]
  decide

/-! ## Nearness -/

/-- No finite value is nearer to `x` than `a` is, by more than 2^-1000. -/
def NearestEntry (x : ℝ) (a : F64) : Prop :=
  ∀ z : F64, isFinite z = true → |x * oneUnits - sunits a| ≤ |x * oneUnits - sunits z| + oneUnits / 2 ^ 1000

theorem nearestEntry_of_exact {x : ℝ} {a : F64} (h : x * oneUnits = sunits a) : NearestEntry x a := fun z _ => by
  rw [h, sub_self, abs_zero]
  have := oneUnits_pos
  positivity

/-- Cosine and sine are not negative in the first quadrant. -/
theorem trigOf_nonneg (cosine : Bool) (h : 4 * t ≤ 2 ^ l) : 0 ≤ trigOf cosine l t := by
  have hr : 4 * (t : ℝ) ≤ 2 ^ l := by exact_mod_cast h
  have hpi := Real.pi_pos
  have h0 : 0 ≤ 2 * Real.pi * t / 2 ^ l := by positivity
  have h1 : 2 * Real.pi * t / 2 ^ l ≤ Real.pi / 2 := by
    rw [div_le_iff₀ (by positivity)]
    linarith [mul_le_mul_of_nonneg_left hr hpi.le]
  cases cosine
  · exact Real.sin_nonneg_of_nonneg_of_le_pi h0 (by linarith)
  · exact Real.cos_nonneg_of_mem_Icc ⟨by linarith, h1⟩

/-- A rounded cosine or sine of the first quadrant with a sign is nearest to the exact one with that sign. -/
theorem nearestEntry_trigMag (neg cosine : Bool) (h : 4 * t ≤ 2 ^ l) :
    NearestEntry (if neg then -trigOf cosine l t else trigOf cosine l t) (ofSignMag neg (trigMag cosine l t)) := by
  intro z hz
  have hscale : (if neg then -trigOf cosine l t else trigOf cosine l t) * oneUnits =
      if neg then -(trigOf cosine l t * oneUnits) else trigOf cosine l t * oneUnits := by
    cases neg <;> simp
  rw [hscale]
  exact (trigMag_nearest cosine h).signed (mul_nonneg (trigOf_nonneg cosine h) oneUnits_pos.le) neg (trigMag_lt_sign cosine h) z hz

/-- The reflection about the quarter turn. -/
theorem trigOf_reflect (h0 : 0 < t) (ht : 2 * t ≤ 2 ^ l) :
    trigOf true l t = -trigOf true l (2 ^ l / 2 - t) ∧ trigOf false l t = trigOf false l (2 ^ l / 2 - t) := by
  have hhalf := two_mul_half_size (l := l) (by omega)
  have hr : 2 * (((2 ^ l / 2 - t : Nat) : ℝ) + t) = 2 ^ l := by
    exact_mod_cast (by omega : 2 * (2 ^ l / 2 - t + t) = 2 ^ l)
  have hangle : 2 * Real.pi * t / 2 ^ l = Real.pi - 2 * Real.pi * (2 ^ l / 2 - t : Nat) / 2 ^ l := by
    field_simp
    linear_combination hr
  simp only [trigOf, if_true, Bool.false_eq_true, if_false]
  rw [hangle, Real.cos_pi_sub, Real.sin_pi_sub]
  exact ⟨rfl, rfl⟩

theorem trigOf_zero (l : Nat) : trigOf true l 0 = 1 ∧ trigOf false l 0 = 0 := by simp [trigOf]

theorem trigOf_quarter (h : 4 * t = 2 ^ l) : trigOf true l t = 0 ∧ trigOf false l t = 1 := by
  have hr : 4 * (t : ℝ) = 2 ^ l := by exact_mod_cast h
  have hangle : 2 * Real.pi * t / 2 ^ l = Real.pi / 2 := by
    rw [div_eq_div_iff (by positivity) two_ne_zero]
    linear_combination Real.pi * hr
  simp [trigOf, hangle]

theorem nearestEntry_zero : NearestEntry 0 0 := nearestEntry_of_exact (by rw [show sunits 0 = 0 by decide]; simp)

theorem nearestEntry_one : NearestEntry 1 one64 :=
  nearestEntry_of_exact (by rw [show sunits one64 = oneUnits by decide +kernel]; simp)

/-- Every entry is nearest to the exact cosine or sine, by the quadrants of `twc` and `tws`. -/
theorem nearestEntry_twiddle (ht : 2 * t < 2 ^ l) :
    NearestEntry (trigOf true l t) (twc l t) ∧ NearestEntry (trigOf false l t) (tws l t) := by
  rcases Nat.eq_zero_or_pos t with rfl | h0
  · rw [twc_zero, tws_zero, (trigOf_zero l).1, (trigOf_zero l).2]
    exact ⟨nearestEntry_one, nearestEntry_zero⟩
  rcases Nat.lt_trichotomy (4 * t) (2 ^ l) with h | h | h
  · rw [twc_first_quadrant h0 h, tws_first_quadrant h0 h]
    exact ⟨nearestEntry_trigMag false true h.le, nearestEntry_trigMag false false h.le⟩
  · rw [twc_quarter h, tws_quarter h, (trigOf_quarter h).1, (trigOf_quarter h).2]
    exact ⟨nearestEntry_zero, nearestEntry_one⟩
  · obtain ⟨hcos, hsin⟩ := trigOf_reflect h0 ht.le
    have hfirst : 4 * (2 ^ l / 2 - t) ≤ 2 ^ l := by omega
    rw [twc_second_quadrant h, tws_second_quadrant h, hcos, hsin]
    exact ⟨nearestEntry_trigMag true true hfirst, nearestEntry_trigMag false false hfirst⟩

/-- Settles O53: the listed constants are evaluated, the rest follows from the quadrants of the ROM. -/
theorem twiddleRomValues : Obligations.TwiddleRomValues := by
  have quarter : ∀ l, 4 * 2 ^ l = 2 ^ (l + 2) := fun l => by rw [Nat.pow_add]; omega
  refine ⟨by decide +kernel, by decide +kernel, fun l => ?_, fun l => ⟨twc_quarter (quarter l), tws_quarter (quarter l)⟩,
    twiddle_eighth, fun l t h0 h => twiddle_reflection h0 h, fun l t => ⟨rfl, rfl⟩, fun l t ht z hz => ?_⟩
  · rw [twiddleFwd, twiddleInv, twc_zero, tws_zero]
    decide
  · obtain ⟨hcos, hsin⟩ := nearestEntry_twiddle ht
    exact ⟨hcos z hz, hsin z hz⟩

end Sys2Proof.Proofs
end

section
/-! PROOFS. Which words of CMD are rejected, and which error the check order selects for one: the decoder's fields against the
spec's own masks and ranges, format by format, and the engine's turn on each word (60_exceptions.md R181-R186,
30_encoding.md R99). -/

namespace Sys2Proof.Proofs

open Sys2Proof.Machine Sys2Proof.Safety Sys2Proof.Laws

variable {w : Word} {b : Build} {r : Except DecodeError Instr}

/-! ## Masks and fields -/

/-- The mask of the `len` bits from bit `lo` on. -/
def rangeMask (lo len : Nat) : Word := BitVec.ofNat 64 ((2 ^ len - 1) <<< lo)

/-- A word meets the mask of a range of its bits unless the field they form is 0. -/
theorem and_rangeMask_eq_zero {lo len : Nat} (h : lo + len ≤ 64) :
    w &&& rangeMask lo len = 0 ↔ w.toNat / 2 ^ lo % 2 ^ len = 0 := by
  have hmask : (rangeMask lo len).toNat = (2 ^ len - 1) <<< lo := by
    rw [rangeMask, BitVec.toNat_ofNat, Nat.mod_eq_of_lt]
    calc (2 ^ len - 1) <<< lo = (2 ^ len - 1) * 2 ^ lo := Nat.shiftLeft_eq _ _
      _ < 2 ^ len * 2 ^ lo := by gcongr; exact Nat.sub_lt (by positivity) one_pos
      _ = 2 ^ (lo + len) := by rw [Nat.add_comm, Nat.pow_add]
      _ ≤ 2 ^ 64 := by gcongr; exact one_le_two
  have hhigh : (w &&& rangeMask lo len).toNat / 2 ^ lo = w.toNat / 2 ^ lo % 2 ^ len := by
    rw [BitVec.toNat_and, hmask, ← Nat.shiftRight_eq_div_pow, Nat.shiftRight_and_distrib, Nat.shiftLeft_shiftRight,
      Nat.and_two_pow_sub_one_eq_mod, Nat.shiftRight_eq_div_pow]
  have hlow : (w &&& rangeMask lo len).toNat % 2 ^ lo = 0 := by
    rw [BitVec.toNat_and, hmask, Nat.and_mod_two_pow, Nat.shiftLeft_eq, Nat.mul_mod_left, Nat.and_zero]
  rw [← hhigh, ← BitVec.toNat_inj]
  constructor
  · intro h0
    simp [h0]
  · intro h0
    rw [← Nat.div_add_mod (w &&& rangeMask lo len).toNat (2 ^ lo), h0, hlow]
    simp

/-- Format C (30_encoding.md R93): bits 12 to 15 and 48 to 63. -/
theorem and_maskC_eq_zero : w &&& 0xFFFF00000000F000 = 0 ↔ fieldS w = 0 ∧ fieldRsv w = 0 := by
  have hlt := w.isLt
  rw [show (0xFFFF00000000F000 : Word) = rangeMask 12 4 ||| rangeMask 48 16 by decide, BitVec.and_or_distrib_left]
  refine (BitVec.or_eq_zero_iff.trans
    (and_congr (and_rangeMask_eq_zero (by decide)) (and_rangeMask_eq_zero (by decide)))).trans ?_
  unfold fieldS fieldRsv
  omega

/-- Format G (30_encoding.md R94): every bit from 12 on. -/
theorem and_maskG_eq_zero :
    w &&& 0xFFFFFFFFFFFFF000 = 0 ↔ fieldS w = 0 ∧ fieldX w = 0 ∧ fieldY w = 0 ∧ fieldRsv w = 0 := by
  have hlt := w.isLt
  rw [show (0xFFFFFFFFFFFFF000 : Word) = rangeMask 12 52 by decide, and_rangeMask_eq_zero (by decide)]
  unfold fieldS fieldX fieldY fieldRsv
  omega

/-- Format K (30_encoding.md R95): every bit from 16 on. -/
theorem and_maskK_eq_zero : w &&& 0xFFFFFFFFFFFF0000 = 0 ↔ fieldX w = 0 ∧ fieldY w = 0 ∧ fieldRsv w = 0 := by
  have hlt := w.isLt
  rw [show (0xFFFFFFFFFFFF0000 : Word) = rangeMask 16 48 by decide, and_rangeMask_eq_zero (by decide)]
  unfold fieldX fieldY fieldRsv
  omega

/-! The fields as slices of the word's bits (30_encoding.md R92). -/

theorem toNat_extractLsb'_eq (w : Word) (lo len : Nat) :
    (w.extractLsb' lo len).toNat = w.toNat / 2 ^ lo % 2 ^ len := by
  rw [BitVec.extractLsb'_toNat, Nat.shiftRight_eq_div_pow]

theorem slice_eq_fieldD : (w.extractLsb' 8 4).toNat = fieldD w := toNat_extractLsb'_eq w 8 4

theorem slice_eq_fieldS : (w.extractLsb' 12 4).toNat = fieldS w := toNat_extractLsb'_eq w 12 4

theorem slice_eq_fieldX : (w.extractLsb' 16 16).toNat = fieldX w := toNat_extractLsb'_eq w 16 16

theorem slice_eq_fieldY : (w.extractLsb' 32 16).toNat = fieldY w := toNat_extractLsb'_eq w 32 16

/-! ## Formats -/

/-- No opcode has two formats. -/
theorem formats_disjoint : (∀ op ∈ opsC, op ∉ opsG ∧ op ∉ opsK) ∧ ∀ op ∈ opsG, op ∉ opsK := by decide

theorem reservedMask_opsC {op : Nat} (h : op ∈ opsC) : reservedMask op = 0xFFFF00000000F000 := if_pos h

theorem reservedMask_opsG {op : Nat} (h : op ∈ opsG) : reservedMask op = 0xFFFFFFFFFFFFF000 :=
  (if_neg fun hC => (formats_disjoint.1 op hC).1 h).trans (if_pos h)

theorem reservedMask_opsK {op : Nat} (h : op ∈ opsK) : reservedMask op = 0xFFFFFFFFFFFF0000 :=
  (if_neg fun hC => (formats_disjoint.1 op hC).2 h).trans (if_neg fun hG => formats_disjoint.2 op hG h)

/-- A command, where the word does not meet the mask of its opcode's format (60_exceptions.md R184). -/
def unlessReserved (w : Word) (i : Instr) : Except DecodeError Instr :=
  if w &&& reservedMask (fieldOp w) = 0 then .ok i else .error .rsvd

theorem decodeC_eq (make : Nat → Nat → Nat → Instr) (h : fieldOp w ∈ opsC) :
    decodeC make w = unlessReserved w (make (fieldD w) (fieldX w) (fieldY w)) :=
  if_congr (by rw [reservedMask_opsC h, and_maskC_eq_zero]) rfl rfl

theorem decodeG_eq (make : Nat → Instr) (h : fieldOp w ∈ opsG) :
    decodeG make w = unlessReserved w (make (fieldD w)) :=
  if_congr (by rw [reservedMask_opsG h, and_maskG_eq_zero]) rfl rfl

theorem decodeK_eq (make : Nat → Nat → Instr) (h : fieldOp w ∈ opsK) :
    decodeK make w = unlessReserved w (make (fieldD w) (fieldS w)) :=
  if_congr (by rw [reservedMask_opsK h, and_maskK_eq_zero]) rfl rfl

/-- How the decoder reads a word: by the format of its opcode, whose commands share their checks, or not at all
(30_encoding.md R98, R99, 60_exceptions.md R182-R184). -/
inductive ReadAs (w : Word) : Except DecodeError Instr → Prop where
  | formatC (i : Instr) (hop : fieldOp w ∈ opsC)
      (hcheck : ∀ b, checkOf b i = cellError b (fieldD w) (fieldX w) (fieldY w)) : ReadAs w (unlessReserved w i)
  | formatG (i : Instr) (hop : fieldOp w ∈ opsG)
      (hcheck : ∀ b, checkOf b i = gridError b (fieldD w)) : ReadAs w (unlessReserved w i)
  | formatK (i : Instr) (hop : fieldOp w ∈ opsK)
      (hcheck : ∀ b, checkOf b i = copyError b (fieldD w) (fieldS w)) : ReadAs w (unlessReserved w i)
  | unknown (hop : fieldOp w ∉ opsC ++ opsG ++ opsK) : ReadAs w (.error .badOp)

theorem decode_readAs (w : Word) : ReadAs w (decode w) := by
  unfold decode
  split
  case h_1 hop | h_2 hop | h_3 hop | h_4 hop | h_5 hop | h_6 hop =>
    have hC : fieldOp w ∈ opsC := by rw [hop]; decide
    rw [decodeC_eq _ hC]
    exact .formatC _ hC fun _ => rfl
  case h_7 hop | h_9 hop | h_10 hop | h_11 hop | h_12 hop =>
    have hG : fieldOp w ∈ opsG := by rw [hop]; decide
    rw [decodeG_eq _ hG]
    exact .formatG _ hG fun _ => rfl
  case h_8 hop =>
    have hK : fieldOp w ∈ opsK := by rw [hop]; decide
    rw [decodeK_eq _ hK]
    exact .formatK _ hK fun _ => rfl
  case h_13 => exact .unknown (by simp_all [opsC, opsG, opsK])

/-! ## Rejected words -/

theorem unlessReserved_rejects (w : Word) (i : Instr) :
    unlessReserved w i ≠ .error .badOp ∧
      (unlessReserved w i = .error .rsvd ↔ w &&& reservedMask (fieldOp w) ≠ 0) := by
  unfold unlessReserved
  split
  case isTrue hm => exact ⟨nofun, nofun, fun hn => absurd hm hn⟩
  case isFalse hm => exact ⟨nofun, fun _ => hm, fun _ => rfl⟩

/-- A word is rejected for its opcode, or else for the mask of its opcode's format. -/
theorem rejected_of_readAs (h : ReadAs w r) :
    (r = .error .badOp ↔ fieldOp w ∉ opsC ++ opsG ++ opsK) ∧
      (r = .error .rsvd ↔ fieldOp w ∈ opsC ++ opsG ++ opsK ∧ w &&& reservedMask (fieldOp w) ≠ 0) := by
  cases h with
  | formatC i hop | formatG i hop | formatK i hop =>
    obtain ⟨hbad, hrsvd⟩ := unlessReserved_rejects w i
    simp [hop, hbad, hrsvd]
  | unknown hop => exact ⟨⟨fun _ => hop, fun _ => rfl⟩, nofun, fun h => absurd h.1 hop⟩

/-- Settles O3: the opcode fixes the format, and a format's guard fails exactly where the word meets its mask. -/
theorem rejectedWords : Obligations.RejectedWords := by
  intro w
  have hmap : [0x01, 0x02, 0x03, 0x04, 0x05, 0x06, 0x10, 0x11, 0x12, 0x13, 0x20, 0x21].Perm
      (opsC ++ opsG ++ opsK) := by decide
  obtain ⟨hbad, hrsvd⟩ := rejected_of_readAs (decode_readAs w)
  refine ⟨hbad.trans (not_congr hmap.mem_iff.symm), hrsvd.trans ?_⟩
  rw [List.mem_append, List.mem_append, or_and_right, or_and_right, or_assoc, ← List.mem_singleton (b := 0x11)]
  refine or_congr (and_congr_right fun h => ?_) (or_congr (and_congr_right fun h => ?_) (and_congr_right fun h => ?_))
  · rw [reservedMask_opsC h]
  · rw [reservedMask_opsG h]
  · rw [reservedMask_opsK h]

/-! ## The check order -/

/-- The error of a word as the engine finds it: the decoder's, or that of the checks of the decoded command. -/
def errorOf (b : Build) : Except DecodeError Instr → Option ErrCode
  | .ok i => checkOf b i
  | .error e => some (decodeErrCode e)

theorem errorOf_unlessReserved (b : Build) (w : Word) (i : Instr) :
    errorOf b (unlessReserved w i) = if w &&& reservedMask (fieldOp w) ≠ 0 then some .rsvd else checkOf b i := by
  rw [ite_not]
  exact apply_ite _ _ _ _

/-- The check order in the spec's masks and ranges selects the error the engine finds, format by format
(60_exceptions.md R186). -/
theorem wordError_of_readAs (h : ReadAs w r) : wordError b w = errorOf b r := by
  obtain ⟨hC, hG⟩ := formats_disjoint
  have hop8 : w.toNat % 256 = fieldOp w := rfl
  simp only [wordError, hop8, slice_eq_fieldD, slice_eq_fieldS, slice_eq_fieldX, slice_eq_fieldY]
  cases h with
  | formatC i hop hcheck =>
    rw [if_neg (by simp [hop]), errorOf_unlessReserved, hcheck, cellError]
    simp only [hop, hC _ hop, true_and, false_and, or_false]
  | formatG i hop hcheck =>
    have hnC : fieldOp w ∉ opsC := fun h => (hC _ h).1 hop
    rw [if_neg (by simp [hop]), errorOf_unlessReserved, hcheck, gridError]
    simp only [hnC, hG _ hop, false_and, or_false, if_false]
  | formatK i hop hcheck =>
    have hnC : fieldOp w ∉ opsC := fun h => (hC _ h).2 hop
    rw [if_neg (by simp [hop]), errorOf_unlessReserved, hcheck, copyError]
    simp only [hop, hnC, true_and, false_and, if_false]
  | unknown hop => exact if_pos hop

theorem wordError_eq_errorOf (b : Build) (w : Word) : wordError b w = errorOf b (decode w) :=
  wordError_of_readAs (decode_readAs w)

/-- The engine's turn on a pending word that has an error is the effect of that error (60_exceptions.md R181). -/
theorem engineStep_of_error {s : State} {c : ErrCode} (hp : s.resetPin = false) (hb : s.status.busy = true)
    (h : wordError s.build s.cmd = some c) : engineStep s = .next (raiseError c s) := by
  rw [wordError_eq_errorOf] at h
  cases hd : decode s.cmd with
  | ok i =>
    rw [hd] at h
    rw [engineStep_decoded hp hb hd, exec_eq_perform, show checkOf s.build i = some c from h, perform_some]
  | error e =>
    rw [hd] at h
    cases h
    simp [engineStep, hp, hb, hd]

/-- A pending word without an error decodes to a command that its checks let run. -/
theorem decode_of_no_error (h : wordError b w = none) : ∃ i, decode w = .ok i ∧ checkOf b i = none := by
  rw [wordError_eq_errorOf] at h
  cases hd : decode w with
  | ok i => exact ⟨i, rfl, by rwa [hd] at h⟩
  | error e =>
    rw [hd] at h
    cases h

/-- Settles O8: an error is raised, or a rule runs whose effect on STATUS is at most a warning, and on the fault log at most an
unwritten read. -/
theorem checkOrderSelectsError : Obligations.CheckOrderSelectsError := by
  intro s _ hp hb
  refine ⟨fun c h => engineStep_of_error hp hb h, fun h => ?_⟩
  obtain ⟨i, hd, hcheck⟩ := decode_of_no_error h
  have hexec : exec i s = .next (complete (ruleOf i s)) := by rw [exec_eq_perform, hcheck, perform_none]
  have heff := ruleOf_effect hcheck
  refine ⟨i, _, hd, (engineStep_decoded hp hb hd).trans hexec, hexec, ?_, ?_, fun c => ?_⟩
  · rcases heff.status with hs | ⟨-, hs⟩ <;> simp [hs]
  · rcases heff.status with hs | ⟨-, hs⟩ <;> simp [hs]
  · rcases heff.faultlog with hf | hf <;> simp [hf]

end Sys2Proof.Proofs
end

section
/-! PROOFS. The two resets and what they do to a pending command: the reset input at assertion, while it is asserted and at
deassertion, the write of CTRL, and the cells that an abort unwrites (70_reset_and_hazards.md R210-R212, 10_state.md R48). -/

namespace Sys2Proof.Proofs

open Sys2Proof.Machine Sys2Proof.Safety Sys2Proof.Laws

variable {s : State} {b : Build} {i : Instr} {a d : Nat}

/-! ## The cells a command would write -/

/-- A command that the checks reject writes no cell (70_reset_and_hazards.md R212). -/
theorem writesCell_of_error {c : ErrCode} (h : checkOf b i = some c) : writesCell b i a = false := by
  cases i
  case get | mag2 | mag | phase | sumsq => rfl
  case set | zeroCell | scale | copy | renorm | fftFwd | fftInv =>
    rw [checkOf] at h
    simp [writesCell, h]

/-- A command without a destination writes no cell. -/
theorem writesCell_of_no_dest (h : destOf i = none) : writesCell b i a = false := by
  cases i <;> cases h <;> rfl

/-- SET and ZERO_CELL in range write their cell alone. -/
theorem writesCell_storing_cell {x y : Nat} (hi : i ∈ [Instr.set d x y, .zeroCell d x y]) (h : cellError b d x y = none) :
    writesCell b i a = (a == cellOperand b d x y) := by
  simp only [List.mem_cons, List.not_mem_nil, or_false] at hi
  rcases hi with rfl | rfl <;> simp [writesCell, h]

/-- The commands that rewrite their destination bank write, in range, every address of that bank. -/
theorem writesCell_bank {src : Nat} (hi : i ∈ [Instr.scale d, .copy d src, .renorm d, .fftFwd d, .fftInv d])
    (h : checkOf b i = none) : writesCell b i a = (a / bankStride == d) := by
  simp only [List.mem_cons, List.not_mem_nil, or_false] at hi
  rcases hi with rfl | rfl | rfl | rfl | rfl <;> (rw [checkOf] at h; simp [writesCell, h])

/-! ## The grid after a soft reset -/

theorem gridUnwrite_none (g : Memory) : gridUnwrite g (fun _ => false) = g := by
  simp [gridUnwrite]

/-- With no command pending, a soft reset leaves the grid. -/
theorem softReset_grid_idle (h : s.status.busy = false) : (softReset s).grid = s.grid :=
  congrArg (·.grid) (abortPending_idle h)

/-- A pending word that the decoder rejects has no cell to unwrite. -/
theorem softReset_grid_of_decode_error {e : DecodeError} (hb : s.status.busy = true) (hd : decode s.cmd = .error e) :
    (softReset s).grid = s.grid := by
  simp [softReset, abortPending, hb, hd]

/-- A pending command has the cells it would write unwritten (70_reset_and_hazards.md R212). -/
theorem softReset_grid_of_decode_ok (hb : s.status.busy = true) (hd : decode s.cmd = .ok i) :
    (softReset s).grid = gridUnwrite s.grid (writesCell s.build i) := by
  simp [softReset, abortPending, hb, hd]

/-- A cell as it reads after the abort of a pending command. -/
theorem gridRead_softReset (hb : s.status.busy = true) (hd : decode s.cmd = .ok i) (a : Nat) :
    gridRead (softReset s).grid a = if writesCell s.build i a then none else gridRead s.grid a := by
  rw [softReset_grid_of_decode_ok hb hd, gridRead_gridUnwrite]

/-- A pending word that has an error has no cell to unwrite. -/
theorem softReset_grid_of_error {c : ErrCode} (hb : s.status.busy = true) (h : wordError s.build s.cmd = some c) :
    (softReset s).grid = s.grid := by
  rw [wordError_eq_errorOf] at h
  cases hd : decode s.cmd with
  | error e => exact softReset_grid_of_decode_error hb hd
  | ok i =>
    rw [hd] at h
    have hnone : writesCell s.build i = fun _ => false := funext fun _ => writesCell_of_error h
    rw [softReset_grid_of_decode_ok hb hd, hnone, gridUnwrite_none]

/-- Settles O15, by the cells that each class of pending command would write. -/
theorem abortUnwritesTargets : Obligations.AbortUnwritesTargets := by
  intro s _ hb
  refine ⟨fun d x y hdec hd hx hy a => ?_, fun d src hdec hd e j hj => ?_, fun c h => softReset_grid_of_error hb h,
    fun d x y hdec a => ?_⟩
  · have hcheck := cellError_eq_none.2 ⟨hd, hx, hy⟩
    obtain ⟨i, hi, hmem⟩ : ∃ i, decode s.cmd = .ok i ∧ i ∈ [Instr.set d x y, .zeroCell d x y] := by
      rcases hdec with h | h <;> exact ⟨_, h, by simp⟩
    simp [gridRead_softReset hb hi, writesCell_storing_cell hmem hcheck, cellOperand, flatIdx]
  · obtain ⟨i, hi, hmem, hcheck⟩ : ∃ i, decode s.cmd = .ok i ∧
        i ∈ [Instr.scale d, .copy d src, .renorm d, .fftFwd d, .fftInv d] ∧ checkOf s.build i = none := by
      rcases hdec with h | h | h | h | ⟨h, hsrc⟩
      iterate 4 · exact ⟨_, h, by simp, gridError_eq_none.2 hd⟩
      · exact ⟨_, h, by simp, copyError_eq_none.2 ⟨hd, hsrc⟩⟩
    simp [gridRead_softReset hb hi, writesCell_bank hmem hcheck, cellAddr_div (d := e) hj]
  · obtain ⟨i, hi, hdest⟩ : ∃ i, decode s.cmd = .ok i ∧ destOf i = none := by
      rcases hdec with h | h | h | h | h <;> exact ⟨_, h, rfl⟩
    simp [gridRead_softReset hb hi, writesCell_of_no_dest hdest]

/-! ## The write of CTRL -/

theorem writeCtrl_set {v : Word} (h : v.getLsbD 0 = true) : writeCtrl v s = softReset s := if_pos h

theorem writeCtrl_clear {v : Word} (h : v.getLsbD 0 = false) : writeCtrl v s = s := if_neg (ne_true_of_eq_false h)

/-- The abort does not look at the schedule. -/
theorem softReset_with_events (s : State) (es : List Event) :
    softReset { s with events := es } = { softReset s with events := es } := by
  unfold softReset abortPending
  cases s.status.busy with
  | false => rfl
  | true => cases decode s.cmd <;> rfl

/-- A soft reset leaves the registers at their values of 10_state.md R55. -/
theorem registers_softReset (s : State) : registers (softReset s) = registers (State.resetOf s.build) := by
  rw [← softReset_build s]
  rfl

/-- Settles O14: the write is the soft reset, or nothing, by its bit 0. -/
theorem softReset : Obligations.SoftReset := by
  intro s v es hb hp
  refine ⟨fun hv => ?_, fun hv => ?_⟩
  · have hstep := step_wr .ctrl v es hb hp
    rw [writeReg, writeCtrl_set hv, softReset_with_events] at hstep
    exact ⟨_, hstep, registers_softReset s, softReset_build s, softReset_faultlog s, rfl, rfl,
      (abortPending_resetPin s).trans hp, rfl, softReset_grid_idle⟩
  · rw [step_wr _ v es hb hp, writeReg, writeCtrl_clear hv]

/-! ## The reset input -/

/-- A read while reset is asserted returns zero bytes (70_reset_and_hazards.md R210, log entry 9). -/
theorem hostRead_in_reset {addr : BitVec 64} {off : Nat} (width : Nat) (hp : s.resetPin = true)
    (ho : offsetOf s.build addr = some off) :
    hostRead addr width s = { s with resp := .data (List.replicate width 0) } := by
  simp [hostRead, ho, hp]

/-- A write while reset is asserted has no effect (70_reset_and_hazards.md R210). -/
theorem hostWrite_in_reset {addr : BitVec 64} {off : Nat} (data : List Byte) (hp : s.resetPin = true)
    (ho : offsetOf s.build addr = some off) : hostWrite addr data s = { s with resp := .done } := by
  simp [hostWrite, ho, hp]

/-- Settles O13: assertion is `hardReset`, and an asserted reset holds the block until it is released. -/
theorem hardReset : Obligations.HardReset := by
  intro s es hb
  refine ⟨⟨_, step_event .resetAssert es hb, rfl, rfl, rfl, rfl, rfl, fun _ => rfl, rfl, rfl⟩, fun hp => ⟨?_, ?_, ?_, ?_⟩⟩
  · exact fun addr width off ho => step_hostRead hb (hostRead_in_reset width hp ho)
  · exact fun addr data off ho => step_hostWrite hb (hostWrite_in_reset data hp ho)
  · exact (step_event .engine es hb).trans (engineStep_not_enabled (.inr hp))
  · exact step_event .resetDeassert es hb

end Sys2Proof.Proofs
end
